-- ==== Sys2Proof/Word.lean ====
section
/-! DEFINITION. The words of the block and its named sets of values (00_scope.md R14, R16; 30_encoding.md R130, R141).
Bit 0 is the least significant bit of every word. -/

namespace Sys2Proof

abbrev Byte := BitVec 8

/-- A command word `CMD` (R130). -/
abbrev CmdWord := BitVec 32

/-- A binary64 value, as its 64 bits (R16, R170). -/
abbrev F64 := BitVec 64

/-- A binary32 value, as its 32 bits (R16, R170). -/
abbrev F32 := BitVec 32

/-- The oscillator's waveforms (R46, R141). -/
inductive OscWave where
  | sine | saw | square | triangle
deriving DecidableEq, Repr, Inhabited

/-- The LFO's shapes (R60, R141). -/
inductive LfoWave where
  | sine | triangle | square | sawtooth | sampleAndHold
deriving DecidableEq, Repr, Inhabited

/-- The LFO's rate modes (R62, R141). -/
inductive RateMode where
  | free | sync
deriving DecidableEq, Repr, Inhabited

/-- An index into `SYNC_BEATS` (R63, R303). -/
abbrev SyncDiv := Fin 7

/-- The filter's output modes (R70, R141). -/
inductive FiltMode where
  | lowPass | bandPass | highPass
deriving DecidableEq, Repr, Inhabited

/-- The envelope's states (R54, R141). -/
inductive EnvState where
  | idle | attack | decay | sustain | release
deriving DecidableEq, Repr, Inhabited

/-- The three faults the block raises (R400). -/
inductive FaultCode where
  | illegalCommand | notConfigured | badOperand
deriving DecidableEq, Repr

/-- The values of the parameter `BP_VARIANT` (R8, R361). -/
inductive BpVariant where
  | s1MinusS4 | s2
deriving DecidableEq, Repr, Inhabited

/-- The values of the parameter `HP_SRC` (R8, R361). -/
inductive HpSrc where
  | v | u
deriving DecidableEq, Repr, Inhabited

/-- What the host presents on the ports `CMD` and `OPD` (R104, R130). -/
structure Command where
  cmd : CmdWord
  opd : BitVec 64
deriving DecidableEq, Repr

/-- What the host may do to the block that moves it: send a command, or power-cycle it (R461). -/
inductive HostInput where
  | command (c : Command)
  | powerOn
deriving DecidableEq, Repr

end Sys2Proof
end

