-- ==== Sys2Proof/Syntax.lean ====
section
/-! DEFINITION. The 33 commands (30_encoding.md R132), one constructor per row of spec/opcode_table.json. `idx` is the
instance number (R133); `sel` the enumeration immediate of a command that takes one (R134), whose range
`Instr.WellFormed` checks (R135); `v` the f64 operand and `x` the f32 operand of `OPD` (R138). An ignored operand is no
part of the command. -/

namespace Sys2Proof

inductive Instr where
  | sysSetSr (idx : BitVec 4) (v : F64)
  | oscSetFreq (idx : BitVec 4) (v : F64)
  | oscSetWave (idx : BitVec 4) (sel : BitVec 4)
  | oscSetPw (idx : BitVec 4) (v : F64)
  | oscTick (idx : BitVec 4)
  | oscReset (idx : BitVec 4)
  | oscRandPhase (idx : BitVec 4)
  | oscGetPhase (idx : BitVec 4)
  | envSetAttack (idx : BitVec 4) (v : F64)
  | envSetDecay (idx : BitVec 4) (v : F64)
  | envSetSustain (idx : BitVec 4) (v : F64)
  | envSetRelease (idx : BitVec 4) (v : F64)
  | envNoteOn (idx : BitVec 4) (v : F64)
  | envNoteOff (idx : BitVec 4)
  | envTick (idx : BitVec 4)
  | envReset (idx : BitVec 4)
  | envGetState (idx : BitVec 4)
  | envIsActive (idx : BitVec 4)
  | envGetLevel (idx : BitVec 4)
  | lfoSetWave (idx : BitVec 4) (sel : BitVec 4)
  | lfoSetRate (idx : BitVec 4) (v : F64)
  | lfoSetRateMode (idx : BitVec 4) (sel : BitVec 4)
  | lfoSetSyncDiv (idx : BitVec 4) (sel : BitVec 4)
  | lfoSetBpm (idx : BitVec 4) (v : F64)
  | lfoSetDepth (idx : BitVec 4) (v : F64)
  | lfoTick (idx : BitVec 4)
  | lfoPeek (idx : BitVec 4)
  | lfoReset (idx : BitVec 4)
  | filtSetMode (idx : BitVec 4) (sel : BitVec 4)
  | filtSetCutoff (idx : BitVec 4) (v : F64)
  | filtSetRes (idx : BitVec 4) (v : F64)
  | filtTick (idx : BitVec 4) (x : F32)
  | filtReset (idx : BitVec 4)
deriving DecidableEq, Repr

end Sys2Proof
end

