-- ==== Sys2Proof/WellFormed.lean ====
section
/-! DEFINITION. What a command must satisfy beyond its shape: the enumeration immediate is no greater than the largest
enumerator (30_encoding.md R135, R141). -/

namespace Sys2Proof

/-- Is `i` a command of the block (R135)? The five commands that take `SEL` bound it; the others have no field that
could be out of range. -/
def Instr.WellFormed (i : Instr) : Bool :=
  match i with
  | .oscSetWave _ sel => decide (sel.toNat ≤ 3)
  | .lfoSetWave _ sel => decide (sel.toNat ≤ 4)
  | .lfoSetRateMode _ sel => decide (sel.toNat ≤ 1)
  | .lfoSetSyncDiv _ sel => decide (sel.toNat ≤ 6)
  | .filtSetMode _ sel => decide (sel.toNat ≤ 2)
  | .sysSetSr _ _ | .oscSetFreq _ _ | .oscSetPw _ _ | .oscTick _ | .oscReset _ | .oscRandPhase _ | .oscGetPhase _ => true
  | .envSetAttack _ _ | .envSetDecay _ _ | .envSetSustain _ _ | .envSetRelease _ _ | .envNoteOn _ _ => true
  | .envNoteOff _ | .envTick _ | .envReset _ | .envGetState _ | .envIsActive _ | .envGetLevel _ => true
  | .lfoSetRate _ _ | .lfoSetBpm _ _ | .lfoSetDepth _ _ | .lfoTick _ | .lfoPeek _ | .lfoReset _ => true
  | .filtSetCutoff _ _ | .filtSetRes _ _ | .filtTick _ _ | .filtReset _ => true

end Sys2Proof
end

