-- ==== Sys2Proof/Decode.lean ====
section
/-! DEFINITION. Command words to commands and back (30_encoding.md R130 to R144), and how a port's word is carried as
bytes (20_memory.md R105). Decoding is total: every word is a command or is illegal, by name. -/

namespace Sys2Proof

/-! ### Fields of a command word (R130) -/

/-- `CMD[31:28]`. -/
def unitOf (w : CmdWord) : Nat := w.toNat / 2 ^ 28

/-- `CMD[27:24]`. -/
def opOf (w : CmdWord) : Nat := w.toNat / 2 ^ 24 % 16

/-- `CMD[23:20]`. -/
def idxOf (w : CmdWord) : BitVec 4 := BitVec.ofNat 4 (w.toNat / 2 ^ 20)

/-- `CMD[19:4]`, which must be 0 (R135). -/
def reservedOf (w : CmdWord) : Nat := w.toNat / 2 ^ 4 % 2 ^ 16

/-- `CMD[3:0]`. -/
def selOf (w : CmdWord) : BitVec 4 := BitVec.ofNat 4 w.toNat

/-- `(UNIT << 28) | (OP << 24) | (IDX << 20) | SEL`, for a unit and an operation below 16. -/
def cmdWordOf (unit op : Nat) (idx sel : BitVec 4) : CmdWord :=
  BitVec.ofNat 32 (unit * 2 ^ 28 + op * 2 ^ 24 + idx.toNat * 2 ^ 20 + sel.toNat)

/-! ### Decoding -/

/-- Why a command word is illegal (R142). -/
inductive Illegal where
  | reservedUnit
  | reservedOp
  | reservedBits
  | selNotTaken
  | selOutOfRange
deriving DecidableEq, Repr

/-- A command that takes no `SEL` (R135). -/
def takesNoSel (sel : BitVec 4) (i : Instr) : Except Illegal Instr :=
  if sel = 0 then .ok i else .error .selNotTaken

/-- A command that takes a `SEL` no greater than `selMax` (R135). -/
def takesSel (selMax : Nat) (sel : BitVec 4) (i : Instr) : Except Illegal Instr :=
  if sel.toNat ≤ selMax then .ok i else .error .selOutOfRange

/-- Unit 0 (R132). -/
def decodeSys (op : Nat) (idx sel : BitVec 4) (opd : BitVec 64) : Except Illegal Instr :=
  match op with
  | 1 => takesNoSel sel (.sysSetSr idx opd)
  | _ => .error .reservedOp

/-- Unit 1 (R132). -/
def decodeOsc (op : Nat) (idx sel : BitVec 4) (opd : BitVec 64) : Except Illegal Instr :=
  match op with
  | 0 => takesNoSel sel (.oscSetFreq idx opd)
  | 1 => takesSel 3 sel (.oscSetWave idx sel)
  | 2 => takesNoSel sel (.oscSetPw idx opd)
  | 3 => takesNoSel sel (.oscTick idx)
  | 4 => takesNoSel sel (.oscReset idx)
  | 5 => takesNoSel sel (.oscRandPhase idx)
  | 6 => takesNoSel sel (.oscGetPhase idx)
  | _ => .error .reservedOp

/-- Unit 2 (R132). -/
def decodeEnv (op : Nat) (idx sel : BitVec 4) (opd : BitVec 64) : Except Illegal Instr :=
  match op with
  | 0 => takesNoSel sel (.envSetAttack idx opd)
  | 1 => takesNoSel sel (.envSetDecay idx opd)
  | 2 => takesNoSel sel (.envSetSustain idx opd)
  | 3 => takesNoSel sel (.envSetRelease idx opd)
  | 4 => takesNoSel sel (.envNoteOn idx opd)
  | 5 => takesNoSel sel (.envNoteOff idx)
  | 6 => takesNoSel sel (.envTick idx)
  | 7 => takesNoSel sel (.envReset idx)
  | 8 => takesNoSel sel (.envGetState idx)
  | 9 => takesNoSel sel (.envIsActive idx)
  | 10 => takesNoSel sel (.envGetLevel idx)
  | _ => .error .reservedOp

/-- Unit 3 (R132). -/
def decodeLfo (op : Nat) (idx sel : BitVec 4) (opd : BitVec 64) : Except Illegal Instr :=
  match op with
  | 0 => takesSel 4 sel (.lfoSetWave idx sel)
  | 1 => takesNoSel sel (.lfoSetRate idx opd)
  | 2 => takesSel 1 sel (.lfoSetRateMode idx sel)
  | 3 => takesSel 6 sel (.lfoSetSyncDiv idx sel)
  | 4 => takesNoSel sel (.lfoSetBpm idx opd)
  | 5 => takesNoSel sel (.lfoSetDepth idx opd)
  | 6 => takesNoSel sel (.lfoTick idx)
  | 7 => takesNoSel sel (.lfoPeek idx)
  | 8 => takesNoSel sel (.lfoReset idx)
  | _ => .error .reservedOp

/-- Unit 4 (R132). `FILT.TICK` reads `OPD[31:0]` only (R138). -/
def decodeFilt (op : Nat) (idx sel : BitVec 4) (opd : BitVec 64) : Except Illegal Instr :=
  match op with
  | 0 => takesSel 2 sel (.filtSetMode idx sel)
  | 1 => takesNoSel sel (.filtSetCutoff idx opd)
  | 2 => takesNoSel sel (.filtSetRes idx opd)
  | 3 => takesNoSel sel (.filtTick idx (opd.setWidth 32))
  | 4 => takesNoSel sel (.filtReset idx)
  | _ => .error .reservedOp

/-- The command a command word and its operand stand for (R131, R132, R135, R142). -/
def decode (c : Command) : Except Illegal Instr :=
  if reservedOf c.cmd ≠ 0 then .error .reservedBits
  else
    match unitOf c.cmd with
    | 0 => decodeSys (opOf c.cmd) (idxOf c.cmd) (selOf c.cmd) c.opd
    | 1 => decodeOsc (opOf c.cmd) (idxOf c.cmd) (selOf c.cmd) c.opd
    | 2 => decodeEnv (opOf c.cmd) (idxOf c.cmd) (selOf c.cmd) c.opd
    | 3 => decodeLfo (opOf c.cmd) (idxOf c.cmd) (selOf c.cmd) c.opd
    | 4 => decodeFilt (opOf c.cmd) (idxOf c.cmd) (selOf c.cmd) c.opd
    | _ => .error .reservedUnit

/-! ### Encoding -/

/-- The command word of a command (R130, R132). -/
def Instr.cmdWord (i : Instr) : CmdWord :=
  match i with
  | .sysSetSr idx _ => cmdWordOf 0 1 idx 0
  | .oscSetFreq idx _ => cmdWordOf 1 0 idx 0
  | .oscSetWave idx sel => cmdWordOf 1 1 idx sel
  | .oscSetPw idx _ => cmdWordOf 1 2 idx 0
  | .oscTick idx => cmdWordOf 1 3 idx 0
  | .oscReset idx => cmdWordOf 1 4 idx 0
  | .oscRandPhase idx => cmdWordOf 1 5 idx 0
  | .oscGetPhase idx => cmdWordOf 1 6 idx 0
  | .envSetAttack idx _ => cmdWordOf 2 0 idx 0
  | .envSetDecay idx _ => cmdWordOf 2 1 idx 0
  | .envSetSustain idx _ => cmdWordOf 2 2 idx 0
  | .envSetRelease idx _ => cmdWordOf 2 3 idx 0
  | .envNoteOn idx _ => cmdWordOf 2 4 idx 0
  | .envNoteOff idx => cmdWordOf 2 5 idx 0
  | .envTick idx => cmdWordOf 2 6 idx 0
  | .envReset idx => cmdWordOf 2 7 idx 0
  | .envGetState idx => cmdWordOf 2 8 idx 0
  | .envIsActive idx => cmdWordOf 2 9 idx 0
  | .envGetLevel idx => cmdWordOf 2 10 idx 0
  | .lfoSetWave idx sel => cmdWordOf 3 0 idx sel
  | .lfoSetRate idx _ => cmdWordOf 3 1 idx 0
  | .lfoSetRateMode idx sel => cmdWordOf 3 2 idx sel
  | .lfoSetSyncDiv idx sel => cmdWordOf 3 3 idx sel
  | .lfoSetBpm idx _ => cmdWordOf 3 4 idx 0
  | .lfoSetDepth idx _ => cmdWordOf 3 5 idx 0
  | .lfoTick idx => cmdWordOf 3 6 idx 0
  | .lfoPeek idx => cmdWordOf 3 7 idx 0
  | .lfoReset idx => cmdWordOf 3 8 idx 0
  | .filtSetMode idx sel => cmdWordOf 4 0 idx sel
  | .filtSetCutoff idx _ => cmdWordOf 4 1 idx 0
  | .filtSetRes idx _ => cmdWordOf 4 2 idx 0
  | .filtTick idx _ => cmdWordOf 4 3 idx 0
  | .filtReset idx => cmdWordOf 4 4 idx 0

/-- The operand of a command (R138); 0 where the command ignores it. -/
def Instr.operand (i : Instr) : BitVec 64 :=
  match i with
  | .sysSetSr _ v | .oscSetFreq _ v | .oscSetPw _ v => v
  | .envSetAttack _ v | .envSetDecay _ v | .envSetSustain _ v | .envSetRelease _ v | .envNoteOn _ v => v
  | .lfoSetRate _ v | .lfoSetBpm _ v | .lfoSetDepth _ v => v
  | .filtSetCutoff _ v | .filtSetRes _ v => v
  | .filtTick _ x => x.setWidth 64
  | .oscSetWave _ _ | .oscTick _ | .oscReset _ | .oscRandPhase _ | .oscGetPhase _ => 0
  | .envNoteOff _ | .envTick _ | .envReset _ | .envGetState _ | .envIsActive _ | .envGetLevel _ => 0
  | .lfoSetWave _ _ | .lfoSetRateMode _ _ | .lfoSetSyncDiv _ _ | .lfoTick _ | .lfoPeek _ | .lfoReset _ => 0
  | .filtSetMode _ _ | .filtReset _ => 0

/-- What the host sends for a command. -/
def encode (i : Instr) : Command := ⟨i.cmdWord, i.operand⟩

/-! ### Port words as bytes (R105) -/

/-- The low `n` bytes of a port's word, little-endian: the first byte holds bits 7:0. -/
def portBytes : Nat → Nat → List Byte
  | 0, _ => []
  | n + 1, w => BitVec.ofNat 8 w :: portBytes n (w / 256)

/-- The word that little-endian bytes carry. -/
def portWord : List Byte → Nat
  | [] => 0
  | b :: bs => b.toNat + 256 * portWord bs

/-- The command that 12 bytes carry, the 4 of `CMD` and then the 8 of `OPD` (log 14). -/
def commandOfBytes (bs : List Byte) : Option Command :=
  if bs.length = 12 then
    some ⟨BitVec.ofNat 32 (portWord (bs.take 4)), BitVec.ofNat 64 (portWord (bs.drop 4))⟩
  else none

def bytesOfCommand (c : Command) : List Byte := portBytes 4 c.cmd.toNat ++ portBytes 8 c.opd.toNat

/-! ### The opcode table's numbering -/

/-- The command whose bits are `w`, bits 31:0 the command word and bits 95:32 the operand; bits at or above `nbits`
are 0. -/
def commandOfTable (nbits w : Nat) : Command :=
  ⟨BitVec.ofNat 32 (w % 2 ^ nbits), BitVec.ofNat 64 (w % 2 ^ nbits / 2 ^ 32)⟩

/-- What the decoder reads from the bits of a row of the opcode table. -/
def decodeTableWord (nbits w : Nat) : Option Instr := (decode (commandOfTable nbits w)).toOption

end Sys2Proof
end

