-- ==== Sys2Proof/Machine/Flags.lean ====
section
/-! DEFINITION. The fields of the status word `STATUS` (10_state.md R43, 60_exceptions.md R400). The block has no
condition codes and no arithmetic flag (R79). -/

namespace Sys2Proof

/-- `STATUS.FAULTED`, bit 0. -/
def statusFaulted (w : BitVec 32) : Bool := w.getLsbD 0

/-- `STATUS.SR_VALID`, bit 1. -/
def statusSrValid (w : BitVec 32) : Bool := w.getLsbD 1

/-- `STATUS.CODE`, bits 7:4. -/
def statusCode (w : BitVec 32) : Nat := w.toNat / 2 ^ 4 % 2 ^ 4

/-- The number of a fault (R400). -/
def FaultCode.number (c : FaultCode) : BitVec 32 :=
  match c with
  | .illegalCommand => 1
  | .notConfigured => 2
  | .badOperand => 3

/-- `STATUS.SR_VALID <- 1` (R175). -/
def statusSetSrValid (w : BitVec 32) : BitVec 32 := w ||| 0x2#32

/-- `STATUS.FAULTED <- 1`, `STATUS.CODE <- code` (R400); the other bits are kept. -/
def statusRecordFault (code : FaultCode) (w : BitVec 32) : BitVec 32 :=
  (w &&& 0xFFFFFF0E#32) ||| ((code.number <<< 4) ||| 0x1#32)

end Sys2Proof
end

