-- ==== Sys2Proof/Config.lean ====
section
/-! DEFINITION. What an implementation fixes and what the spec leaves free, each a constant with no body, so that every
theorem holds for every value of it. The limits the spec sets on them are put on in Machine/Params.lean, where a constant
that breaks its limit is replaced by a legal value: each legal choice is thereby some choice of the constants below. -/

namespace Sys2Proof.Config

/-- Sign and payload of a NaN that an arithmetic operation makes: IEEE 754 leaves them open and the spec says no rule is
needed (93_implementation_defined.md row 17). DESIGN CHOICE, safe (log 11). -/
opaque nanBits : F64

/-- The same for a NaN that `to_binary32` makes (log 11). -/
opaque nanBits32 : F32

/-- `SIN`, `TAN`, `TANH` before R12's properties are put on them (log 7). -/
opaque sinRaw : F64 → F64
opaque tanRaw : F64 → F64
opaque tanhRaw : F64 → F64

/-- `RES_COMP(res, ratio)` before R362's properties are put on it (log 8). -/
opaque resCompRaw : F64 → F64 → F64

/-- `CLAMP_BOUND` before it is held to the bounds that keep R364 item 1 (R8; log 9). -/
opaque clampBoundRaw : F64

/-- `BP_VARIANT` (R8, R361; log 10). -/
opaque bpVariant : BpVariant

/-- `HP_SRC` (R8, R361; log 10). -/
opaque hpSrc : HpSrc

/-- Is `TRI_BLEP_SIGN` +1 (R8, R208; log 10)? -/
opaque triBlepPositive : Bool

/-- The n-th draw, as `draw_phase()` and as `draw_held()` see it, before its range is put on it (R11; log 6). -/
opaque phaseDrawRaw : Nat → F64
opaque heldDrawRaw : Nat → F64

/-- The registers that hold no value at power-on, per run: `SR`, and a filter's `g` and `k` (R42, R74, R81; log 4). -/
opaque srRaw : Nat → F64
opaque filtGRaw : Nat → Nat → F64
opaque filtKRaw : Nat → Nat → F64

/-- `RESET_PARAMS` (R8, R81, R454), per run and per instance, before the registers' legal ranges are put on them (log 5). -/
opaque oscFreqRaw : Nat → Nat → F64
opaque oscWave : Nat → Nat → OscWave
opaque oscPwRaw : Nat → Nat → F64
opaque envAttackRaw : Nat → Nat → F64
opaque envDecayRaw : Nat → Nat → F64
opaque envSustainRaw : Nat → Nat → F64
opaque envReleaseRaw : Nat → Nat → F64
opaque lfoWave : Nat → Nat → LfoWave
opaque lfoRateRaw : Nat → Nat → F64
opaque lfoRateMode : Nat → Nat → RateMode
opaque lfoSyncDiv : Nat → Nat → SyncDiv
opaque lfoBpmRaw : Nat → Nat → F64
opaque lfoDepthRaw : Nat → Nat → F64
opaque filtMode : Nat → Nat → FiltMode
opaque filtCutoffRaw : Nat → Nat → F64
opaque filtResRaw : Nat → Nat → F64

end Sys2Proof.Config
end

