-- ==== Sys2Proof/Machine/Float.lean ====
section
/-! DEFINITION. IEEE 754 binary64 and binary32 as 00_scope.md R16 and 40_system_and_utils.md R170 use them: every
operation is computed exactly over integers and rounded once, to nearest, ties to even (log 12).

A number's bits without its sign, read as one number, are its magnitude code: the codes are ordered as the values are.
Values are counted in units of the format's least subnormal, so every finite value is an integer. `fb` is the number of
fraction bits of a format: 52 for binary64, 23 for binary32. -/

namespace Sys2Proof.Fp

/-- The value of a finite magnitude code, in least subnormals. -/
def magValue (fb m : Nat) : Nat :=
  if m / 2 ^ fb = 0 then m % 2 ^ fb else (2 ^ fb + m % 2 ^ fb) * 2 ^ (m / 2 ^ fb - 1)

/-- The integer nearest to `num / den`, ties to even. -/
def roundHalfEven (num den : Nat) : Nat :=
  if 2 * (num % den) < den ∨ (2 * (num % den) = den ∧ num / den % 2 = 0) then num / den else num / den + 1

/-- The magnitude code nearest to `num / den` least subnormals, ties to even, with no upper limit to the exponent. -/
def roundMag (fb num den : Nat) : Nat :=
  let e := Nat.log2 (num / den) - fb
  e * 2 ^ fb + roundHalfEven num (den * 2 ^ e)

/-! ### binary64 -/

/-- The magnitude code of infinity; greater codes are NaNs. -/
def infMag : Nat := 0x7FF0000000000000

/-- 1.0 in least subnormals of binary64. -/
@[irreducible] def one64 : Nat := 2 ^ 1074

def neg? (x : F64) : Bool := decide (2 ^ 63 ≤ x.toNat)

def mag (x : F64) : Nat := x.toNat % 2 ^ 63

def pack (negative : Bool) (m : Nat) : F64 := BitVec.ofNat 64 ((if negative then 2 ^ 63 else 0) + m)

def isNaN (x : F64) : Bool := decide (infMag < mag x)

def isInf (x : F64) : Bool := decide (mag x = infMag)

/-- R16 `isfinite`. -/
def isFinite (x : F64) : Bool := decide (mag x < infMag)

def isZero (x : F64) : Bool := decide (mag x = 0)

/-- A finite number's value, in least subnormals. -/
def value (x : F64) : Int := if neg? x then -(magValue 52 (mag x) : Int) else magValue 52 (mag x)

/-- The place of a non-NaN number in the order of numbers; the two zeros share one place. -/
def ordKey (x : F64) : Int := if neg? x then -(mag x : Int) else mag x

/-- R16's ordered comparisons: false when either side is a NaN. -/
def lt (x y : F64) : Bool := !isNaN x && !isNaN y && decide (ordKey x < ordKey y)

def le (x y : F64) : Bool := !isNaN x && !isNaN y && decide (ordKey x ≤ ordKey y)

/-- The NaN an operation makes: a quiet NaN of free sign and payload (log 11). -/
def qNaN : F64 := 0x7FF8000000000000#64 ||| Config.nanBits

/-- `num / den` least subnormals, rounded once; too large becomes infinity. -/
def round (negative : Bool) (num den : Nat) : F64 := pack negative (min (roundMag 52 num den) infMag)

def negate (x : F64) : F64 := pack (!neg? x) (mag x)

def fabs (x : F64) : F64 := pack false (mag x)

def add (x y : F64) : F64 :=
  if isNaN x || isNaN y then qNaN
  else if isInf x then if isInf y && neg? x != neg? y then qNaN else x
  else if isInf y then y
  else
    let v := value x + value y
    if v = 0 then pack (neg? x && neg? y) 0 else round (decide (v < 0)) v.natAbs 1

def sub (x y : F64) : F64 := add x (negate y)

def mul (x y : F64) : F64 :=
  let s := neg? x != neg? y
  if isNaN x || isNaN y then qNaN
  else if isInf x || isInf y then if isZero x || isZero y then qNaN else pack s infMag
  else round s (magValue 52 (mag x) * magValue 52 (mag y)) one64

def div (x y : F64) : F64 :=
  let s := neg? x != neg? y
  if isNaN x || isNaN y then qNaN
  else if isInf x then if isInf y then qNaN else pack s infMag
  else if isInf y then pack s 0
  else if isZero y then if isZero x then qNaN else pack s infMag
  else round s (magValue 52 (mag x) * one64) (magValue 52 (mag y))

/-- R16 `floor`: roundToIntegralTowardNegative, which is exact. -/
def floor (x : F64) : F64 :=
  if isFinite x then
    let v := value x / (one64 : Int)
    if v = 0 then pack (neg? x) 0 else round (decide (v < 0)) (v.natAbs * one64) 1
  else if isNaN x then qNaN else x

/-- R16 `fmod(x, 1.0)`, which is exact; the result keeps the sign of `x`. -/
def fmod1 (x : F64) : F64 :=
  if isFinite x then round (neg? x) (magValue 52 (mag x) % one64) 1 else qNaN

/-- R16 `max`, for non-NaN operands. -/
def fmax (a b : F64) : F64 := if lt a b then b else a

/-- R16 `min`, for non-NaN operands. R16 writes out `max`'s body and not this one: that equal operands, two zeros of
opposite sign among them, give the first operand is the model's choice (DESIGN CHOICE, log 21). No command uses it. -/
def fmin (a b : F64) : F64 := if lt b a then b else a

/-- The binary64 nearest to a ratio of two naturals; the spec's decimal literals are such ratios. -/
def ofRatio (num den : Nat) : F64 := round false (num * one64) den

/-! ### binary32 -/

def infMag32 : Nat := 0x7F800000

def neg32? (x : F32) : Bool := decide (2 ^ 31 ≤ x.toNat)

def mag32 (x : F32) : Nat := x.toNat % 2 ^ 31

def pack32 (negative : Bool) (m : Nat) : F32 := BitVec.ofNat 32 ((if negative then 2 ^ 31 else 0) + m)

def isNaN32 (x : F32) : Bool := decide (infMag32 < mag32 x)

def isInf32 (x : F32) : Bool := decide (mag32 x = infMag32)

def qNaN32 : F32 := 0x7FC00000#32 ||| Config.nanBits32

/-- The least subnormal of binary32, in least subnormals of binary64. -/
@[irreducible] def tiny32 : Nat := 2 ^ 925

/-- R16 `to_binary32`: one rounding; overflow goes to infinity and a NaN stays a NaN. -/
def toBinary32 (x : F64) : F32 :=
  if isNaN x then qNaN32
  else if isInf x then pack32 (neg? x) infMag32
  else pack32 (neg? x) (min (roundMag 23 (magValue 52 (mag x)) tiny32) infMag32)

/-- R16 `from_binary32`, which is exact. -/
def fromBinary32 (x : F32) : F64 :=
  if isNaN32 x then qNaN
  else if isInf32 x then pack (neg32? x) infMag
  else round (neg32? x) (magValue 23 (mag32 x) * tiny32) 1

end Sys2Proof.Fp
end

