-- ==== Sys2Proof/Machine/Helpers.lean ====
section
/-! DEFINITION. The block's constants (00_scope.md R8, R16) and the helper functions of R17 and of
40_system_and_utils.md R172 to R174. A decimal of the spec is the binary64 nearest to it (R16; log 13);
Tests/Slice0.lean checks each against its decimal. -/

namespace Sys2Proof

/-! ### Numbers the rules write out -/

/-- 0.0 -/
def F.ZERO : F64 := 0x0000000000000000#64
/-- 0.25 -/
def F.QUARTER : F64 := 0x3FD0000000000000#64
/-- 0.5 -/
def F.HALF : F64 := 0x3FE0000000000000#64
/-- 1.0 -/
def F.ONE : F64 := 0x3FF0000000000000#64
/-- -1.0 -/
def F.MINUS_ONE : F64 := 0xBFF0000000000000#64
/-- 2.0 -/
def F.TWO : F64 := 0x4000000000000000#64
/-- 3.0 -/
def F.THREE : F64 := 0x4008000000000000#64
/-- 4.0 -/
def F.FOUR : F64 := 0x4010000000000000#64
/-- 60.0 -/
def F.SIXTY : F64 := 0x404E000000000000#64

/-- R16 `PI` and `TWO_PI`. -/
def PI : F64 := 0x400921FB54442D18#64
def TWO_PI : F64 := 0x401921FB54442D18#64

/-! ### The fixed parameters of R8 -/

/-- 1.0 -/
def SR_MIN : F64 := 0x3FF0000000000000#64
/-- 20.0 -/
def FREQ_MIN : F64 := 0x4034000000000000#64
/-- 20000.0 -/
def FREQ_MAX : F64 := 0x40D3880000000000#64
/-- 0.01 -/
def PW_MIN : F64 := 0x3F847AE147AE147B#64
/-- 0.99 -/
def PW_MAX : F64 := 0x3FEFAE147AE147AE#64
/-- 0.001 -/
def ATTACK_MIN : F64 := 0x3F50624DD2F1A9FC#64
/-- 2.0 -/
def ATTACK_MAX : F64 := 0x4000000000000000#64
/-- 0.001 -/
def DECAY_MIN : F64 := 0x3F50624DD2F1A9FC#64
/-- 2.0 -/
def DECAY_MAX : F64 := 0x4000000000000000#64
/-- 0.0 -/
def SUSTAIN_MIN : F64 := 0x0000000000000000#64
/-- 1.0 -/
def SUSTAIN_MAX : F64 := 0x3FF0000000000000#64
/-- 0.001 -/
def RELEASE_MIN : F64 := 0x3F50624DD2F1A9FC#64
/-- 5.0 -/
def RELEASE_MAX : F64 := 0x4014000000000000#64
/-- 0.005 -/
def ATTACK_FLOOR : F64 := 0x3F747AE147AE147B#64
/-- 0.01 -/
def LFO_RATE_MIN : F64 := 0x3F847AE147AE147B#64
/-- 20.0 -/
def LFO_RATE_MAX : F64 := 0x4034000000000000#64
/-- 20.0 -/
def BPM_MIN : F64 := 0x4034000000000000#64
/-- 300.0 -/
def BPM_MAX : F64 := 0x4072C00000000000#64
/-- 0.0 -/
def DEPTH_MIN : F64 := 0x0000000000000000#64
/-- 1.0 -/
def DEPTH_MAX : F64 := 0x3FF0000000000000#64
/-- 20.0 -/
def CUTOFF_MIN : F64 := 0x4034000000000000#64
/-- 12000.0 -/
def CUTOFF_MAX : F64 := 0x40C7700000000000#64
/-- 0.0 -/
def RES_MIN : F64 := 0x0000000000000000#64
/-- 1.0 -/
def RES_MAX : F64 := 0x3FF0000000000000#64
/-- 0.45 -/
def FC_MAX_RATIO : F64 := 0x3FDCCCCCCCCCCCCD#64
/-- 3.5 -/
def FB_SCALE : F64 := 0x400C000000000000#64

/-- The range of a velocity (R56, R255). -/
def VELOCITY_MIN : F64 := 0x0000000000000000#64
def VELOCITY_MAX : F64 := 0x3FF0000000000000#64

/-- The default of `CLAMP_BOUND`, 10.0 (R8). -/
def CLAMP_BOUND_DEFAULT : F64 := 0x4024000000000000#64

/-- The instance counts (R7, R8, R133). -/
def N_SYS : Nat := 1
def N_OSC : Nat := 3
def N_ENV : Nat := 1
def N_LFO : Nat := 2
def N_FILT : Nat := 1

/-- `SYNC_BEATS[0..6]` (R8, R303). -/
def SYNC_BEATS (d : SyncDiv) : F64 :=
  match d with
  | 0 => 0x3FD0000000000000#64
  | 1 => 0x3FE0000000000000#64
  | 2 => 0x3FF0000000000000#64
  | 3 => 0x4000000000000000#64
  | 4 => 0x4010000000000000#64
  | 5 => 0x4020000000000000#64
  | 6 => 0x4030000000000000#64

/-! ### Helper functions -/

/-- R17, R172 `clamp(v, lo, hi)`, for a non-NaN `v`. -/
def clamp (v lo hi : F64) : F64 := if Fp.lt v lo then lo else if Fp.lt hi v then hi else v

/-- R173 `polyBLEP(t, dt)`, in the grouping the rule writes. -/
def polyBLEP (t dt : F64) : F64 :=
  if Fp.lt t dt then
    let u := Fp.div t dt
    Fp.sub (Fp.sub (Fp.add u u) (Fp.mul u u)) F.ONE
  else if Fp.lt (Fp.sub F.ONE dt) t then
    let u := Fp.div (Fp.sub t F.ONE) dt
    Fp.add (Fp.add (Fp.mul u u) (Fp.add u u)) F.ONE
  else F.ZERO

/-- R174 `wrap(p)`. -/
def wrap (p : F64) : F64 := if Fp.le F.ONE p then Fp.sub p (Fp.floor p) else p

end Sys2Proof
end

