-- ==== Sys2Proof/Machine/Params.lean ====
section
/-! DEFINITION. The parameters and configuration functions of 00_scope.md R8 and R12, and the draws of R11: the bodiless
constants of Config, each held to the limits the spec sets. A value that breaks its limit is replaced by a legal one, so
the replacement is reached by no legal choice and every legal choice is kept. -/

namespace Sys2Proof

/-- `v` where it is legal, else a legal value in its place. -/
def confine (legal : F64 → Bool) (other v : F64) : F64 := if legal v then v else other

/-- Is `v` a number of the closed range? -/
def inRange (lo hi v : F64) : Bool := Fp.le lo v && Fp.le v hi

/-! ### Configuration functions (R12) -/

/-- `SIN(+0) = +0`; finite and within 1 of zero on finite arguments; NaN on NaN and infinities. -/
def SIN (x : F64) : F64 :=
  if x = F.ZERO then F.ZERO
  else if Fp.isFinite x then confine (inRange F.MINUS_ONE F.ONE) F.ZERO (Config.sinRaw x)
  else Fp.qNaN

/-- The greatest argument the block gives `TAN`: `PI · 0.45` as the block computes it (R12, R353). -/
def TAN_ARG_MAX : F64 := Fp.mul PI FC_MAX_RATIO

/-- `TAN(+0) = +0`; finite and positive on `(0, 0.45·π]`; any value elsewhere. -/
def TAN (x : F64) : F64 :=
  if x = F.ZERO then F.ZERO
  else if Fp.lt F.ZERO x && Fp.le x TAN_ARG_MAX then
    confine (fun y => Fp.isFinite y && Fp.lt F.ZERO y) F.ONE (Config.tanRaw x)
  else Config.tanRaw x

/-- `TANH` on a positive finite argument: any number within 1 of zero. -/
def tanhPositive (x : F64) : F64 := confine (inRange F.MINUS_ONE F.ONE) F.ONE (Config.tanhRaw x)

/-- `TANH(±0) = ±0`, `TANH(±Inf) = ±1`, NaN on NaN; odd and within 1 of zero on finite arguments. -/
def TANH (x : F64) : F64 :=
  if Fp.isNaN x then Fp.qNaN
  else if Fp.isZero x then x
  else if Fp.isInf x then (if Fp.neg? x then F.MINUS_ONE else F.ONE)
  else if Fp.neg? x then Fp.negate (tanhPositive (Fp.negate x))
  else tanhPositive x

/-- `RES_COMP(res, ratio)` (R8, R362): finite everywhere, at least 1 for `res` in [0, 1] and `ratio` in (0, 0.45],
and 1 at `res = 0.0`. -/
def RES_COMP (res ratio : F64) : F64 :=
  if res = F.ZERO then F.ONE
  else if inRange RES_MIN RES_MAX res && Fp.lt F.ZERO ratio && Fp.le ratio FC_MAX_RATIO then
    confine (fun y => Fp.isFinite y && Fp.le F.ONE y) F.ONE (Config.resCompRaw res ratio)
  else confine Fp.isFinite F.ONE (Config.resCompRaw res ratio)

/-! ### Parameters with a default (R8) -/

/-- Is `b` fit to bound a stage and a returned sample: a positive finite number that rounding to binary32 does not make
greater? With a bound that rounding made greater, a sample at the bound would be returned outside it, against R364 item 1
(DESIGN CHOICE, log 9). -/
def isClampBound (b : F64) : Bool :=
  Fp.isFinite b && Fp.lt F.ZERO b && Fp.le (Fp.fromBinary32 (Fp.toBinary32 b)) b

/-- `CLAMP_BOUND`: any bound that is fit, else the default (R8; log 9). -/
def CLAMP_BOUND : F64 := confine isClampBound CLAMP_BOUND_DEFAULT Config.clampBoundRaw

/-- `TRI_BLEP_SIGN` for the parameter's two values: -1 (the default) and +1. -/
def triBlepSign (positive : Bool) : F64 := if positive then F.ONE else F.MINUS_ONE

def TRI_BLEP_SIGN : F64 := triBlepSign Config.triBlepPositive

/-! ### Draws (R11) -/

/-- Is `p` a phase: a number of [0, 1) (R76)? -/
def isPhase (p : F64) : Bool := Fp.le F.ZERO p && Fp.lt p F.ONE

/-- The n-th draw as `draw_phase()`: any number of [0, 1). -/
def phaseDraw (n : Nat) : F64 := confine isPhase F.ZERO (Config.phaseDrawRaw n)

/-- The n-th draw as `draw_held()`: any number of [-1, 1]. -/
def heldDraw (n : Nat) : F64 := confine (inRange F.MINUS_ONE F.ONE) F.ZERO (Config.heldDrawRaw n)

/-! ### `RESET_PARAMS` (R8, R81, R454) -/

/-- A parameter register's power-on value: any number of its legal range. -/
def resetParam (lo hi raw : F64) : F64 := confine (inRange lo hi) lo raw

end Sys2Proof
end

