-- ==== Sys2Proof/Machine/State.lean ====
section
/-! DEFINITION. The block's state as plain data (10_state.md R40 to R75), why a step can stop, and the power-on state
(10_state.md R81, 70_reset_and_hazards.md R450). -/

namespace Sys2Proof.Machine

/-- One oscillator's registers (R45 to R48). -/
structure OscRegs where
  freq  : F64
  wave  : OscWave
  pw    : F64
  phase : F64
deriving DecidableEq, Repr

/-- One envelope's registers (R50 to R57). -/
structure EnvRegs where
  attack      : F64
  decay       : F64
  sustain     : F64
  release     : F64
  state       : EnvState
  level       : F64
  velocity    : F64
  releaseRate : F64
deriving DecidableEq, Repr

/-- One LFO's registers (R60 to R68). -/
structure LfoRegs where
  wave      : LfoWave
  rate      : F64
  rateMode  : RateMode
  syncDiv   : SyncDiv
  bpm       : F64
  depth     : F64
  phase     : F64
  lastPhase : F64
  held      : F64
deriving DecidableEq, Repr

/-- The four ladder stages of a filter (R73). -/
structure Stages where
  s0 : F64
  s1 : F64
  s2 : F64
  s3 : F64
deriving DecidableEq, Repr

/-- One filter's registers (R70 to R75). -/
structure FiltRegs where
  mode   : FiltMode
  cutoff : F64
  res    : F64
  s      : Stages
  g      : F64
  k      : F64
  dirty  : Bool
deriving DecidableEq, Repr

/-- The state of one block. The last three fields are the model's own: how many draws were made (R11; log 6), how many
power cycles came before (R454; log 3), and what the host is going to do next, oldest first (R9, R41; log 1). -/
structure State where
  sr        : F64
  status    : BitVec 32
  statusCmd : CmdWord
  res       : BitVec 64
  resValid  : Bool
  osc       : Vector OscRegs 3
  env       : Vector EnvRegs 1
  lfo       : Vector LfoRegs 2
  filt      : Vector FiltRegs 1
  draws     : Nat
  run       : Nat
  host      : List HostInput
deriving DecidableEq, Repr

/-- No step of this block stops the model with a fault: every fault the spec names is recorded in `STATUS` and leaves a
next state, the stuck block (R400, R401; log 2), so the type has no value. Nothing raises one; safe. -/
inductive Fault where
deriving DecidableEq, Repr

/-- Why a step has no meaning. -/
inductive Refusal where
  /-- An instruction that has no meaning yet: raised only by an arm of `exec` that rejects it by name, and by none now.
  Safe: the step stops. -/
  | notModelled (mnemonic : String)
deriving DecidableEq, Repr

/-- An oscillator at power-on (R81): `run` is the run's number, `i` the instance's. -/
def OscRegs.powerOn (run i : Nat) : OscRegs where
  freq  := resetParam FREQ_MIN FREQ_MAX (Config.oscFreqRaw run i)
  wave  := Config.oscWave run i
  pw    := resetParam PW_MIN PW_MAX (Config.oscPwRaw run i)
  phase := F.ZERO

/-- An envelope at power-on (R81). -/
def EnvRegs.powerOn (run i : Nat) : EnvRegs where
  attack      := resetParam ATTACK_MIN ATTACK_MAX (Config.envAttackRaw run i)
  decay       := resetParam DECAY_MIN DECAY_MAX (Config.envDecayRaw run i)
  sustain     := resetParam SUSTAIN_MIN SUSTAIN_MAX (Config.envSustainRaw run i)
  release     := resetParam RELEASE_MIN RELEASE_MAX (Config.envReleaseRaw run i)
  state       := .idle
  level       := F.ZERO
  velocity    := F.ZERO
  releaseRate := F.ZERO

/-- An LFO at power-on, its held value the draw numbered `draw` (R81, R11). -/
def LfoRegs.powerOn (run i draw : Nat) : LfoRegs where
  wave      := Config.lfoWave run i
  rate      := resetParam LFO_RATE_MIN LFO_RATE_MAX (Config.lfoRateRaw run i)
  rateMode  := Config.lfoRateMode run i
  syncDiv   := Config.lfoSyncDiv run i
  bpm       := resetParam BPM_MIN BPM_MAX (Config.lfoBpmRaw run i)
  depth     := resetParam DEPTH_MIN DEPTH_MAX (Config.lfoDepthRaw run i)
  phase     := F.ZERO
  lastPhase := F.ZERO
  held      := heldDraw draw

/-- The stages after a reset (R81, R363). -/
def Stages.zero : Stages := ⟨F.ZERO, F.ZERO, F.ZERO, F.ZERO⟩

/-- A filter at power-on (R81); `g` and `k` hold no value of the spec's (R74; log 4). -/
def FiltRegs.powerOn (run i : Nat) : FiltRegs where
  mode   := Config.filtMode run i
  cutoff := resetParam CUTOFF_MIN CUTOFF_MAX (Config.filtCutoffRaw run i)
  res    := resetParam RES_MIN RES_MAX (Config.filtResRaw run i)
  s      := Stages.zero
  g      := Config.filtGRaw run i
  k      := Config.filtKRaw run i
  dirty  := true

/-- The power-on state (R81, R450) of run number `run`, after `draws` draws, with `host` still to come. Two draws are
made, one for each LFO's held value. -/
def State.powerOn (run draws : Nat) (host : List HostInput) : State where
  sr        := Config.srRaw run
  status    := 0
  statusCmd := 0
  res       := 0
  resValid  := false
  osc       := #v[OscRegs.powerOn run 0, OscRegs.powerOn run 1, OscRegs.powerOn run 2]
  env       := #v[EnvRegs.powerOn run 0]
  lfo       := #v[LfoRegs.powerOn run 0 draws, LfoRegs.powerOn run 1 (draws + 1)]
  filt      := #v[FiltRegs.powerOn run 0]
  draws     := draws + 2
  run       := run
  host      := host

/-- The machine right after reset, with no host input to come. -/
def State.reset : State := State.powerOn 0 0 []

end Sys2Proof.Machine
end

