-- ==== Sys2Proof/Machine/Ops.lean ====
section
/-! DEFINITION. The named operations on the block's state: the status word, recording a fault, the result port, the
register files and the draws. The block has no memory to operate on (20_memory.md R100). -/

namespace Sys2Proof.Machine

/-- The outcome of a command. -/
abbrev Result := Host.Outcome State Fault Refusal

/-! ### Status and faults -/

def State.faulted (s : State) : Bool := statusFaulted s.status

def State.srValid (s : State) : Bool := statusSrValid s.status

/-- Recording a fault (60_exceptions.md R400), the block's whole fault entry (R408): `STATUS` and `STATUS_CMD` take the
code and the command word, and `RES_VALID` is cleared; no other register is written. There is no return from it: only a
power cycle clears it (R401, R409). -/
def State.raise (s : State) (code : FaultCode) (cmd : CmdWord) : State :=
  { s with status := statusRecordFault code s.status, statusCmd := cmd, resValid := false }

/-- `raise Fault(code)` (R10, R17): the command ends and the next state has the fault recorded (log 2). -/
def raiseFault (code : FaultCode) (cmd : CmdWord) (s : State) : Result := .next (s.raise code cmd)

/-- `require_sr()` (R17, R403), then the rest of the command. -/
def requireSr (cmd : CmdWord) (s : State) (rest : Result) : Result :=
  if s.srValid then rest else raiseFault .notConfigured cmd s

/-! ### The result port (R44) -/

/-- A command that produces no result clears `RES_VALID` and keeps `RES`. -/
def State.noResult (s : State) : State := { s with resValid := false }

/-- A command that produces a result of 64 bits (R140). -/
def State.returns (s : State) (v : BitVec 64) : State := { s with res := v, resValid := true }

/-- A binary32 result, in `RES[31:0]` with `RES[63:32] = 0` (R44, R140): the value is converted once. -/
def State.returnsSample (s : State) (y : F64) : State := s.returns ((Fp.toBinary32 y).setWidth 64)

/-! ### The register files -/

def State.oscAt (s : State) (i : Fin 3) : OscRegs := s.osc[i]

def State.setOsc (s : State) (i : Fin 3) (r : OscRegs) : State := { s with osc := s.osc.set i r }

def State.envAt (s : State) (i : Fin 1) : EnvRegs := s.env[i]

def State.setEnv (s : State) (i : Fin 1) (r : EnvRegs) : State := { s with env := s.env.set i r }

def State.lfoAt (s : State) (i : Fin 2) : LfoRegs := s.lfo[i]

def State.setLfo (s : State) (i : Fin 2) (r : LfoRegs) : State := { s with lfo := s.lfo.set i r }

def State.filtAt (s : State) (i : Fin 1) : FiltRegs := s.filt[i]

def State.setFilt (s : State) (i : Fin 1) (r : FiltRegs) : State := { s with filt := s.filt.set i r }

/-- `SYS.SETSR`'s writes (R175): `SR`, `SR_VALID` and every filter's `dirty`. -/
def State.setSr (s : State) (v : F64) : State :=
  { s with
    sr := v
    status := statusSetSrValid s.status
    filt := s.filt.map fun r => { r with dirty := true } }

/-! ### Draws (R11) -/

/-- The values `draw_phase()` and `draw_held()` would give now. -/
def State.nextPhaseDraw (s : State) : F64 := phaseDraw s.draws

def State.nextHeldDraw (s : State) : F64 := heldDraw s.draws

/-- The next draw is a fresh one. -/
def State.drawn (s : State) : State := { s with draws := s.draws + 1 }

end Sys2Proof.Machine
end

