-- ==== Sys2Proof/Machine/Operands.lean ====
section
/-! DEFINITION. The operand forms of a command: the instance number (30_encoding.md R133, R136), the enumeration
immediate (R134, R141), the f64 operand (40_system_and_utils.md R171) and the f32 sample (R138). -/

namespace Sys2Proof.Machine

/-- A command to instance `idx` of a unit with `n` instances: a missing instance makes it the silent no-op (R136). -/
def onInstance (n : Nat) (idx : BitVec 4) (s : State) (rest : Fin n → Result) : Result :=
  if h : idx.toNat < n then rest ⟨idx.toNat, h⟩ else .next s.noResult

/-- A value-setter's operand check (R171): a NaN is a bad operand. -/
def numberOperand (cmd : CmdWord) (v : F64) (s : State) (rest : Result) : Result :=
  if Fp.isNaN v then raiseFault .badOperand cmd s else rest

/-- An enumeration immediate: a value above the largest enumerator is illegal, before any other check (R135, R137). -/
def selOperand {α : Type} (cmd : CmdWord) (meaning : Option α) (s : State) (rest : α → Result) : Result :=
  match meaning with
  | some a => rest a
  | none => raiseFault .illegalCommand cmd s

/-- `SYS.SETSR`'s operand check (R175): finite and at least `SR_MIN`. -/
def isSampleRate (v : F64) : Bool := Fp.isFinite v && Fp.le SR_MIN v

/-! ### Enumerations (R141) -/

def oscWaveOfSel (sel : BitVec 4) : Option OscWave :=
  match sel.toNat with
  | 0 => some .sine
  | 1 => some .saw
  | 2 => some .square
  | 3 => some .triangle
  | _ => none

def lfoWaveOfSel (sel : BitVec 4) : Option LfoWave :=
  match sel.toNat with
  | 0 => some .sine
  | 1 => some .triangle
  | 2 => some .square
  | 3 => some .sawtooth
  | 4 => some .sampleAndHold
  | _ => none

def rateModeOfSel (sel : BitVec 4) : Option RateMode :=
  match sel.toNat with
  | 0 => some .free
  | 1 => some .sync
  | _ => none

def syncDivOfSel (sel : BitVec 4) : Option SyncDiv :=
  if h : sel.toNat < 7 then some ⟨sel.toNat, h⟩ else none

def filtModeOfSel (sel : BitVec 4) : Option FiltMode :=
  match sel.toNat with
  | 0 => some .lowPass
  | 1 => some .bandPass
  | 2 => some .highPass
  | _ => none

/-- The number of an envelope state, as `ENV.GETSTATE` returns it. -/
def envStateNumber (e : EnvState) : BitVec 64 :=
  match e with
  | .idle => 0
  | .attack => 1
  | .decay => 2
  | .sustain => 3
  | .release => 4

end Sys2Proof.Machine
end

