-- ==== Sys2Proof/Machine/Env.lean ====
section
/-! DEFINITION. The envelope commands (42_envelope.md R250 to R267). -/

namespace Sys2Proof.Machine

/-! ### Rates (R254, R256) and the step of each state (R258 to R262) -/

/-- R254 `attackRate`. -/
def attackRate (sr : F64) (r : EnvRegs) : F64 := Fp.div F.ONE (Fp.mul (Fp.fmax r.attack ATTACK_FLOOR) sr)

/-- R254 `decayRate`. -/
def decayRate (sr : F64) (r : EnvRegs) : F64 := Fp.div (Fp.sub F.ONE r.sustain) (Fp.mul r.decay sr)

/-- The rate `ENV.NOTEOFF` latches (R256). -/
def latchedReleaseRate (sr : F64) (r : EnvRegs) : F64 := Fp.div r.level (Fp.mul r.release sr)

/-- R259. -/
def EnvRegs.attackStep (sr : F64) (r : EnvRegs) : EnvRegs :=
  let level := Fp.add r.level (attackRate sr r)
  if Fp.le F.ONE level then { r with level := F.ONE, state := .decay } else { r with level := level }

/-- R260. -/
def EnvRegs.decayStep (sr : F64) (r : EnvRegs) : EnvRegs :=
  let level := Fp.sub r.level (decayRate sr r)
  if Fp.le level r.sustain then { r with level := r.sustain, state := .sustain } else { r with level := level }

/-- R261; a `sustain` of -0.0 is stored as it is (log 20). -/
def EnvRegs.sustainStep (r : EnvRegs) : EnvRegs := { r with level := r.sustain }

/-- R262; the level this stores is never -0.0 (log 20). -/
def EnvRegs.releaseStep (r : EnvRegs) : EnvRegs :=
  let level := Fp.sub r.level r.releaseRate
  if Fp.le level F.ZERO then { r with level := F.ZERO, state := .idle } else { r with level := level }

/-- One sample of the state machine (R257); Idle changes nothing (R258). -/
def EnvRegs.tick (sr : F64) (r : EnvRegs) : EnvRegs :=
  match r.state with
  | .idle => r
  | .attack => r.attackStep sr
  | .decay => r.decayStep sr
  | .sustain => r.sustainStep
  | .release => r.releaseStep

/-- The output of a tick (R263), from the registers after its step. Where `velocity` is -0.0, as R17 lets `ENV.NOTEON`
store it, the product is -0.0 in Idle too, where R258's derived sentence says +0.0: following the formula is the model's
choice (DEDUCED, log 20). -/
def EnvRegs.output (r : EnvRegs) : F64 := Fp.mul r.level r.velocity

/-! ### Commands -/

/-- R250 `ENV.SETATTACK`. -/
def execEnvSetAttack (idx : BitVec 4) (v : F64) (s : State) : Result :=
  onInstance 1 idx s fun i =>
    numberOperand (Instr.envSetAttack idx v).cmdWord v s <|
      .next (s.setEnv i { s.envAt i with attack := clamp v ATTACK_MIN ATTACK_MAX }).noResult

/-- R251 `ENV.SETDECAY`. -/
def execEnvSetDecay (idx : BitVec 4) (v : F64) (s : State) : Result :=
  onInstance 1 idx s fun i =>
    numberOperand (Instr.envSetDecay idx v).cmdWord v s <|
      .next (s.setEnv i { s.envAt i with decay := clamp v DECAY_MIN DECAY_MAX }).noResult

/-- R252 `ENV.SETSUSTAIN`. -/
def execEnvSetSustain (idx : BitVec 4) (v : F64) (s : State) : Result :=
  onInstance 1 idx s fun i =>
    numberOperand (Instr.envSetSustain idx v).cmdWord v s <|
      .next (s.setEnv i { s.envAt i with sustain := clamp v SUSTAIN_MIN SUSTAIN_MAX }).noResult

/-- R253 `ENV.SETRELEASE`. -/
def execEnvSetRelease (idx : BitVec 4) (v : F64) (s : State) : Result :=
  onInstance 1 idx s fun i =>
    numberOperand (Instr.envSetRelease idx v).cmdWord v s <|
      .next (s.setEnv i { s.envAt i with release := clamp v RELEASE_MIN RELEASE_MAX }).noResult

/-- R255 `ENV.NOTEON`: `level` is kept. -/
def execEnvNoteOn (idx : BitVec 4) (v : F64) (s : State) : Result :=
  onInstance 1 idx s fun i =>
    numberOperand (Instr.envNoteOn idx v).cmdWord v s <|
      .next (s.setEnv i
        { s.envAt i with velocity := clamp v VELOCITY_MIN VELOCITY_MAX, state := .attack }).noResult

/-- R256 `ENV.NOTEOFF`. -/
def execEnvNoteOff (idx : BitVec 4) (s : State) : Result :=
  onInstance 1 idx s fun i =>
    requireSr (Instr.envNoteOff idx).cmdWord s <|
      .next (s.setEnv i
        { s.envAt i with releaseRate := latchedReleaseRate s.sr (s.envAt i), state := .release }).noResult

/-- R257 `ENV.TICK`. -/
def execEnvTick (idx : BitVec 4) (s : State) : Result :=
  onInstance 1 idx s fun i =>
    requireSr (Instr.envTick idx).cmdWord s <|
      let r := (s.envAt i).tick s.sr
      .next ((s.setEnv i r).returnsSample r.output)

/-- R264 `ENV.RESET`. -/
def execEnvReset (idx : BitVec 4) (s : State) : Result :=
  onInstance 1 idx s fun i =>
    .next (s.setEnv i { s.envAt i with state := .idle, level := F.ZERO }).noResult

/-- R265 `ENV.GETSTATE`. -/
def execEnvGetState (idx : BitVec 4) (s : State) : Result :=
  onInstance 1 idx s fun i => .next (s.returns (envStateNumber (s.envAt i).state))

/-- R266 `ENV.ISACTIVE`. -/
def execEnvIsActive (idx : BitVec 4) (s : State) : Result :=
  onInstance 1 idx s fun i => .next (s.returns (if (s.envAt i).state = .idle then 0 else 1))

/-- R267 `ENV.GETLEVEL`. -/
def execEnvGetLevel (idx : BitVec 4) (s : State) : Result :=
  onInstance 1 idx s fun i => .next (s.returns (s.envAt i).level)

end Sys2Proof.Machine
end

