-- ==== Sys2Proof/Machine/Filt.lean ====
section
/-! DEFINITION. The ladder filter commands (44_filter.md R350 to R363). -/

namespace Sys2Proof.Machine

/-! ### Coefficients (R353, R356) -/

/-- The clamped cutoff ratio of R353 and R362. -/
def filtRatio (cutoff sr : F64) : F64 := clamp (Fp.div cutoff sr) F.ZERO FC_MAX_RATIO

/-- `coef(cutoff, res, SR)`'s `g` (R353). -/
def filtG (cutoff sr : F64) : F64 := TAN (Fp.mul PI (filtRatio cutoff sr))

/-- `coef(cutoff, res, SR)`'s `k` (R353). -/
def filtK (res : F64) : F64 := Fp.mul res FB_SCALE

/-- The refresh at the start of a tick (R356). -/
def FiltRegs.refresh (sr : F64) (r : FiltRegs) : FiltRegs :=
  if r.dirty then { r with g := filtG r.cutoff sr, k := filtK r.res, dirty := false } else r

/-! ### One sample -/

/-- The unsaturated drive `v` (R357). -/
def FiltRegs.drive (r : FiltRegs) (x : F64) : F64 := Fp.sub x (Fp.mul r.s.s3 r.k)

/-- One one-pole stage (R358). -/
def stageStep (g old input : F64) : F64 := Fp.add old (Fp.mul g (Fp.sub input old))

/-- The cascade (R358): each stage reads the value its predecessor computed in this tick. -/
def Stages.cascade (s : Stages) (g u : F64) : Stages :=
  let t0 := stageStep g s.s0 u
  let t1 := stageStep g s.s1 t0
  let t2 := stageStep g s.s2 t1
  let t3 := stageStep g s.s3 t2
  ⟨t0, t1, t2, t3⟩

/-- No stage is a NaN or an infinity (R359). -/
def Stages.isFinite (t : Stages) : Bool :=
  Fp.isFinite t.s0 && Fp.isFinite t.s1 && Fp.isFinite t.s2 && Fp.isFinite t.s3

/-- `clamp(v, -bound, bound)` (R360, R362). -/
def clampTo (bound v : F64) : F64 := clamp v (Fp.negate bound) bound

/-- The stage clamp (R360). -/
def Stages.clampTo (bound : F64) (t : Stages) : Stages :=
  ⟨Machine.clampTo bound t.s0, Machine.clampTo bound t.s1, Machine.clampTo bound t.s2, Machine.clampTo bound t.s3⟩

/-- `select(mode, s, v, u)` (R361), for the values of `BP_VARIANT` and `HP_SRC`. -/
def filtSelect (bp : BpVariant) (hp : HpSrc) (mode : FiltMode) (s : Stages) (v u : F64) : F64 :=
  match mode with
  | .lowPass => s.s3
  | .bandPass =>
    match bp with
    | .s1MinusS4 => Fp.sub s.s0 s.s3
    | .s2 => s.s1
  | .highPass =>
    match hp with
    | .v => Fp.sub v s.s3
    | .u => Fp.sub u s.s3

/-- The output clamp (R362), for the compensation gain. -/
def filtOutput (bound gain y : F64) : F64 := clampTo bound (Fp.mul y gain)

/-- The registers and the output after one sample (R355), from registers that need no refresh. -/
def FiltRegs.sample (sr x : F64) (r : FiltRegs) : FiltRegs × F64 :=
  let v := r.drive x
  let u := TANH v
  let t := r.s.cascade r.g u
  if t.isFinite then
    let s := t.clampTo CLAMP_BOUND
    let y := filtSelect Config.bpVariant Config.hpSrc r.mode s v u
    ({ r with s := s }, filtOutput CLAMP_BOUND (RES_COMP r.res (filtRatio r.cutoff sr)) y)
  else ({ r with s := Stages.zero }, F.ZERO)

/-! ### Commands -/

/-- R350 `FILT.SETMODE`. -/
def execFiltSetMode (idx : BitVec 4) (sel : BitVec 4) (s : State) : Result :=
  selOperand (Instr.filtSetMode idx sel).cmdWord (filtModeOfSel sel) s fun m =>
    onInstance 1 idx s fun i => .next (s.setFilt i { s.filtAt i with mode := m }).noResult

/-- R351 `FILT.SETCUTOFF`. -/
def execFiltSetCutoff (idx : BitVec 4) (v : F64) (s : State) : Result :=
  onInstance 1 idx s fun i =>
    numberOperand (Instr.filtSetCutoff idx v).cmdWord v s <|
      .next (s.setFilt i { s.filtAt i with cutoff := clamp v CUTOFF_MIN CUTOFF_MAX, dirty := true }).noResult

/-- R352 `FILT.SETRES`. -/
def execFiltSetRes (idx : BitVec 4) (v : F64) (s : State) : Result :=
  onInstance 1 idx s fun i =>
    numberOperand (Instr.filtSetRes idx v).cmdWord v s <|
      .next (s.setFilt i { s.filtAt i with res := clamp v RES_MIN RES_MAX, dirty := true }).noResult

/-- R355 `FILT.TICK`. -/
def execFiltTick (idx : BitVec 4) (x : F32) (s : State) : Result :=
  onInstance 1 idx s fun i =>
    requireSr (Instr.filtTick idx x).cmdWord s <|
      let out := ((s.filtAt i).refresh s.sr).sample s.sr (Fp.fromBinary32 x)
      .next ((s.setFilt i out.1).returnsSample out.2)

/-- R363 `FILT.RESET`. -/
def execFiltReset (idx : BitVec 4) (s : State) : Result :=
  onInstance 1 idx s fun i => .next (s.setFilt i { s.filtAt i with s := Stages.zero }).noResult

end Sys2Proof.Machine
end

