-- ==== Sys2Proof/Machine/Lfo.lean ====
section
/-! DEFINITION. The LFO commands (43_lfo.md R300 to R310). -/

namespace Sys2Proof.Machine

/-! ### Rate, shape and advance -/

/-- R306 `effRate`. -/
def lfoEffRate (r : LfoRegs) : F64 :=
  match r.rateMode with
  | .free => r.rate
  | .sync => Fp.div (Fp.div r.bpm F.SIXTY) (SYNC_BEATS r.syncDiv)

/-- R306 `inc`. -/
def lfoIncrement (sr : F64) (r : LfoRegs) : F64 := Fp.div (lfoEffRate r) sr

/-- R307 `shape(wave, p, held)`. -/
def lfoShape (wave : LfoWave) (p held : F64) : F64 :=
  match wave with
  | .sine => SIN (Fp.mul TWO_PI p)
  | .triangle => if Fp.lt p F.HALF then Fp.sub (Fp.mul F.FOUR p) F.ONE else Fp.sub F.THREE (Fp.mul F.FOUR p)
  | .square => if Fp.lt p F.HALF then F.ONE else F.MINUS_ONE
  | .sawtooth => Fp.sub (Fp.mul F.TWO p) F.ONE
  | .sampleAndHold => held

/-- The value a TICK or PEEK returns from the registers (R308, R309). Where `depth` is -0.0 the product's sign is the
formula's, also right after `LFO.RESET`, where R310's example says +0.0 (DEDUCED, log 20). -/
def LfoRegs.output (r : LfoRegs) : F64 := Fp.mul (lfoShape r.wave r.phase r.held) r.depth

/-- The phase advance of R308, before any redraw. -/
def LfoRegs.advance (r : LfoRegs) (inc : F64) : LfoRegs :=
  { r with phase := wrap (Fp.add r.phase inc), lastPhase := r.phase }

/-- R308's wraparound detection, after the advance. -/
def LfoRegs.wrapped (r : LfoRegs) : Bool := Fp.lt r.phase r.lastPhase

/-! ### Commands -/

/-- R300 `LFO.SETWAVE`. -/
def execLfoSetWave (idx : BitVec 4) (sel : BitVec 4) (s : State) : Result :=
  selOperand (Instr.lfoSetWave idx sel).cmdWord (lfoWaveOfSel sel) s fun w =>
    onInstance 2 idx s fun i => .next (s.setLfo i { s.lfoAt i with wave := w }).noResult

/-- R301 `LFO.SETRATE`. -/
def execLfoSetRate (idx : BitVec 4) (v : F64) (s : State) : Result :=
  onInstance 2 idx s fun i =>
    numberOperand (Instr.lfoSetRate idx v).cmdWord v s <|
      .next (s.setLfo i { s.lfoAt i with rate := clamp v LFO_RATE_MIN LFO_RATE_MAX }).noResult

/-- R302 `LFO.SETRATEMODE`. -/
def execLfoSetRateMode (idx : BitVec 4) (sel : BitVec 4) (s : State) : Result :=
  selOperand (Instr.lfoSetRateMode idx sel).cmdWord (rateModeOfSel sel) s fun m =>
    onInstance 2 idx s fun i => .next (s.setLfo i { s.lfoAt i with rateMode := m }).noResult

/-- R303 `LFO.SETSYNCDIV`. -/
def execLfoSetSyncDiv (idx : BitVec 4) (sel : BitVec 4) (s : State) : Result :=
  selOperand (Instr.lfoSetSyncDiv idx sel).cmdWord (syncDivOfSel sel) s fun d =>
    onInstance 2 idx s fun i => .next (s.setLfo i { s.lfoAt i with syncDiv := d }).noResult

/-- R304 `LFO.SETBPM`. -/
def execLfoSetBpm (idx : BitVec 4) (v : F64) (s : State) : Result :=
  onInstance 2 idx s fun i =>
    numberOperand (Instr.lfoSetBpm idx v).cmdWord v s <|
      .next (s.setLfo i { s.lfoAt i with bpm := clamp v BPM_MIN BPM_MAX }).noResult

/-- R305 `LFO.SETDEPTH`. -/
def execLfoSetDepth (idx : BitVec 4) (v : F64) (s : State) : Result :=
  onInstance 2 idx s fun i =>
    numberOperand (Instr.lfoSetDepth idx v).cmdWord v s <|
      .next (s.setLfo i { s.lfoAt i with depth := clamp v DEPTH_MIN DEPTH_MAX }).noResult

/-- R308 `LFO.TICK`: `held` is redrawn on a detected wraparound, whatever the shape. -/
def execLfoTick (idx : BitVec 4) (s : State) : Result :=
  onInstance 2 idx s fun i =>
    requireSr (Instr.lfoTick idx).cmdWord s <|
      let r := (s.lfoAt i).advance (lfoIncrement s.sr (s.lfoAt i))
      if r.wrapped then
        let r' := { r with held := s.nextHeldDraw }
        .next ((s.setLfo i r').drawn.returnsSample r'.output)
      else .next ((s.setLfo i r).returnsSample r.output)

/-- R309 `LFO.PEEK`. -/
def execLfoPeek (idx : BitVec 4) (s : State) : Result :=
  onInstance 2 idx s fun i => .next (s.returnsSample (s.lfoAt i).output)

/-- R310 `LFO.RESET`. -/
def execLfoReset (idx : BitVec 4) (s : State) : Result :=
  onInstance 2 idx s fun i =>
    .next (s.setLfo i
      { s.lfoAt i with phase := F.ZERO, lastPhase := F.ZERO, held := s.nextHeldDraw }).drawn.noResult

end Sys2Proof.Machine
end

