-- ==== Sys2Proof/Machine/Osc.lean ====
section
/-! DEFINITION. The oscillator commands (41_oscillator.md R201 to R212). -/

namespace Sys2Proof.Machine

/-! ### Waveforms -/

/-- R205. -/
def sineValue (p : F64) : F64 := SIN (Fp.mul TWO_PI p)

/-- R206. -/
def sawValue (p dt : F64) : F64 := Fp.sub (Fp.sub (Fp.mul F.TWO p) F.ONE) (polyBLEP p dt)

/-- R207. -/
def squareValue (p dt pw : F64) : F64 :=
  let naive := if Fp.lt p pw then F.ONE else F.MINUS_ONE
  let t2 := Fp.fmod1 (Fp.add p (Fp.sub F.ONE pw))
  Fp.sub (Fp.add naive (polyBLEP p dt)) (polyBLEP t2 dt)

/-- The naive triangle of R208. -/
def naiveTriangle (p : F64) : F64 :=
  if Fp.lt p F.HALF then Fp.sub (Fp.mul F.FOUR p) F.ONE else Fp.sub F.THREE (Fp.mul F.FOUR p)

/-- R208, for the sign of the correction `TRI_BLEP_SIGN` takes. -/
def triangleValue (sign p dt : F64) : F64 :=
  let c := Fp.mul sign (Fp.mul F.FOUR dt)
  let t2 := Fp.fmod1 (Fp.add p F.HALF)
  Fp.sub (Fp.add (naiveTriangle p) (Fp.mul c (polyBLEP p dt))) (Fp.mul c (polyBLEP t2 dt))

/-- The sample of R204, from the registers before the advance. -/
def oscSample (r : OscRegs) (dt : F64) : F64 :=
  match r.wave with
  | .sine => sineValue r.phase
  | .saw => sawValue r.phase dt
  | .square => squareValue r.phase dt r.pw
  | .triangle => triangleValue TRI_BLEP_SIGN r.phase dt

/-- The phase increment (R49, R204). -/
def oscIncrement (sr : F64) (r : OscRegs) : F64 := Fp.div r.freq sr

/-- The phase advance (R209). -/
def OscRegs.advance (r : OscRegs) (dt : F64) : OscRegs := { r with phase := wrap (Fp.add r.phase dt) }

/-! ### Commands -/

/-- R201 `OSC.SETFREQ`. -/
def execOscSetFreq (idx : BitVec 4) (v : F64) (s : State) : Result :=
  onInstance 3 idx s fun i =>
    numberOperand (Instr.oscSetFreq idx v).cmdWord v s <|
      .next (s.setOsc i { s.oscAt i with freq := clamp v FREQ_MIN FREQ_MAX }).noResult

/-- R202 `OSC.SETWAVE`. -/
def execOscSetWave (idx : BitVec 4) (sel : BitVec 4) (s : State) : Result :=
  selOperand (Instr.oscSetWave idx sel).cmdWord (oscWaveOfSel sel) s fun w =>
    onInstance 3 idx s fun i => .next (s.setOsc i { s.oscAt i with wave := w }).noResult

/-- R203 `OSC.SETPW`. -/
def execOscSetPw (idx : BitVec 4) (v : F64) (s : State) : Result :=
  onInstance 3 idx s fun i =>
    numberOperand (Instr.oscSetPw idx v).cmdWord v s <|
      .next (s.setOsc i { s.oscAt i with pw := clamp v PW_MIN PW_MAX }).noResult

/-- R204 `OSC.TICK`. -/
def execOscTick (idx : BitVec 4) (s : State) : Result :=
  onInstance 3 idx s fun i =>
    requireSr (Instr.oscTick idx).cmdWord s <|
      let r := s.oscAt i
      let dt := oscIncrement s.sr r
      .next ((s.setOsc i (r.advance dt)).returnsSample (oscSample r dt))

/-- R210 `OSC.RESET`. -/
def execOscReset (idx : BitVec 4) (s : State) : Result :=
  onInstance 3 idx s fun i => .next (s.setOsc i { s.oscAt i with phase := F.ZERO }).noResult

/-- R211 `OSC.RANDPHASE`. -/
def execOscRandPhase (idx : BitVec 4) (s : State) : Result :=
  onInstance 3 idx s fun i =>
    .next (s.setOsc i { s.oscAt i with phase := s.nextPhaseDraw }).drawn.noResult

/-- R212 `OSC.GETPHASE`. -/
def execOscGetPhase (idx : BitVec 4) (s : State) : Result :=
  onInstance 3 idx s fun i => .next (s.returns (s.oscAt i).phase)

end Sys2Proof.Machine
end

