-- ==== Sys2Proof/Machine/Sys.lean ====
section
/-! DEFINITION. The block-level command (40_system_and_utils.md R175). -/

namespace Sys2Proof.Machine

/-- R175 `SYS.SETSR`; `N_SYS = 1` (30_encoding.md R133). -/
def execSysSetSr (idx : BitVec 4) (v : F64) (s : State) : Result :=
  onInstance 1 idx s fun _ =>
    if isSampleRate v then .next (s.setSr v).noResult
    else raiseFault .badOperand (Instr.sysSetSr idx v).cmdWord s

end Sys2Proof.Machine
end

