-- ==== Sys2Proof/Machine/Dispatch.lean ====
section
/-! DEFINITION. What each command does: one arm per constructor of Instr, each a call of the meaning in its family's
file. -/

namespace Sys2Proof.Machine

def exec (i : Instr) (s : State) : Host.Outcome State Fault Refusal :=
  match i with
  | .sysSetSr idx v => Sys2Proof.Machine.execSysSetSr idx v s
  | .oscSetFreq idx v => Sys2Proof.Machine.execOscSetFreq idx v s
  | .oscSetWave idx sel => Sys2Proof.Machine.execOscSetWave idx sel s
  | .oscSetPw idx v => Sys2Proof.Machine.execOscSetPw idx v s
  | .oscTick idx => Sys2Proof.Machine.execOscTick idx s
  | .oscReset idx => Sys2Proof.Machine.execOscReset idx s
  | .oscRandPhase idx => Sys2Proof.Machine.execOscRandPhase idx s
  | .oscGetPhase idx => Sys2Proof.Machine.execOscGetPhase idx s
  | .envSetAttack idx v => Sys2Proof.Machine.execEnvSetAttack idx v s
  | .envSetDecay idx v => Sys2Proof.Machine.execEnvSetDecay idx v s
  | .envSetSustain idx v => Sys2Proof.Machine.execEnvSetSustain idx v s
  | .envSetRelease idx v => Sys2Proof.Machine.execEnvSetRelease idx v s
  | .envNoteOn idx v => Sys2Proof.Machine.execEnvNoteOn idx v s
  | .envNoteOff idx => Sys2Proof.Machine.execEnvNoteOff idx s
  | .envTick idx => Sys2Proof.Machine.execEnvTick idx s
  | .envReset idx => Sys2Proof.Machine.execEnvReset idx s
  | .envGetState idx => Sys2Proof.Machine.execEnvGetState idx s
  | .envIsActive idx => Sys2Proof.Machine.execEnvIsActive idx s
  | .envGetLevel idx => Sys2Proof.Machine.execEnvGetLevel idx s
  | .lfoSetWave idx sel => Sys2Proof.Machine.execLfoSetWave idx sel s
  | .lfoSetRate idx v => Sys2Proof.Machine.execLfoSetRate idx v s
  | .lfoSetRateMode idx sel => Sys2Proof.Machine.execLfoSetRateMode idx sel s
  | .lfoSetSyncDiv idx sel => Sys2Proof.Machine.execLfoSetSyncDiv idx sel s
  | .lfoSetBpm idx v => Sys2Proof.Machine.execLfoSetBpm idx v s
  | .lfoSetDepth idx v => Sys2Proof.Machine.execLfoSetDepth idx v s
  | .lfoTick idx => Sys2Proof.Machine.execLfoTick idx s
  | .lfoPeek idx => Sys2Proof.Machine.execLfoPeek idx s
  | .lfoReset idx => Sys2Proof.Machine.execLfoReset idx s
  | .filtSetMode idx sel => Sys2Proof.Machine.execFiltSetMode idx sel s
  | .filtSetCutoff idx v => Sys2Proof.Machine.execFiltSetCutoff idx v s
  | .filtSetRes idx v => Sys2Proof.Machine.execFiltSetRes idx v s
  | .filtTick idx x => Sys2Proof.Machine.execFiltTick idx x s
  | .filtReset idx => Sys2Proof.Machine.execFiltReset idx s

end Sys2Proof.Machine
end

