-- ==== Sys2Proof/Machine/Perform.lean ====
section
/-! DEFINITION. One command from the ports, and one action of the host (00_scope.md R9, R10, R13; 30_encoding.md R137). -/

namespace Sys2Proof.Machine

/-- A command on the ports (R137): a stuck block ignores it (60_exceptions.md R401), an illegal word is a fault (R402),
and any other word does what its command's rule says; steps 3 to 6 of R137 stand in each command's meaning. -/
def perform (c : Command) (s : State) : Result :=
  if s.faulted then .next s
  else
    match decode c with
    | .error _ => raiseFault .illegalCommand c.cmd s
    | .ok i => exec i s

/-- A power cycle (70_reset_and_hazards.md R450, R461): a new run begins in the power-on state, with fresh draws. -/
def powerCycle (s : State) : State := State.powerOn (s.run + 1) s.draws s.host

/-- What the host does next, taken from the front of what it is going to do. With nothing left the block does nothing:
between commands it keeps all its state (R13, 60_exceptions.md R416; log 1). -/
def takeInput (s : State) : Result :=
  match s.host with
  | [] => .next s
  | .powerOn :: rest => .next (powerCycle { s with host := rest })
  | .command c :: rest => perform c { s with host := rest }

/-- The host is about to send `c`, before anything else it was going to do. -/
def State.send (s : State) (c : Command) : State := { s with host := .command c :: s.host }

end Sys2Proof.Machine
end

