-- ==== Sys2Proof/Machine/Step.lean ====
section
/-! DEFINITION. One step of the block, and the placing of a command where the next step takes it (log 1). -/

namespace Sys2Proof.Machine

/-- One step: one action of the host (00_scope.md R10). -/
def step (s : State) : Host.Outcome State Fault Refusal := takeInput s

/-- `s` with the command of a row of the opcode table as the next thing the host sends. -/
def State.withFetchWord (s : State) (nbits w : Nat) : State := s.send (commandOfTable nbits w)

end Sys2Proof.Machine
end

