-- ==== Sys2Proof/Machine/Pseudo.lean ====
section
/-! DEFINITION. The pseudo-instructions and their expansions (30_encoding.md R146). They are the host's notation: the block
sees only the commands of the expansion. -/

namespace Sys2Proof

/-- The pseudo-instructions of R146. `sel` and `div` are enumerators, `n` a count of at least 1. -/
inductive Pseudo where
  | oscInit (i : BitVec 4) (f : F64) (sel : BitVec 4) (pw : F64)
  | envAdsr (i : BitVec 4) (a d s r : F64)
  | lfoSync (i : BitVec 4) (bpm : F64) (div : BitVec 4)
  | oscRun (i : BitVec 4) (n : Nat)
  | envRun (i : BitVec 4) (n : Nat)
  | lfoRun (i : BitVec 4) (n : Nat)
  | filtRun (i : BitVec 4) (xs : List F32)
  | blockReset
deriving DecidableEq, Repr

/-- The commands a pseudo-instruction stands for, in order (R146). -/
def Pseudo.expand (p : Pseudo) : List Instr :=
  match p with
  | .oscInit i f sel pw => [.oscSetFreq i f, .oscSetWave i sel, .oscSetPw i pw, .oscReset i]
  | .envAdsr i a d s r => [.envSetAttack i a, .envSetDecay i d, .envSetSustain i s, .envSetRelease i r]
  | .lfoSync i bpm div => [.lfoSetRateMode i 1, .lfoSetBpm i bpm, .lfoSetSyncDiv i div]
  | .oscRun i n => List.replicate n (.oscTick i)
  | .envRun i n => List.replicate n (.envTick i)
  | .lfoRun i n => List.replicate n (.lfoTick i)
  | .filtRun i xs => xs.map (.filtTick i)
  | .blockReset =>
    [.oscReset 0, .oscReset 1, .oscReset 2, .envReset 0, .lfoReset 0, .lfoReset 1, .filtReset 0]

/-- What the host sends for a pseudo-instruction. -/
def Pseudo.commands (p : Pseudo) : List Command := p.expand.map encode

end Sys2Proof
end

