-- ==== Sys2Proof/Safety.lean ====
section
/-! DEFINITION. What claims about the block are stated in: the legal values of its registers (10_state.md R42 to R78), the
invariant they make up, runs (00_scope.md R13), and which part of the state a command may touch (20_memory.md R109). -/

namespace Sys2Proof.Machine

/-! ### Legal registers -/

/-- `freq`, `pw` and `phase` in their ranges (R45, R47, R76). -/
def OscRegs.legal (r : OscRegs) : Bool :=
  inRange FREQ_MIN FREQ_MAX r.freq && inRange PW_MIN PW_MAX r.pw && isPhase r.phase

/-- The envelope's registers in their ranges (R50 to R57, R77), and level 0 in Idle (42_envelope.md R258). -/
def EnvRegs.legal (r : EnvRegs) : Bool :=
  inRange ATTACK_MIN ATTACK_MAX r.attack && inRange DECAY_MIN DECAY_MAX r.decay &&
  inRange SUSTAIN_MIN SUSTAIN_MAX r.sustain && inRange RELEASE_MIN RELEASE_MAX r.release &&
  inRange F.ZERO F.ONE r.level && inRange VELOCITY_MIN VELOCITY_MAX r.velocity &&
  Fp.le F.ZERO r.releaseRate && (decide (r.state ≠ .idle) || decide (r.level = F.ZERO))

/-- The LFO's registers in their ranges (R61 to R68, R76). -/
def LfoRegs.legal (r : LfoRegs) : Bool :=
  inRange LFO_RATE_MIN LFO_RATE_MAX r.rate && inRange BPM_MIN BPM_MAX r.bpm &&
  inRange DEPTH_MIN DEPTH_MAX r.depth && isPhase r.phase && isPhase r.lastPhase &&
  inRange F.MINUS_ONE F.ONE r.held

/-- A stage in the clamp bound (R73, R78). -/
def stageLegal (v : F64) : Bool := Fp.isFinite v && inRange (Fp.negate CLAMP_BOUND) CLAMP_BOUND v

/-- The filter's registers in their ranges (R71 to R73, R78). -/
def FiltRegs.legal (r : FiltRegs) : Bool :=
  inRange CUTOFF_MIN CUTOFF_MAX r.cutoff && inRange RES_MIN RES_MAX r.res &&
  stageLegal r.s.s0 && stageLegal r.s.s1 && stageLegal r.s.s2 && stageLegal r.s.s3

/-- A filter whose cache is not stale holds the coefficients of the current registers (44_filter.md R354). -/
def FiltRegs.cacheFresh (sr : F64) (r : FiltRegs) : Bool :=
  r.dirty || (decide (r.g = filtG r.cutoff sr) && decide (r.k = filtK r.res))

/-- `STATUS` as R43 says it reads: reserved bits 0, a code of 0 to 3, and a code exactly when faulted. -/
def statusLegal (w : BitVec 32) : Bool :=
  decide (w &&& 0xFFFFFF0C#32 = 0) && decide (statusCode w ≤ 3) &&
  decide (statusFaulted w = decide (statusCode w ≠ 0))

/-! ### The invariant -/

/-- What holds between commands: the ranges of R42 to R78, the cache contract of R354, the reading of `STATUS` (R43),
and no result while faulted (60_exceptions.md R401). -/
structure State.Inv (s : State) : Prop where
  status   : statusLegal s.status = true
  noResult : s.faulted = true → s.resValid = false
  sr       : s.srValid = true → isSampleRate s.sr = true
  osc      : ∀ i, (s.oscAt i).legal = true
  env      : ∀ i, (s.envAt i).legal = true
  lfo      : ∀ i, (s.lfoAt i).legal = true
  filt     : ∀ i, (s.filtAt i).legal = true
  cache    : ∀ i, (s.filtAt i).cacheFresh s.sr = true

/-! ### Runs (R13) -/

/-- The host's list of commands, as it stands in `State.host`. -/
def commands (cs : List Command) : List HostInput := cs.map .command

/-- The state after performing a list of commands in order, and the results they produced. A step that stopped would
leave the state it stopped in; none does. -/
def runCommands : List Command → State → List (BitVec 64) × State
  | [], s => ([], s)
  | c :: cs, s =>
    match perform c s with
    | .next t =>
      let rest := runCommands cs t
      ((if t.resValid && !s.faulted then [t.res] else []) ++ rest.1, rest.2)
    | .fault _ => ([], s)
    | .refused _ => ([], s)

/-- R13's premise of a claim about a run: no fault at its end. -/
def endsWithoutFault (cs : List Command) (s : State) : Bool := !(runCommands cs s).2.faulted

/-! ### Instance numbers -/

/-- The instance number of instance `i`. -/
def instIdx {n : Nat} (i : Fin n) : BitVec 4 := BitVec.ofNat 4 i.val

/-- Instance `i`'s bits of a command word, `IDX<<20` (R130). -/
def idxBits {n : Nat} (i : Fin n) : CmdWord := BitVec.ofNat 32 i.val <<< 20

/-! ### The illegal words (R142) -/

/-- A pair `(UNIT, OP)` whose command takes `SEL`, and its largest enumerator (R132, R135). -/
def selMaxOf (u o : Nat) : Option Nat :=
  match u, o with
  | 1, 1 => some 3
  | 3, 0 => some 4
  | 3, 2 => some 1
  | 3, 3 => some 6
  | 4, 0 => some 2
  | _, _ => none

/-- R142's list, on the fields of R130: reserved units, reserved operations of each unit, reserved bits, a `SEL` that is
not taken, a `SEL` out of range. -/
def listedIllegal (w : CmdWord) : Prop :=
  let u := (w.extractLsb' 28 4).toNat
  let o := (w.extractLsb' 24 4).toNat
  let sel := (w.extractLsb' 0 4).toNat
  5 ≤ u ∨ (u = 0 ∧ o = 0) ∨ (u = 0 ∧ 2 ≤ o) ∨ (u = 1 ∧ 7 ≤ o) ∨ (u = 2 ∧ 11 ≤ o) ∨ (u = 3 ∧ 9 ≤ o) ∨
  (u = 4 ∧ 5 ≤ o) ∨ w.extractLsb' 4 16 ≠ 0 ∨ (selMaxOf u o = none ∧ sel ≠ 0) ∨
  (∃ m, selMaxOf u o = some m ∧ m < sel)

/-! ### What a command may touch (R109) -/

/-- A register file of the block. -/
inductive RegFile where
  | osc (i : Fin 3)
  | env (i : Fin 1)
  | lfo (i : Fin 2)
  | filt (i : Fin 1)
deriving DecidableEq, Repr

end Sys2Proof.Machine

namespace Sys2Proof

/-! ### What a command is -/

/-- The instance number of a command (R133). -/
def Instr.idx (i : Instr) : BitVec 4 :=
  match i with
  | .oscTick idx | .oscReset idx | .oscRandPhase idx | .oscGetPhase idx | .envNoteOff idx | .envTick idx => idx
  | .envReset idx | .envGetState idx | .envIsActive idx | .envGetLevel idx | .lfoTick idx | .lfoPeek idx => idx
  | .lfoReset idx | .filtReset idx => idx
  | .sysSetSr idx _ | .oscSetFreq idx _ | .oscSetWave idx _ | .oscSetPw idx _ | .envSetAttack idx _ | .envSetDecay idx _ => idx
  | .envSetSustain idx _ | .envSetRelease idx _ | .envNoteOn idx _ | .lfoSetWave idx _ | .lfoSetRate idx _ | .lfoSetRateMode idx _ => idx
  | .lfoSetSyncDiv idx _ | .lfoSetBpm idx _ | .lfoSetDepth idx _ | .filtSetMode idx _ | .filtSetCutoff idx _ | .filtSetRes idx _ => idx
  | .filtTick idx _ => idx

/-- How many instances the command's unit has (R133). -/
def Instr.instances (i : Instr) : Nat :=
  match i with
  | .sysSetSr _ _ => N_SYS
  | .oscSetFreq _ _ | .oscSetWave _ _ | .oscSetPw _ _ | .oscTick _ | .oscReset _ | .oscRandPhase _ => N_OSC
  | .oscGetPhase _ => N_OSC
  | .envSetAttack _ _ | .envSetDecay _ _ | .envSetSustain _ _ | .envSetRelease _ _ | .envNoteOn _ _ => N_ENV
  | .envNoteOff _ | .envTick _ | .envReset _ | .envGetState _ | .envIsActive _ | .envGetLevel _ => N_ENV
  | .lfoSetWave _ _ | .lfoSetRate _ _ | .lfoSetRateMode _ _ | .lfoSetSyncDiv _ _ | .lfoSetBpm _ _ => N_LFO
  | .lfoSetDepth _ _ | .lfoTick _ | .lfoPeek _ | .lfoReset _ => N_LFO
  | .filtSetMode _ _ | .filtSetCutoff _ _ | .filtSetRes _ _ | .filtTick _ _ | .filtReset _ => N_FILT

/-- Does the command name an instance that exists (R133, R136)? -/
def Instr.present (i : Instr) : Bool := decide (i.idx.toNat < i.instances)

/-- The operand of an f64 unit setter (R132, R171). -/
def Instr.setterOperand (i : Instr) : Option F64 :=
  match i with
  | .oscSetFreq _ v | .oscSetPw _ v => some v
  | .envSetAttack _ v | .envSetDecay _ v | .envSetSustain _ v | .envSetRelease _ v | .envNoteOn _ v => some v
  | .lfoSetRate _ v | .lfoSetBpm _ v | .lfoSetDepth _ v => some v
  | .filtSetCutoff _ v | .filtSetRes _ v => some v
  | .sysSetSr _ _ | .oscSetWave _ _ | .oscTick _ | .oscReset _ | .oscRandPhase _ | .oscGetPhase _ => none
  | .envNoteOff _ | .envTick _ | .envReset _ | .envGetState _ | .envIsActive _ | .envGetLevel _ => none
  | .lfoSetWave _ _ | .lfoSetRateMode _ _ | .lfoSetSyncDiv _ _ | .lfoTick _ | .lfoPeek _ | .lfoReset _ => none
  | .filtSetMode _ _ | .filtTick _ _ | .filtReset _ => none

/-- The operand of a command is one the block refuses (R404). -/
def Instr.badOperand (i : Instr) : Bool :=
  match i with
  | .sysSetSr _ v => !Machine.isSampleRate v
  | .oscSetFreq _ v | .oscSetPw _ v => Fp.isNaN v
  | .envSetAttack _ v | .envSetDecay _ v | .envSetSustain _ v | .envSetRelease _ v | .envNoteOn _ v => Fp.isNaN v
  | .lfoSetRate _ v | .lfoSetBpm _ v | .lfoSetDepth _ v => Fp.isNaN v
  | .filtSetCutoff _ v | .filtSetRes _ v => Fp.isNaN v
  | .oscSetWave _ _ | .oscTick _ | .oscReset _ | .oscRandPhase _ | .oscGetPhase _ => false
  | .envNoteOff _ | .envTick _ | .envReset _ | .envGetState _ | .envIsActive _ | .envGetLevel _ => false
  | .lfoSetWave _ _ | .lfoSetRateMode _ _ | .lfoSetSyncDiv _ _ | .lfoTick _ | .lfoPeek _ | .lfoReset _ => false
  | .filtSetMode _ _ | .filtTick _ _ | .filtReset _ => false

/-- The five commands that read `SR` (R403). -/
def Instr.needsSr (i : Instr) : Bool :=
  match i with
  | .oscTick _ | .envTick _ | .envNoteOff _ | .lfoTick _ | .filtTick _ _ => true
  | .sysSetSr _ _ | .oscSetFreq _ _ | .oscSetWave _ _ | .oscSetPw _ _ | .oscReset _ | .oscRandPhase _ => false
  | .oscGetPhase _ | .envSetAttack _ _ | .envSetDecay _ _ | .envSetSustain _ _ | .envSetRelease _ _ => false
  | .envNoteOn _ _ | .envReset _ | .envGetState _ | .envIsActive _ | .envGetLevel _ => false
  | .lfoSetWave _ _ | .lfoSetRate _ _ | .lfoSetRateMode _ _ | .lfoSetSyncDiv _ _ | .lfoSetBpm _ _ => false
  | .lfoSetDepth _ _ | .lfoPeek _ | .lfoReset _ => false
  | .filtSetMode _ _ | .filtSetCutoff _ _ | .filtSetRes _ _ | .filtReset _ => false

/-- The commands whose result is a binary32 sample (R140). -/
def Instr.returnsSample (i : Instr) : Bool :=
  match i with
  | .oscTick _ | .envTick _ | .lfoTick _ | .lfoPeek _ | .filtTick _ _ => true
  | .sysSetSr _ _ | .oscSetFreq _ _ | .oscSetWave _ _ | .oscSetPw _ _ | .oscReset _ | .oscRandPhase _ => false
  | .oscGetPhase _ | .envSetAttack _ _ | .envSetDecay _ _ | .envSetSustain _ _ | .envSetRelease _ _ => false
  | .envNoteOn _ _ | .envNoteOff _ | .envReset _ | .envGetState _ | .envIsActive _ | .envGetLevel _ => false
  | .lfoSetWave _ _ | .lfoSetRate _ _ | .lfoSetRateMode _ _ | .lfoSetSyncDiv _ _ | .lfoSetBpm _ _ => false
  | .lfoSetDepth _ _ | .lfoReset _ => false
  | .filtSetMode _ _ | .filtSetCutoff _ _ | .filtSetRes _ _ | .filtReset _ => false

/-- The commands whose result is a binary64 value or an integer (R140). -/
def Instr.returnsWord (i : Instr) : Bool :=
  match i with
  | .oscGetPhase _ | .envGetLevel _ | .envGetState _ | .envIsActive _ => true
  | .sysSetSr _ _ | .oscSetFreq _ _ | .oscSetWave _ _ | .oscSetPw _ _ | .oscTick _ | .oscReset _ => false
  | .oscRandPhase _ | .envSetAttack _ _ | .envSetDecay _ _ | .envSetSustain _ _ | .envSetRelease _ _ => false
  | .envNoteOn _ _ | .envNoteOff _ | .envTick _ | .envReset _ => false
  | .lfoSetWave _ _ | .lfoSetRate _ _ | .lfoSetRateMode _ _ | .lfoSetSyncDiv _ _ | .lfoSetBpm _ _ => false
  | .lfoSetDepth _ _ | .lfoTick _ | .lfoPeek _ | .lfoReset _ => false
  | .filtSetMode _ _ | .filtSetCutoff _ _ | .filtSetRes _ _ | .filtTick _ _ | .filtReset _ => false

/-- The commands that set a parameter: `SYS.SETSR`, the f64 setters but the note command, and the `SEL` commands
(R107, R132). -/
def Instr.isSetter (i : Instr) : Bool :=
  match i with
  | .sysSetSr _ _ | .oscSetFreq _ _ | .oscSetWave _ _ | .oscSetPw _ _ => true
  | .envSetAttack _ _ | .envSetDecay _ _ | .envSetSustain _ _ | .envSetRelease _ _ => true
  | .lfoSetWave _ _ | .lfoSetRate _ _ | .lfoSetRateMode _ _ | .lfoSetSyncDiv _ _ | .lfoSetBpm _ _ => true
  | .lfoSetDepth _ _ | .filtSetMode _ _ | .filtSetCutoff _ _ | .filtSetRes _ _ => true
  | .oscTick _ | .oscReset _ | .oscRandPhase _ | .oscGetPhase _ => false
  | .envNoteOn _ _ | .envNoteOff _ | .envTick _ | .envReset _ | .envGetState _ | .envIsActive _ => false
  | .envGetLevel _ | .lfoTick _ | .lfoPeek _ | .lfoReset _ | .filtTick _ _ | .filtReset _ => false

/-- The instance a command names, none for `SYS.SETSR` and for a missing instance. -/
def Instr.target (i : Instr) : Option Machine.RegFile :=
  let osc := fun (idx : BitVec 4) => if h : idx.toNat < 3 then some (Machine.RegFile.osc ⟨idx.toNat, h⟩) else none
  let env := fun (idx : BitVec 4) => if h : idx.toNat < 1 then some (Machine.RegFile.env ⟨idx.toNat, h⟩) else none
  let lfo := fun (idx : BitVec 4) => if h : idx.toNat < 2 then some (Machine.RegFile.lfo ⟨idx.toNat, h⟩) else none
  let filt := fun (idx : BitVec 4) => if h : idx.toNat < 1 then some (Machine.RegFile.filt ⟨idx.toNat, h⟩) else none
  match i with
  | .sysSetSr _ _ => none
  | .oscSetFreq idx _ | .oscSetWave idx _ | .oscSetPw idx _ | .oscTick idx => osc idx
  | .oscReset idx | .oscRandPhase idx | .oscGetPhase idx => osc idx
  | .envSetAttack idx _ | .envSetDecay idx _ | .envSetSustain idx _ | .envSetRelease idx _ => env idx
  | .envNoteOn idx _ | .envNoteOff idx | .envTick idx | .envReset idx => env idx
  | .envGetState idx | .envIsActive idx | .envGetLevel idx => env idx
  | .lfoSetWave idx _ | .lfoSetRate idx _ | .lfoSetRateMode idx _ | .lfoSetSyncDiv idx _ => lfo idx
  | .lfoSetBpm idx _ | .lfoSetDepth idx _ | .lfoTick idx | .lfoPeek idx | .lfoReset idx => lfo idx
  | .filtSetMode idx _ | .filtSetCutoff idx _ | .filtSetRes idx _ | .filtTick idx _ | .filtReset idx => filt idx

end Sys2Proof

namespace Sys2Proof.Machine

/-- The register file `u` holds the same in two states. -/
def State.sameAt (u : RegFile) (s t : State) : Prop :=
  match u with
  | .osc i => s.oscAt i = t.oscAt i
  | .env i => s.envAt i = t.envAt i
  | .lfo i => s.lfoAt i = t.lfoAt i
  | .filt i => s.filtAt i = t.filtAt i

/-- Two states agree on all that a command to register file `u` may read: the file, `SR` with its valid bit, and the next
draw. -/
def State.agreeOn (u : RegFile) (s t : State) : Prop :=
  s.sr = t.sr ∧ s.srValid = t.srValid ∧ s.draws = t.draws ∧ State.sameAt u s t

/-! ### The coefficient cache (R113, R354) -/

/-- Every filter's cache is stale, so that the next tick computes the coefficients again. -/
def State.stale (s : State) : State := { s with filt := s.filt.map fun r => { r with dirty := true } }

/-- Every filter's `g`, `k` and `dirty` at a fixed value. -/
def State.cacheCleared (s : State) : State :=
  { s with filt := s.filt.map fun r => { r with g := F.ZERO, k := F.ZERO, dirty := true } }

/-- Two states differ at most in the filters' `g`, `k` and `dirty`. -/
def State.sameButCache (s t : State) : Prop := s.cacheCleared = t.cacheCleared

/-! ### Rules many commands share -/

/-- To each instance of a unit with `n` instances, the number command on `v` stores `x` and produces no result. -/
def StoresNumber {n : Nat} (make : BitVec 4 → F64 → Instr) (store : Fin n → F64 → State → State) (v x : F64) : Prop :=
  ∀ (i : Fin n) (s : State), exec (make (instIdx i) v) s = .next { store i x s with resValid := false }

/-- The rule of an f64 setter of a unit with `n` instances (R171, R172): its word; the clamped value stored by `store` and
no result; an infinity is clamped to its bound; a NaN is a bad operand. -/
def SetsNumber {n : Nat} (make : BitVec 4 → F64 → Instr) (base : CmdWord) (lo hi : F64)
    (store : Fin n → F64 → State → State) : Prop :=
  (∀ (i : Fin n) (v : F64), (make (instIdx i) v).cmdWord = base ||| idxBits i) ∧
  (∀ v : F64, Fp.isNaN v = false →
    StoresNumber make store v (if Fp.lt v lo then lo else if Fp.lt hi v then hi else v)) ∧
  StoresNumber make store (Fp.pack false Fp.infMag) hi ∧
  StoresNumber make store (Fp.pack true Fp.infMag) lo ∧
  (∀ (i : Fin n) (v : F64) (s : State), Fp.isNaN v = true →
    exec (make (instIdx i) v) s = .next (s.raise .badOperand (base ||| idxBits i)))

/-- The rule of a `SEL` command of a unit with `n` instances (R134, R135, R141): its word; the enumerator `SEL` numbers
stored by `store` and no result; a `SEL` past the last enumerator is illegal, whatever the operand. -/
def SetsEnumerator {n : Nat} {α : Type} (make : BitVec 4 → BitVec 4 → Instr) (base : CmdWord) (names : List α)
    (store : Fin n → α → State → State) : Prop :=
  ∀ (i : Fin n) (sel : BitVec 4) (s : State),
    (make (instIdx i) sel).cmdWord = base ||| idxBits i ||| sel.setWidth 32 ∧
    (∀ a, names[sel.toNat]? = some a →
      exec (make (instIdx i) sel) s = .next { store i a s with resValid := false }) ∧
    (names[sel.toNat]? = none →
      exec (make (instIdx i) sel) s = .next (s.raise .illegalCommand (make (instIdx i) sel).cmdWord)) ∧
    (∀ opd, names[sel.toNat]? = none → s.faulted = false →
      perform ⟨base ||| idxBits i ||| sel.setWidth 32, opd⟩ s =
        .next (s.raise .illegalCommand (base ||| idxBits i ||| sel.setWidth 32)))

end Sys2Proof.Machine

namespace Sys2Proof.Fp

/-! ### Correct rounding (00_scope.md R16) -/

/-- The least magnitude, in least subnormals of binary64, that rounds to infinity: half a step above the greatest finite
number. -/
@[irreducible] def overflow : Nat := (2 ^ 54 - 1) * 2 ^ 2044

/-- `r` is `num / den` least subnormals rounded to nearest, ties to even: it is finite exactly below the overflow limit;
where finite no finite number is nearer, and of two that are equally near it is the even one. -/
def RoundsTo (num den : Int) (r : F64) : Prop :=
  isNaN r = false ∧
  (isFinite r = true ↔ num.natAbs < overflow * den.natAbs) ∧
  (isFinite r = true → ∀ z : F64, isFinite z = true →
    (value r * den - num).natAbs ≤ (value z * den - num).natAbs ∧
    ((value r * den - num).natAbs = (value z * den - num).natAbs → value z = value r ∨ mag r % 2 = 0))

end Sys2Proof.Fp
end

