-- ==== Sys2Proof/Certificates/Slice0/Obligations.lean ====
section
/-! DEFINITION. The statements about the block, from the numbered rules of spec/. A statement about a command gives the
whole next state as an update of the state before, so it says the command completes, what it writes, and that nothing
else changes. -/

open Sys2Proof Sys2Proof.Machine

/-! ### Encoding -/

/-- R130, R132, R138: no bit of a well-formed command is lost by encoding and decoding it. -/
def Obligations.DecodeOfEncode : Prop := ∀ i : Instr, i.WellFormed = true → decode (encode i) = .ok i

/-- R130, R135, R141: a word that decodes is the word of a well-formed command, which is the one command it stands for. -/
def Obligations.DecodedIsWellFormed : Prop :=
  ∀ (c : Command) (i : Instr), decode c = .ok i →
    i.WellFormed = true ∧ i.cmdWord = c.cmd ∧ decode (encode i) = .ok i

/-- R142: the illegal words are those the rule lists, the zero word among them, and each raises ILLEGAL_COMMAND. -/
def Obligations.IllegalEncodings : Prop :=
  (∀ c : Command, (∃ e, decode c = .error e) ↔ listedIllegal c.cmd) ∧
  (∀ (c : Command) (s : State), listedIllegal c.cmd → s.faulted = false →
    perform c s = .next (s.raise .illegalCommand c.cmd)) ∧
  listedIllegal 0

/-- Words written out from R132's table, R133's instances and R145's example. -/
def Obligations.WordsDecode : Prop :=
  ∀ v : BitVec 64,
    decode ⟨0x01000000#32, v⟩ = .ok (.sysSetSr 0 v) ∧
    decode ⟨0x11200002#32, v⟩ = .ok (.oscSetWave 2 2) ∧
    decode ⟨0x13100000#32, v⟩ = .ok (.oscTick 1) ∧
    decode ⟨0x24000000#32, v⟩ = .ok (.envNoteOn 0 v) ∧
    decode ⟨0x2AF00000#32, v⟩ = .ok (.envGetLevel 15) ∧
    decode ⟨0x33100006#32, v⟩ = .ok (.lfoSetSyncDiv 1 6) ∧
    decode ⟨0x43000000#32, v⟩ = .ok (.filtTick 0 (v.setWidth 32)) ∧
    decode ⟨0x33100007#32, v⟩ = .error .selOutOfRange ∧
    decode ⟨0x13000001#32, v⟩ = .error .selNotTaken ∧
    decode ⟨0x13000010#32, v⟩ = .error .reservedBits

/-- R105: bytes carry a port's word little-endian, byte `n` holding bits `8n+7:8n`, and nothing is lost. That the command
word's four bytes come before the operand's eight is the model's choice (log 14). -/
def Obligations.PortBytesLittleEndian : Prop :=
  ∀ c : Command,
    commandOfBytes (bytesOfCommand c) = some c ∧
    (∀ n, n < 4 → (bytesOfCommand c)[n]? = some (c.cmd.extractLsb' (8 * n) 8)) ∧
    (∀ n, n < 8 → (bytesOfCommand c)[4 + n]? = some (c.opd.extractLsb' (8 * n) 8))

/-! ### A step -/

/-- One step performs the next command the host sends (R10, R41): the decoded command, or, for an illegal word, the fault of
R402. With nothing left to send the block keeps its state (R13, R416). The host's list is the model's (log 1). -/
def Obligations.StepRunsCommand : Prop :=
  (∀ (s : State) (c : Command) (rest : List HostInput) (i : Instr),
    s.host = .command c :: rest → s.faulted = false → decode c = .ok i →
    step s = exec i { s with host := rest }) ∧
  (∀ (s : State) (c : Command) (rest : List HostInput) (e : Illegal),
    s.host = .command c :: rest → s.faulted = false → decode c = .error e →
    step s = .next (State.raise { s with host := rest } .illegalCommand c.cmd)) ∧
  (∀ s : State, s.host = [] → step s = .next s) ∧
  (∀ (s : State) (nbits w : Nat), step (s.withFetchWord nbits w) = perform (commandOfTable nbits w) s)

/-- R401: a stuck block takes commands and changes nothing, produces no result, and no command clears the fault. That the
host's list may hold a power cycle, which the last clause lets end the fault, is the model's choice (logs 1 and 3). -/
def Obligations.StuckBlock : Prop :=
  (∀ (c : Command) (s : State), s.faulted = true → perform c s = .next s) ∧
  (∀ (cs : List Command) (s : State), s.faulted = true →
    runCommands cs s = ([], s) ∧ endsWithoutFault cs s = false) ∧
  (∀ s t : State, s.faulted = true → step s = .next t →
    t.faulted = true ∨ ∃ rest, s.host = .powerOn :: rest)

/-- R81, R450: the power-on value of every register, a parameter register at some legal value. That `State.reset` is the
power-on of run 0 with draw 0 next and an empty list of the host is the model's choice (logs 1, 3 and 6), and so are the free
values of the parameter registers (log 5). -/
def Obligations.PowerOnState : Prop :=
  State.reset = State.powerOn 0 0 [] ∧
  ∀ (run draws : Nat) (host : List HostInput),
    let s := State.powerOn run draws host
    s.status = 0 ∧ s.srValid = false ∧ s.statusCmd = 0 ∧ s.res = 0 ∧ s.resValid = false ∧
    (∀ i, (s.oscAt i).phase = F.ZERO ∧ inRange FREQ_MIN FREQ_MAX (s.oscAt i).freq = true ∧
      inRange PW_MIN PW_MAX (s.oscAt i).pw = true) ∧
    (∀ i, (s.envAt i).state = .idle ∧ (s.envAt i).level = F.ZERO ∧ (s.envAt i).velocity = F.ZERO ∧
      (s.envAt i).releaseRate = F.ZERO ∧ inRange ATTACK_MIN ATTACK_MAX (s.envAt i).attack = true ∧
      inRange DECAY_MIN DECAY_MAX (s.envAt i).decay = true ∧
      inRange SUSTAIN_MIN SUSTAIN_MAX (s.envAt i).sustain = true ∧
      inRange RELEASE_MIN RELEASE_MAX (s.envAt i).release = true) ∧
    (∀ i, (s.lfoAt i).phase = F.ZERO ∧ (s.lfoAt i).lastPhase = F.ZERO ∧
      inRange F.MINUS_ONE F.ONE (s.lfoAt i).held = true ∧
      inRange LFO_RATE_MIN LFO_RATE_MAX (s.lfoAt i).rate = true ∧
      inRange BPM_MIN BPM_MAX (s.lfoAt i).bpm = true ∧
      inRange DEPTH_MIN DEPTH_MAX (s.lfoAt i).depth = true) ∧
    (∀ i, (s.filtAt i).s = ⟨F.ZERO, F.ZERO, F.ZERO, F.ZERO⟩ ∧ (s.filtAt i).dirty = true ∧
      inRange CUTOFF_MIN CUTOFF_MAX (s.filtAt i).cutoff = true ∧
      inRange RES_MIN RES_MAX (s.filtAt i).res = true)

/-- A power cycle begins a new run in the power-on state (R450, R461), with the draws and parameter values of a new run.
That a power cycle is an action in the host's list is the model's choice (log 3). -/
def Obligations.PowerCycle : Prop :=
  ∀ (s : State) (rest : List HostInput), s.host = .powerOn :: rest →
    ∃ t, step s = .next t ∧ t = State.powerOn (s.run + 1) s.draws rest ∧ t.faulted = false

/-- The power-on state meets the invariant (R81). -/
def Obligations.ResetMeetsInvariant : Prop := State.reset.Inv

/-- R42, R43, R45 to R73, R76 to R78, R354, R401: every step keeps every register in its legal range, `STATUS` as it reads,
the coefficient cache true to its registers, and no result while faulted; and no step stops. -/
def Obligations.StepKeepsInvariant : Prop := ∀ s : State, s.Inv → ∃ t, step s = .next t ∧ t.Inv

/-- R13, R460: a run of `n` commands ends after `n` steps, in the state the commands leave in turn. The host's list is the
model's (log 1). -/
def Obligations.RunEndsAfterItsCommands : Prop :=
  ∀ (cs : List Command) (s : State), s.host = commands cs →
    Sys2Proof.core.run cs.length s = .next (runCommands cs { s with host := [] }).2

/-! ### Faults and the result port -/

/-- R400: what recording a fault writes, and that it writes no other register. -/
def Obligations.FaultRecording : Prop :=
  ∀ (s : State) (code : FaultCode) (cmd : CmdWord),
    let t := s.raise code cmd
    t = { s with status := t.status, statusCmd := cmd, resValid := false } ∧
    t.faulted = true ∧
    statusCode t.status = (match code with | .illegalCommand => 1 | .notConfigured => 2 | .badOperand => 3) ∧
    (∀ b, b ≠ 0 → ¬(4 ≤ b ∧ b < 8) → t.status.getLsbD b = s.status.getLsbD b)

/-- R137, R405: the order in which a command is processed; the first step that applies decides the outcome. -/
def Obligations.DecodeOrder : Prop :=
  ∀ (c : Command) (s : State),
    perform c s =
      if s.faulted then .next s
      else
        match decode c with
        | .error _ => .next (s.raise .illegalCommand c.cmd)
        | .ok i =>
          if i.present = false then .next { s with resValid := false }
          else if i.badOperand then .next (s.raise .badOperand c.cmd)
          else if i.needsSr && !s.srValid then .next (s.raise .notConfigured c.cmd)
          else exec i s

/-- R136: a legal command to a missing instance is a silent no-op. -/
def Obligations.SilentNoOp : Prop :=
  ∀ (i : Instr) (s : State), i.WellFormed = true → i.present = false →
    exec i s = .next { s with resValid := false }

/-- R403: the five commands that read `SR` raise NOT_CONFIGURED while it is not valid, and no command raises it
otherwise. -/
def Obligations.NotConfigured : Prop :=
  (∀ (i : Instr) (s : State), i.present = true → i.needsSr = true → s.srValid = false →
    exec i s = .next (s.raise .notConfigured i.cmdWord)) ∧
  (∀ (i : Instr) (s : State), i.needsSr = false ∨ s.srValid = true → s.faulted = false →
    ∃ t, exec i s = .next t ∧ ¬(t.faulted = true ∧ statusCode t.status = 2))

/-- R404: a NaN to a unit setter, or a rate that is not finite or is below 1, raises BAD_OPERAND, and no other operand
does. -/
def Obligations.BadOperand : Prop :=
  (∀ (i : Instr) (v : F64) (s : State), i.present = true → i.setterOperand = some v → Fp.isNaN v = true →
    exec i s = .next (s.raise .badOperand i.cmdWord)) ∧
  (∀ (v : F64) (s : State), Fp.isFinite v = false ∨ Fp.lt v SR_MIN = true →
    exec (.sysSetSr 0 v) s = .next (s.raise .badOperand 0x01000000#32)) ∧
  (∀ (i : Instr) (s : State), i.badOperand = false → s.faulted = false →
    ∃ t, exec i s = .next t ∧ ¬(t.faulted = true ∧ statusCode t.status = 3))

/-- R408: a faulting command leaves every unit register as it was; it writes the status words and `RES_VALID` alone. -/
def Obligations.FaultsArePrecise : Prop :=
  ∀ (c : Command) (s t : State), s.faulted = false → perform c s = .next t → t.faulted = true →
    ∃ code, t = { s with status := statusRecordFault code s.status, statusCmd := c.cmd, resValid := false }

/-- R44, R140: `RES_VALID` is set by exactly the result-producing commands, when they complete and name an instance; every
other command keeps `RES`; a binary32 result has its high half 0. -/
def Obligations.ResultPort : Prop :=
  ∀ (i : Instr) (s : State), ∃ t, exec i s = .next t ∧
    (t.resValid = true ↔
      i.present = true ∧ (i.returnsSample || i.returnsWord) = true ∧ (i.needsSr = false ∨ s.srValid = true)) ∧
    (t.resValid = false → t.res = s.res) ∧
    (i.returnsSample = true → t.resValid = true → t.res.extractLsb' 32 32 = 0)

/-! ### What a command may touch -/

/-- R109: a command changes no register of an instance it does not name, except that `SYS.SETSR` marks the filters. -/
def Obligations.OtherInstancesUnchanged : Prop :=
  (∀ (i : Instr) (s t : State) (u : RegFile), exec i s = .next t → i.target ≠ some u →
    (∀ idx v, i ≠ .sysSetSr idx v) → State.sameAt u s t) ∧
  (∀ (idx : BitVec 4) (v : F64) (s t : State), exec (.sysSetSr idx v) s = .next t →
    t.osc = s.osc ∧ t.env = s.env ∧ t.lfo = s.lfo ∧
    (t.filt = s.filt ∨ t.filt = s.filt.map fun r => { r with dirty := true }))

/-- What a command to an instance does depends on that instance's registers, `SR` and the next draw alone (from R109 and R11):
two states that agree on them agree on them after it, and on its result. That the next draw is read off one draw count, which
all instances share and `State.agreeOn` compares, is the model's choice (log 6). -/
def Obligations.CommandSeesItsInstance : Prop :=
  ∀ (i : Instr) (u : RegFile) (s s' : State), i.target = some u → State.agreeOn u s s' →
    ∃ t t', exec i s = .next t ∧ exec i s' = .next t' ∧ State.agreeOn u t t' ∧
      t.resValid = t'.resValid ∧ (t.resValid = true → t.res = t'.res)

/-- R113, R354: the coefficient cache cannot be observed. Marking every filter's cache stale changes no result of any
command sequence, nor the state it leaves but for the cache itself. -/
def Obligations.CacheInvisible : Prop :=
  ∀ (cs : List Command) (s : State), s.Inv →
    (runCommands cs s).1 = (runCommands cs s.stale).1 ∧
    State.sameButCache (runCommands cs s).2 (runCommands cs s.stale).2

/-- R107, R452: a setter issued twice leaves what it left once, and so does a unit reset, `LFO.RESET` but for `held`, the
second draw; a read changes nothing but the result port. That the two draws are the next two of one sequence of free values,
counted in the state, is the model's choice (log 6). -/
def Obligations.Idempotence : Prop :=
  (∀ (c : Command) (i : Instr) (s : State), decode c = .ok i → i.isSetter = true →
    ∃ t, perform c s = .next t ∧ perform c t = .next t) ∧
  (∀ (i : Instr) (idx : BitVec 4) (s : State), i = .oscReset idx ∨ i = .envReset idx ∨ i = .filtReset idx →
    ∃ t, exec i s = .next t ∧ exec i t = .next t) ∧
  (∀ (i : Fin 2) (s : State), ∃ t u, exec (.lfoReset (instIdx i)) s = .next t ∧
    exec (.lfoReset (instIdx i)) t = .next u ∧
    u = { t with lfo := t.lfo.set i { t.lfo[i] with held := heldDraw (s.draws + 1) }, draws := s.draws + 2 }) ∧
  (∀ (i : Instr) (s t : State), i.returnsWord = true ∨ (∃ idx, i = .lfoPeek idx) → exec i s = .next t →
    t = { s with res := t.res, resValid := t.resValid })

/-- R42, R43, R57, R74: only `SYS.SETSR` writes `SR` and `SR_VALID`; only a fault writes the rest of `STATUS` and
`STATUS_CMD`; only `ENV.NOTEOFF` writes `releaseRate`; only `FILT.TICK` on a dirty filter writes `g` and `k`. -/
def Obligations.SpecialRegisterWriters : Prop :=
  ∀ (i : Instr) (s t : State), exec i s = .next t →
    (t.sr ≠ s.sr ∨ t.srValid ≠ s.srValid → ∃ idx v, i = .sysSetSr idx v) ∧
    (t.statusCmd ≠ s.statusCmd ∨ (∃ b, b ≠ 1 ∧ t.status.getLsbD b ≠ s.status.getLsbD b) → t.faulted = true) ∧
    ((∃ j, (t.envAt j).releaseRate ≠ (s.envAt j).releaseRate) → ∃ idx, i = .envNoteOff idx) ∧
    (∀ j, (t.filtAt j).g ≠ (s.filtAt j).g ∨ (t.filtAt j).k ≠ (s.filtAt j).k →
      (s.filtAt j).dirty = true ∧ ∃ idx x, i = .filtTick idx x)

/-- R48, R213 item 4: only `OSC.TICK`, `OSC.RESET` and `OSC.RANDPHASE` change an oscillator's phase. -/
def Obligations.OscPhaseWriters : Prop :=
  ∀ (i : Instr) (s t : State) (j : Fin 3), exec i s = .next t → (t.oscAt j).phase ≠ (s.oscAt j).phase →
    i = .oscTick (instIdx j) ∨ i = .oscReset (instIdx j) ∨ i = .oscRandPhase (instIdx j)

/-- R268 item 5: the envelope leaves Idle only by `ENV.NOTEON` or `ENV.NOTEOFF`. -/
def Obligations.EnvelopeLeavesIdle : Prop :=
  ∀ (i : Instr) (s t : State) (j : Fin 1), exec i s = .next t →
    (s.envAt j).state = .idle → (t.envAt j).state ≠ .idle →
    (∃ v, i = .envNoteOn (instIdx j) v) ∨ i = .envNoteOff (instIdx j)

/-- R68, R311 item 3: `held` changes only at `LFO.RESET` and at a tick that wraps; with SampleAndHold a tick that does not
wrap returns `held · depth` of the registers before it. -/
def Obligations.HeldChangesAtWraps : Prop :=
  (∀ (i : Instr) (s t : State) (j : Fin 2), exec i s = .next t → (t.lfoAt j).held ≠ (s.lfoAt j).held →
    i = .lfoReset (instIdx j) ∨
    (i = .lfoTick (instIdx j) ∧ Fp.lt (t.lfoAt j).phase (t.lfoAt j).lastPhase = true)) ∧
  (∀ (s : State) (j : Fin 2), s.srValid = true → (s.lfoAt j).wave = .sampleAndHold →
    ∃ t, exec (.lfoTick (instIdx j)) s = .next t ∧
      (Fp.lt (t.lfoAt j).phase (t.lfoAt j).lastPhase = false →
        t.res = (Fp.toBinary32 (Fp.mul (s.lfoAt j).held (s.lfoAt j).depth)).setWidth 64))

/-- R146, R451: `BLOCK.RESET` clears the running state of every unit and keeps `STATUS`, `SR`, `RES` and every parameter
register. That the two held values are the next two draws in the order of the commands is the model's choice (log 6). -/
def Obligations.BlockReset : Prop :=
  ∀ s : State, s.faulted = false →
    runCommands Pseudo.blockReset.commands s = ([],
      { s with
        resValid := false
        osc := s.osc.map fun r => { r with phase := F.ZERO }
        env := s.env.map fun r => { r with state := .idle, level := F.ZERO }
        lfo := #v[{ s.lfo[0] with phase := F.ZERO, lastPhase := F.ZERO, held := heldDraw s.draws },
                  { s.lfo[1] with phase := F.ZERO, lastPhase := F.ZERO, held := heldDraw (s.draws + 1) }]
        filt := s.filt.map fun r => { r with s := ⟨F.ZERO, F.ZERO, F.ZERO, F.ZERO⟩ }
        draws := s.draws + 2 })

/-! ### SYS.SETSR -/

/-- R175: a legal rate is stored, `SR_VALID` is set and every filter marked; any other operand is a bad one. -/
def Obligations.SysSetSr : Prop :=
  (∀ v, (Instr.sysSetSr 0 v).cmdWord = 0x01000000#32) ∧
  (∀ (v : F64) (s : State), Fp.isFinite v = true ∧ Fp.le 0x3FF0000000000000#64 v = true →
    exec (.sysSetSr 0 v) s = .next { s with
      sr := v
      status := s.status ||| 0x2#32
      filt := s.filt.map fun r => { r with dirty := true }
      resValid := false }) ∧
  (∀ (v : F64) (s : State), ¬(Fp.isFinite v = true ∧ Fp.le 0x3FF0000000000000#64 v = true) →
    exec (.sysSetSr 0 v) s = .next (s.raise .badOperand 0x01000000#32)) ∧
  (∀ s : State, ∃ t, exec (.sysSetSr 0 0x40E7700000000000#64) s = .next t ∧ t.sr = 0x40E7700000000000#64 ∧
    t.srValid = true)

/-! ### The oscillator -/

/-- R201. Its examples: 6000.0 is stored as it is, 5.0 as 20.0. -/
def Obligations.OscSetFreq : Prop :=
  let store := fun (i : Fin 3) (v : F64) (s : State) => { s with osc := s.osc.set i { s.osc[i] with freq := v } }
  SetsNumber Instr.oscSetFreq 0x10000000#32 FREQ_MIN FREQ_MAX store ∧
  StoresNumber Instr.oscSetFreq store (Fp.ofRatio 6000 1) (Fp.ofRatio 6000 1) ∧
  StoresNumber Instr.oscSetFreq store (Fp.ofRatio 5 1) (Fp.ofRatio 20 1)

/-- R202. -/
def Obligations.OscSetWave : Prop :=
  SetsEnumerator Instr.oscSetWave 0x11000000#32 [OscWave.sine, .saw, .square, .triangle]
    fun (i : Fin 3) w s => { s with osc := s.osc.set i { s.osc[i] with wave := w } }

/-- R203. Its corners and example: 0.0 is stored as 0.01, 1.0 as 0.99, 0.25 as it is. -/
def Obligations.OscSetPw : Prop :=
  let store := fun (i : Fin 3) (v : F64) (s : State) => { s with osc := s.osc.set i { s.osc[i] with pw := v } }
  SetsNumber Instr.oscSetPw 0x12000000#32 PW_MIN PW_MAX store ∧
  StoresNumber Instr.oscSetPw store (Fp.ofRatio 0 1) (Fp.ofRatio 1 100) ∧
  StoresNumber Instr.oscSetPw store (Fp.ofRatio 1 1) (Fp.ofRatio 99 100) ∧
  StoresNumber Instr.oscSetPw store (Fp.ofRatio 1 4) (Fp.ofRatio 1 4)

/-- R204 to R209: the sample of the phase before the advance, in each waveform, and the advance. -/
def Obligations.OscTick : Prop :=
  ∀ (i : Fin 3) (s : State),
    (Instr.oscTick (instIdx i)).cmdWord = 0x13000000#32 ||| idxBits i ∧
    (s.srValid = true → exec (.oscTick (instIdx i)) s = .next (
      let r := s.osc[i]
      let dt := Fp.div r.freq s.sr
      let p := r.phase
      let y :=
        match r.wave with
        | .sine => SIN (Fp.mul TWO_PI p)
        | .saw => Fp.sub (Fp.sub (Fp.mul F.TWO p) F.ONE) (polyBLEP p dt)
        | .square =>
          let naive := if Fp.lt p r.pw then F.ONE else F.MINUS_ONE
          let t2 := Fp.fmod1 (Fp.add p (Fp.sub F.ONE r.pw))
          Fp.sub (Fp.add naive (polyBLEP p dt)) (polyBLEP t2 dt)
        | .triangle =>
          let naive :=
            if Fp.lt p F.HALF then Fp.sub (Fp.mul F.FOUR p) F.ONE else Fp.sub F.THREE (Fp.mul F.FOUR p)
          let c := Fp.mul TRI_BLEP_SIGN (Fp.mul F.FOUR dt)
          let t2 := Fp.fmod1 (Fp.add p F.HALF)
          Fp.sub (Fp.add naive (Fp.mul c (polyBLEP p dt))) (Fp.mul c (polyBLEP t2 dt))
      { s with
        osc := s.osc.set i { r with phase := wrap (Fp.add p dt) }
        res := (Fp.toBinary32 y).setWidth 64
        resValid := true })) ∧
    (s.srValid = false →
      exec (.oscTick (instIdx i)) s = .next (s.raise .notConfigured (0x13000000#32 ||| idxBits i)))

/-- R210, R212: the phase is zeroed, or read with nothing but the result port written. -/
def Obligations.OscResetAndGetPhase : Prop :=
  ∀ (i : Fin 3) (s : State),
    (Instr.oscReset (instIdx i)).cmdWord = 0x14000000#32 ||| idxBits i ∧
    (Instr.oscGetPhase (instIdx i)).cmdWord = 0x16000000#32 ||| idxBits i ∧
    exec (.oscReset (instIdx i)) s =
      .next { s with osc := s.osc.set i { s.osc[i] with phase := F.ZERO }, resValid := false } ∧
    exec (.oscGetPhase (instIdx i)) s = .next { s with res := s.osc[i].phase, resValid := true }

/-- R211: the phase becomes a draw, a number of [0, 1). That a draw is the next of one sequence of free values, counted in
the state, is the model's choice (log 6). -/
def Obligations.OscRandPhase : Prop :=
  ∀ (i : Fin 3) (s : State),
    (Instr.oscRandPhase (instIdx i)).cmdWord = 0x15000000#32 ||| idxBits i ∧
    ∃ p, isPhase p = true ∧ exec (.oscRandPhase (instIdx i)) s =
      .next { s with osc := s.osc.set i { s.osc[i] with phase := p }, draws := s.draws + 1, resValid := false }

/-! ### The envelope -/

/-- R250 to R253. The examples: attack 0.25, decay 5.0 stored as 2.0, sustain 0.5, release 0.5. -/
def Obligations.EnvParameterSetters : Prop :=
  let attack := fun (i : Fin 1) (v : F64) (s : State) => { s with env := s.env.set i { s.env[i] with attack := v } }
  let decay := fun (i : Fin 1) (v : F64) (s : State) => { s with env := s.env.set i { s.env[i] with decay := v } }
  let sustain := fun (i : Fin 1) (v : F64) (s : State) => { s with env := s.env.set i { s.env[i] with sustain := v } }
  let release := fun (i : Fin 1) (v : F64) (s : State) => { s with env := s.env.set i { s.env[i] with release := v } }
  SetsNumber Instr.envSetAttack 0x20000000#32 ATTACK_MIN ATTACK_MAX attack ∧
  StoresNumber Instr.envSetAttack attack (Fp.ofRatio 1 4) (Fp.ofRatio 1 4) ∧
  SetsNumber Instr.envSetDecay 0x21000000#32 DECAY_MIN DECAY_MAX decay ∧
  StoresNumber Instr.envSetDecay decay (Fp.ofRatio 5 1) (Fp.ofRatio 2 1) ∧
  SetsNumber Instr.envSetSustain 0x22000000#32 SUSTAIN_MIN SUSTAIN_MAX sustain ∧
  StoresNumber Instr.envSetSustain sustain (Fp.ofRatio 1 2) (Fp.ofRatio 1 2) ∧
  SetsNumber Instr.envSetRelease 0x23000000#32 RELEASE_MIN RELEASE_MAX release ∧
  StoresNumber Instr.envSetRelease release (Fp.ofRatio 1 2) (Fp.ofRatio 1 2)

/-- R255: the velocity is stored and the attack starts, in every state; the level is kept. -/
def Obligations.EnvNoteOn : Prop :=
  SetsNumber Instr.envNoteOn 0x24000000#32 F.ZERO F.ONE
    fun (i : Fin 1) v s => { s with env := s.env.set i { s.env[i] with velocity := v, state := .attack } }

/-- R256: the release rate is latched from the level, the release time and `SR` as they stand, in every state. -/
def Obligations.EnvNoteOff : Prop :=
  ∀ (i : Fin 1) (s : State),
    (Instr.envNoteOff (instIdx i)).cmdWord = 0x25000000#32 ||| idxBits i ∧
    (s.srValid = true → exec (.envNoteOff (instIdx i)) s = .next (
      let r := s.env[i]
      { s with
        env := s.env.set i { r with releaseRate := Fp.div r.level (Fp.mul r.release s.sr), state := .release }
        resValid := false })) ∧
    (s.srValid = false →
      exec (.envNoteOff (instIdx i)) s = .next (s.raise .notConfigured (0x25000000#32 ||| idxBits i)))

/-- The step of each state, with the rates of the current registers, and the output after it (from the formulas of R254 and
R257 to R263). Two outcomes are the model's choice (DEDUCED, log 20): with a velocity of -0.0 the output in Idle is R263's
-0.0 and not the +0.0 of R258's derived sentence; and with a sustain of -0.0 the Decay and Sustain steps store the level -0.0
of R260 and R261, where R262 says that such a level cannot arise. -/
def Obligations.EnvTick : Prop :=
  ∀ (i : Fin 1) (s : State),
    (Instr.envTick (instIdx i)).cmdWord = 0x26000000#32 ||| idxBits i ∧
    (s.srValid = true → exec (.envTick (instIdx i)) s = .next (
      let r := s.env[i]
      let attackRate := Fp.div F.ONE (Fp.mul (if Fp.lt r.attack ATTACK_FLOOR then ATTACK_FLOOR else r.attack) s.sr)
      let decayRate := Fp.div (Fp.sub F.ONE r.sustain) (Fp.mul r.decay s.sr)
      let after : F64 × EnvState :=
        match r.state with
        | .idle => (r.level, .idle)
        | .attack =>
          let l := Fp.add r.level attackRate
          if Fp.le F.ONE l then (F.ONE, .decay) else (l, .attack)
        | .decay =>
          let l := Fp.sub r.level decayRate
          if Fp.le l r.sustain then (r.sustain, .sustain) else (l, .decay)
        | .sustain => (r.sustain, .sustain)
        | .release =>
          let l := Fp.sub r.level r.releaseRate
          if Fp.le l F.ZERO then (F.ZERO, .idle) else (l, .release)
      { s with
        env := s.env.set i { r with level := after.1, state := after.2 }
        res := (Fp.toBinary32 (Fp.mul after.1 r.velocity)).setWidth 64
        resValid := true })) ∧
    (s.srValid = false →
      exec (.envTick (instIdx i)) s = .next (s.raise .notConfigured (0x26000000#32 ||| idxBits i)))

/-- R264: hard silence; `velocity`, `releaseRate` and the four parameters are kept. -/
def Obligations.EnvReset : Prop :=
  ∀ (i : Fin 1) (s : State),
    (Instr.envReset (instIdx i)).cmdWord = 0x27000000#32 ||| idxBits i ∧
    exec (.envReset (instIdx i)) s =
      .next { s with env := s.env.set i { s.env[i] with state := .idle, level := F.ZERO }, resValid := false }

/-- R265, R266, R267: the state's number, whether it is not Idle, and the level without the velocity. -/
def Obligations.EnvReads : Prop :=
  ∀ (i : Fin 1) (s : State),
    (Instr.envGetState (instIdx i)).cmdWord = 0x28000000#32 ||| idxBits i ∧
    (Instr.envIsActive (instIdx i)).cmdWord = 0x29000000#32 ||| idxBits i ∧
    (Instr.envGetLevel (instIdx i)).cmdWord = 0x2A000000#32 ||| idxBits i ∧
    exec (.envGetState (instIdx i)) s = .next { s with
      res := (match s.env[i].state with | .idle => 0 | .attack => 1 | .decay => 2 | .sustain => 3 | .release => 4)
      resValid := true } ∧
    exec (.envIsActive (instIdx i)) s = .next { s with
      res := (match s.env[i].state with | .idle => 0 | .attack | .decay | .sustain | .release => 1)
      resValid := true } ∧
    exec (.envGetLevel (instIdx i)) s = .next { s with res := s.env[i].level, resValid := true }

/-! ### The LFO -/

/-- R300, R302, R303. -/
def Obligations.LfoEnumerators : Prop :=
  SetsEnumerator Instr.lfoSetWave 0x30000000#32 [LfoWave.sine, .triangle, .square, .sawtooth, .sampleAndHold]
    (fun (i : Fin 2) w s => { s with lfo := s.lfo.set i { s.lfo[i] with wave := w } }) ∧
  SetsEnumerator Instr.lfoSetRateMode 0x32000000#32 [RateMode.free, .sync]
    (fun (i : Fin 2) m s => { s with lfo := s.lfo.set i { s.lfo[i] with rateMode := m } }) ∧
  SetsEnumerator Instr.lfoSetSyncDiv 0x33000000#32 [(0 : SyncDiv), 1, 2, 3, 4, 5, 6]
    (fun (i : Fin 2) d s => { s with lfo := s.lfo.set i { s.lfo[i] with syncDiv := d } }) ∧
  (∀ d : SyncDiv, SYNC_BEATS d = Fp.ofRatio (2 ^ d.val) 4)

/-- R301, R304, R305. The examples: rate 100.0 stored as 20.0, tempo 120.0, depth 0.5. -/
def Obligations.LfoNumberSetters : Prop :=
  let rate := fun (i : Fin 2) (v : F64) (s : State) => { s with lfo := s.lfo.set i { s.lfo[i] with rate := v } }
  let bpm := fun (i : Fin 2) (v : F64) (s : State) => { s with lfo := s.lfo.set i { s.lfo[i] with bpm := v } }
  let depth := fun (i : Fin 2) (v : F64) (s : State) => { s with lfo := s.lfo.set i { s.lfo[i] with depth := v } }
  SetsNumber Instr.lfoSetRate 0x31000000#32 LFO_RATE_MIN LFO_RATE_MAX rate ∧
  StoresNumber Instr.lfoSetRate rate (Fp.ofRatio 100 1) (Fp.ofRatio 20 1) ∧
  SetsNumber Instr.lfoSetBpm 0x34000000#32 BPM_MIN BPM_MAX bpm ∧
  StoresNumber Instr.lfoSetBpm bpm (Fp.ofRatio 120 1) (Fp.ofRatio 120 1) ∧
  SetsNumber Instr.lfoSetDepth 0x35000000#32 DEPTH_MIN DEPTH_MAX depth ∧
  StoresNumber Instr.lfoSetDepth depth (Fp.ofRatio 1 2) (Fp.ofRatio 1 2)

/-- R306, R307, R308: the phase advances by the effective rate, `held` takes a draw on a wraparound, and the value is that
of the registers after. That the draw is the next of one sequence of free values is the model's choice (log 6). -/
def Obligations.LfoTick : Prop :=
  ∀ (i : Fin 2) (s : State),
    (Instr.lfoTick (instIdx i)).cmdWord = 0x36000000#32 ||| idxBits i ∧
    (s.srValid = true → exec (.lfoTick (instIdx i)) s = .next (
      let r := s.lfo[i]
      let effRate :=
        match r.rateMode with
        | .free => r.rate
        | .sync => Fp.div (Fp.div r.bpm F.SIXTY) (SYNC_BEATS r.syncDiv)
      let last := r.phase
      let p := wrap (Fp.add last (Fp.div effRate s.sr))
      let wraps := Fp.lt p last
      let held := if wraps then heldDraw s.draws else r.held
      let y :=
        match r.wave with
        | .sine => SIN (Fp.mul TWO_PI p)
        | .triangle =>
          if Fp.lt p F.HALF then Fp.sub (Fp.mul F.FOUR p) F.ONE else Fp.sub F.THREE (Fp.mul F.FOUR p)
        | .square => if Fp.lt p F.HALF then F.ONE else F.MINUS_ONE
        | .sawtooth => Fp.sub (Fp.mul F.TWO p) F.ONE
        | .sampleAndHold => held
      { s with
        lfo := s.lfo.set i { r with phase := p, lastPhase := last, held := held }
        res := (Fp.toBinary32 (Fp.mul y r.depth)).setWidth 64
        resValid := true
        draws := if wraps then s.draws + 1 else s.draws })) ∧
    (s.srValid = false →
      exec (.lfoTick (instIdx i)) s = .next (s.raise .notConfigured (0x36000000#32 ||| idxBits i)))

/-- The value of the registers as they stand, with no advance and no `SR`; right after a tick it is that tick's result (from
the formulas of R307 and R309). That with a depth of -0.0 the value after `LFO.RESET` with a sine is R309's -0.0, where R310's
example says +0.0, is the model's choice (DEDUCED, log 20). -/
def Obligations.LfoPeek : Prop :=
  ∀ (i : Fin 2) (s : State),
    (Instr.lfoPeek (instIdx i)).cmdWord = 0x37000000#32 ||| idxBits i ∧
    exec (.lfoPeek (instIdx i)) s = .next (
      let r := s.lfo[i]
      let y :=
        match r.wave with
        | .sine => SIN (Fp.mul TWO_PI r.phase)
        | .triangle =>
          if Fp.lt r.phase F.HALF then Fp.sub (Fp.mul F.FOUR r.phase) F.ONE
          else Fp.sub F.THREE (Fp.mul F.FOUR r.phase)
        | .square => if Fp.lt r.phase F.HALF then F.ONE else F.MINUS_ONE
        | .sawtooth => Fp.sub (Fp.mul F.TWO r.phase) F.ONE
        | .sampleAndHold => r.held
      { s with res := (Fp.toBinary32 (Fp.mul y r.depth)).setWidth 64, resValid := true }) ∧
    (∀ t, s.srValid = true → exec (.lfoTick (instIdx i)) s = .next t → exec (.lfoPeek (instIdx i)) t = .next t)

/-- R310: the cycle restarts and `held` takes a draw of [-1, 1]. That the draw is the next of one sequence of free values is
the model's choice (log 6). -/
def Obligations.LfoReset : Prop :=
  ∀ (i : Fin 2) (s : State),
    (Instr.lfoReset (instIdx i)).cmdWord = 0x38000000#32 ||| idxBits i ∧
    ∃ h, inRange F.MINUS_ONE F.ONE h = true ∧ exec (.lfoReset (instIdx i)) s = .next { s with
      lfo := s.lfo.set i { s.lfo[i] with phase := F.ZERO, lastPhase := F.ZERO, held := h }
      draws := s.draws + 1
      resValid := false }

/-! ### The filter -/

/-- R350. -/
def Obligations.FiltSetMode : Prop :=
  SetsEnumerator Instr.filtSetMode 0x40000000#32 [FiltMode.lowPass, .bandPass, .highPass]
    fun (i : Fin 1) m s => { s with filt := s.filt.set i { s.filt[i] with mode := m } }

/-- R351, R352: the parameter is stored and the cache marked. The examples: cutoff 5.0 stored as 20.0, resonance 1.5 as
1.0. -/
def Obligations.FiltNumberSetters : Prop :=
  let cutoff := fun (i : Fin 1) (v : F64) (s : State) =>
    { s with filt := s.filt.set i { s.filt[i] with cutoff := v, dirty := true } }
  let res := fun (i : Fin 1) (v : F64) (s : State) =>
    { s with filt := s.filt.set i { s.filt[i] with res := v, dirty := true } }
  SetsNumber Instr.filtSetCutoff 0x41000000#32 CUTOFF_MIN CUTOFF_MAX cutoff ∧
  StoresNumber Instr.filtSetCutoff cutoff (Fp.ofRatio 5 1) (Fp.ofRatio 20 1) ∧
  SetsNumber Instr.filtSetRes 0x42000000#32 RES_MIN RES_MAX res ∧
  StoresNumber Instr.filtSetRes res (Fp.ofRatio 3 2) (Fp.ofRatio 1 1)

/-- R353, R355 to R362: one sample through the ladder, with the refresh, the healing and both clamps. -/
def Obligations.FiltTick : Prop :=
  ∀ (i : Fin 1) (x : F32) (s : State),
    (Instr.filtTick (instIdx i) x).cmdWord = 0x43000000#32 ||| idxBits i ∧
    (s.srValid = true → exec (.filtTick (instIdx i) x) s = .next (
      let r := s.filt[i]
      let bounded := fun v =>
        if Fp.lt v (Fp.negate CLAMP_BOUND) then Fp.negate CLAMP_BOUND else if Fp.lt CLAMP_BOUND v then CLAMP_BOUND else v
      let ratio := clamp (Fp.div r.cutoff s.sr) F.ZERO FC_MAX_RATIO
      let g := if r.dirty then TAN (Fp.mul PI ratio) else r.g
      let k := if r.dirty then Fp.mul r.res FB_SCALE else r.k
      let v := Fp.sub (Fp.fromBinary32 x) (Fp.mul r.s.s3 k)
      let u := TANH v
      let t0 := Fp.add r.s.s0 (Fp.mul g (Fp.sub u r.s.s0))
      let t1 := Fp.add r.s.s1 (Fp.mul g (Fp.sub t0 r.s.s1))
      let t2 := Fp.add r.s.s2 (Fp.mul g (Fp.sub t1 r.s.s2))
      let t3 := Fp.add r.s.s3 (Fp.mul g (Fp.sub t2 r.s.s3))
      if Fp.isFinite t0 && Fp.isFinite t1 && Fp.isFinite t2 && Fp.isFinite t3 then
        let y :=
          match r.mode with
          | .lowPass => bounded t3
          | .bandPass =>
            (match Config.bpVariant with
              | .s1MinusS4 => Fp.sub (bounded t0) (bounded t3)
              | .s2 => bounded t1)
          | .highPass =>
            (match Config.hpSrc with
              | .v => Fp.sub v (bounded t3)
              | .u => Fp.sub u (bounded t3))
        { s with
          filt := s.filt.set i
            { r with g := g, k := k, dirty := false, s := ⟨bounded t0, bounded t1, bounded t2, bounded t3⟩ }
          res := (Fp.toBinary32 (bounded (Fp.mul y (RES_COMP r.res ratio)))).setWidth 64
          resValid := true }
      else
        { s with
          filt := s.filt.set i { r with g := g, k := k, dirty := false, s := ⟨F.ZERO, F.ZERO, F.ZERO, F.ZERO⟩ }
          res := 0
          resValid := true })) ∧
    (s.srValid = false →
      exec (.filtTick (instIdx i) x) s = .next (s.raise .notConfigured (0x43000000#32 ||| idxBits i)))

/-- R359 and the NaN corner of R355: a NaN sample heals the ladder and returns +0, in every state of the filter. -/
def Obligations.FiltHealsNaN : Prop :=
  ∀ (i : Fin 1) (x : F32) (s : State), s.srValid = true → Fp.isNaN32 x = true →
    ∃ t, exec (.filtTick (instIdx i) x) s = .next t ∧ t.res = 0 ∧ t.resValid = true ∧ t.status = s.status ∧
      (t.filtAt i).s = ⟨F.ZERO, F.ZERO, F.ZERO, F.ZERO⟩

/-- R363: the stages are zeroed; `mode`, `cutoff`, `res`, `g`, `k` and `dirty` are kept. -/
def Obligations.FiltReset : Prop :=
  ∀ (i : Fin 1) (s : State),
    (Instr.filtReset (instIdx i)).cmdWord = 0x44000000#32 ||| idxBits i ∧
    exec (.filtReset (instIdx i)) s = .next { s with
      filt := s.filt.set i { s.filt[i] with s := ⟨F.ZERO, F.ZERO, F.ZERO, F.ZERO⟩ }
      resValid := false }

/-! ### Numbers -/

/-- R16, R170: the four operations round once, to nearest, ties to even, and keep the sign of zero. The overflow limit and the
signs of zero sums, differences, products and quotients are those of IEEE 754 as the model takes it (PRESUMED, log 12). -/
def Obligations.OperationsRoundToNearest : Prop :=
  ∀ x y : F64, Fp.isFinite x = true → Fp.isFinite y = true →
    Fp.RoundsTo (Fp.value x + Fp.value y) 1 (Fp.add x y) ∧
    Fp.RoundsTo (Fp.value x - Fp.value y) 1 (Fp.sub x y) ∧
    (Fp.value x + Fp.value y = 0 → Fp.neg? (Fp.add x y) = (Fp.neg? x && Fp.neg? y)) ∧
    (Fp.value x + Fp.value y ≠ 0 → Fp.neg? (Fp.add x y) = decide (Fp.value x + Fp.value y < 0)) ∧
    (Fp.value x - Fp.value y = 0 → Fp.neg? (Fp.sub x y) = (Fp.neg? x && !Fp.neg? y)) ∧
    (Fp.value x - Fp.value y ≠ 0 → Fp.neg? (Fp.sub x y) = decide (Fp.value x - Fp.value y < 0)) ∧
    Fp.RoundsTo (Fp.value x * Fp.value y) Fp.one64 (Fp.mul x y) ∧
    Fp.neg? (Fp.mul x y) = (Fp.neg? x != Fp.neg? y) ∧
    (Fp.isZero y = false →
      Fp.RoundsTo (Fp.value x * Fp.one64) (Fp.value y) (Fp.div x y) ∧
      Fp.neg? (Fp.div x y) = (Fp.neg? x != Fp.neg? y))

/-- R16: `from_binary32` is exact, so rounding its value to binary32 gives the word back. -/
def Obligations.Binary32RoundTrip : Prop :=
  ∀ x : F32, Fp.isNaN32 x = false → Fp.toBinary32 (Fp.fromBinary32 x) = x

/-- R174: `wrap` is the exact fractional part, a number of [0, 1). -/
def Obligations.WrapIsFractionalPart : Prop :=
  ∀ p : F64, Fp.isFinite p = true → Fp.le F.ZERO p = true →
    isPhase (wrap p) = true ∧ Fp.value (wrap p) = Fp.value p % Fp.one64

/-- R179, R206: at the edge the correction is -1 exactly, so the corrected saw is 0 there, at every finite increment. -/
def Obligations.PolyBlepAtTheEdge : Prop :=
  ∀ dt : F64, Fp.isFinite dt = true → Fp.lt F.ZERO dt = true →
    polyBLEP F.ZERO dt = F.MINUS_ONE ∧ sawValue F.ZERO dt = F.ZERO

/-- R213 item 1: after `OSC.RESET` the first tick of a sine is +0, at every frequency and rate. -/
def Obligations.FirstSineTick : Prop :=
  ∀ (i : Fin 3) (s : State), s.srValid = true → (s.oscAt i).wave = .sine →
    ∃ t u, exec (.oscReset (instIdx i)) s = .next t ∧ exec (.oscTick (instIdx i)) t = .next u ∧
      u.res = 0 ∧ u.resValid = true

/-- R12, R362: the properties of the configuration functions, the greatest argument of `TAN` in [0, 0.45·π] being the
binary64 product `PI · 0.45` (log 7). -/
def Obligations.ConfigurationFunctions : Prop :=
  SIN F.ZERO = F.ZERO ∧
  (∀ x, Fp.isFinite x = true → Fp.isFinite (SIN x) = true ∧ inRange F.MINUS_ONE F.ONE (SIN x) = true) ∧
  (∀ x, Fp.isFinite x = false → Fp.isNaN (SIN x) = true) ∧
  TAN F.ZERO = F.ZERO ∧
  (∀ x, Fp.lt F.ZERO x = true → Fp.le x TAN_ARG_MAX = true →
    Fp.isFinite (TAN x) = true ∧ Fp.lt F.ZERO (TAN x) = true) ∧
  (∀ x, Fp.isZero x = true → TANH x = x) ∧
  (∀ x, Fp.isFinite x = true → inRange F.MINUS_ONE F.ONE (TANH x) = true ∧ TANH (Fp.negate x) = Fp.negate (TANH x)) ∧
  TANH (Fp.pack false Fp.infMag) = F.ONE ∧ TANH (Fp.pack true Fp.infMag) = F.MINUS_ONE ∧
  (∀ x, Fp.isNaN x = true → Fp.isNaN (TANH x) = true) ∧
  (∀ res ratio, Fp.isFinite (RES_COMP res ratio) = true) ∧
  (∀ res ratio, inRange RES_MIN RES_MAX res = true → Fp.lt F.ZERO ratio = true → Fp.le ratio FC_MAX_RATIO = true →
    Fp.le F.ONE (RES_COMP res ratio) = true) ∧
  (∀ ratio, RES_COMP F.ZERO ratio = F.ONE)

/-- R77, R263: from every state that meets the invariant, the envelope's output is a number of [0, 1]. -/
def Obligations.EnvOutputInUnit : Prop :=
  ∀ (i : Fin 1) (s : State), s.Inv → s.srValid = true →
    ∃ t, exec (.envTick (instIdx i)) s = .next t ∧ t.resValid = true ∧
      inRange F.ZERO F.ONE (Fp.fromBinary32 (t.res.setWidth 32)) = true

/-- R364 item 1: from every state that meets the invariant and for every input, NaN and infinities too, each stage is
finite and within the bound, and so is the sample returned. That the parameter `CLAMP_BOUND` is a number that rounding to
binary32 does not make greater, without which the sample could be returned outside it, is the model's choice (log 9). -/
def Obligations.FiltOutputBounded : Prop :=
  ∀ (i : Fin 1) (x : F32) (s : State), s.Inv → s.srValid = true →
    ∃ t, exec (.filtTick (instIdx i) x) s = .next t ∧ t.resValid = true ∧
      stageLegal (t.filtAt i).s.s0 = true ∧ stageLegal (t.filtAt i).s.s1 = true ∧
      stageLegal (t.filtAt i).s.s2 = true ∧ stageLegal (t.filtAt i).s.s3 = true ∧
      (let y := Fp.fromBinary32 (t.res.setWidth 32)
       Fp.isFinite y = true ∧ inRange (Fp.negate CLAMP_BOUND) CLAMP_BOUND y = true)
end

