-- ==== Sys2Proof/Laws/Decode.lean ====
section
/-! SUPPORT. The fields of a command word: a word made of fields reads back as them, and a word is made of its fields. -/

namespace Sys2Proof

theorem toNat_cmdWordOf {u o : Nat} (hu : u < 16) (ho : o < 16) (idx sel : BitVec 4) :
    (cmdWordOf u o idx sel).toNat = u * 2 ^ 28 + o * 2 ^ 24 + idx.toNat * 2 ^ 20 + sel.toNat := by
  have h1 := idx.isLt
  have h2 := sel.isLt
  rw [cmdWordOf, BitVec.toNat_ofNat, Nat.mod_eq_of_lt]
  omega

theorem unitOf_cmdWordOf {u o : Nat} (hu : u < 16) (ho : o < 16) (idx sel : BitVec 4) :
    unitOf (cmdWordOf u o idx sel) = u := by
  have h1 := idx.isLt
  have h2 := sel.isLt
  rw [unitOf, toNat_cmdWordOf hu ho]; omega

theorem opOf_cmdWordOf {u o : Nat} (hu : u < 16) (ho : o < 16) (idx sel : BitVec 4) :
    opOf (cmdWordOf u o idx sel) = o := by
  have h1 := idx.isLt
  have h2 := sel.isLt
  rw [opOf, toNat_cmdWordOf hu ho]; omega

theorem reservedOf_cmdWordOf {u o : Nat} (hu : u < 16) (ho : o < 16) (idx sel : BitVec 4) :
    reservedOf (cmdWordOf u o idx sel) = 0 := by
  have h1 := idx.isLt
  have h2 := sel.isLt
  rw [reservedOf, toNat_cmdWordOf hu ho]; omega

theorem idxOf_cmdWordOf {u o : Nat} (hu : u < 16) (ho : o < 16) (idx sel : BitVec 4) :
    idxOf (cmdWordOf u o idx sel) = idx := by
  have h1 := idx.isLt
  have h2 := sel.isLt
  apply BitVec.eq_of_toNat_eq
  rw [idxOf, BitVec.toNat_ofNat, toNat_cmdWordOf hu ho]; omega

theorem selOf_cmdWordOf {u o : Nat} (hu : u < 16) (ho : o < 16) (idx sel : BitVec 4) :
    selOf (cmdWordOf u o idx sel) = sel := by
  have h1 := idx.isLt
  have h2 := sel.isLt
  apply BitVec.eq_of_toNat_eq
  rw [selOf, BitVec.toNat_ofNat, toNat_cmdWordOf hu ho]; omega

/-- A word whose reserved bits are 0 is made of its other fields. -/
theorem cmdWordOf_fields {w : CmdWord} (h : reservedOf w = 0) :
    cmdWordOf (unitOf w) (opOf w) (idxOf w) (selOf w) = w := by
  have hw := w.isLt
  apply BitVec.eq_of_toNat_eq
  have hu : unitOf w < 16 := by unfold unitOf; omega
  have ho : opOf w < 16 := by unfold opOf; omega
  rw [toNat_cmdWordOf hu ho]
  unfold reservedOf at h
  simp only [unitOf, opOf, idxOf, selOf, BitVec.toNat_ofNat]
  omega

theorem takesNoSel_ok {sel : BitVec 4} {i j : Instr} (h : takesNoSel sel i = .ok j) : sel = 0 ∧ j = i := by
  unfold takesNoSel at h
  split at h
  · rename_i hs; injection h with h; exact ⟨hs, h.symm⟩
  · injection h

theorem takesSel_ok {n : Nat} {sel : BitVec 4} {i j : Instr} (h : takesSel n sel i = .ok j) : sel.toNat ≤ n ∧ j = i := by
  unfold takesSel at h
  split at h
  · rename_i hs; injection h with h; exact ⟨hs, h.symm⟩
  · injection h

/-! ### Port words as bytes (R105) -/

theorem portBytes_length (n w : Nat) : (portBytes n w).length = n := by
  induction n generalizing w with
  | zero => rfl
  | succ n ih => simp [portBytes, ih]

theorem portWord_portBytes (n w : Nat) : portWord (portBytes n w) = w % 256 ^ n := by
  induction n generalizing w with
  | zero => simp [portBytes, portWord, Nat.mod_one]
  | succ n ih =>
    have e : 256 ^ (n + 1) = 256 * 256 ^ n := by rw [pow_succ, Nat.mul_comm]
    rw [portBytes, portWord, ih, BitVec.toNat_ofNat, e, Nat.mod_mul]

end Sys2Proof
end

