-- ==== Sys2Proof/Laws/Rounding.lean ====
section
/-! SUPPORT. Rounding to a format: magnitude codes are ordered as their values are, rounding keeps the order and is exact
on the format's own values. Every bound on a computed number comes from these three facts. -/

namespace Sys2Proof.Fp

theorem magValue_of_field_zero {fb m : Nat} (h : m < 2 ^ fb) : magValue fb m = m := by
  simp [magValue, Nat.div_eq_of_lt h, Nat.mod_eq_of_lt h]

theorem magValue_of_field {fb e f : Nat} (hf : f < 2 ^ fb) :
    magValue fb ((e + 1) * 2 ^ fb + f) = (2 ^ fb + f) * 2 ^ e := by
  have hp : 0 < 2 ^ fb := Nat.two_pow_pos fb
  have hd : ((e + 1) * 2 ^ fb + f) / 2 ^ fb = e + 1 := by
    rw [Nat.add_comm, Nat.add_mul_div_right _ _ hp, Nat.div_eq_of_lt hf, Nat.zero_add]
  have hm : ((e + 1) * 2 ^ fb + f) % 2 ^ fb = f := by
    rw [Nat.add_comm, Nat.add_mul_mod_self_right, Nat.mod_eq_of_lt hf]
  simp [magValue, hd, hm]

/-- A code is a fraction below the first binade, or a fraction and an exponent field. -/
theorem code_cases (fb m : Nat) :
    m < 2 ^ fb ∨ ∃ e f, f < 2 ^ fb ∧ m = (e + 1) * 2 ^ fb + f := by
  by_cases h : m < 2 ^ fb
  · exact .inl h
  · have hp : 0 < 2 ^ fb := Nat.two_pow_pos fb
    refine .inr ⟨m / 2 ^ fb - 1, m % 2 ^ fb, Nat.mod_lt _ hp, ?_⟩
    have h1 : 1 ≤ m / 2 ^ fb := Nat.div_pos (by omega) hp
    have := Nat.div_add_mod m (2 ^ fb)
    rw [Nat.sub_add_cancel h1, Nat.mul_comm]
    exact this.symm

theorem magValue_lt_succ (fb m : Nat) : magValue fb m < magValue fb (m + 1) := by
  have hp : 0 < 2 ^ fb := Nat.two_pow_pos fb
  rcases code_cases fb m with h | ⟨e, f, hf, rfl⟩
  · rw [magValue_of_field_zero h]
    by_cases h' : m + 1 < 2 ^ fb
    · rw [magValue_of_field_zero h']; omega
    · have : m + 1 = (0 + 1) * 2 ^ fb + 0 := by omega
      rw [this, magValue_of_field hp]; omega
  · rw [magValue_of_field hf]
    by_cases h' : f + 1 < 2 ^ fb
    · rw [Nat.add_assoc, magValue_of_field h']
      exact Nat.mul_lt_mul_of_pos_right (by omega) (Nat.two_pow_pos e)
    · have : (e + 1) * 2 ^ fb + f + 1 = (e + 1 + 1) * 2 ^ fb + 0 := by
        have : f + 1 = 2 ^ fb := by omega
        rw [Nat.add_assoc, this]; ring
      rw [this, magValue_of_field hp, pow_succ]
      have he : 0 < 2 ^ e := Nat.two_pow_pos e
      nlinarith

theorem magValue_strictMono (fb : Nat) : StrictMono (magValue fb) :=
  strictMono_nat_of_lt_succ (magValue_lt_succ fb)

theorem magValue_le_iff {fb a b : Nat} : magValue fb a ≤ magValue fb b ↔ a ≤ b :=
  (magValue_strictMono fb).le_iff_le

theorem magValue_lt_iff {fb a b : Nat} : magValue fb a < magValue fb b ↔ a < b :=
  (magValue_strictMono fb).lt_iff_lt

@[simp] theorem magValue_zero (fb : Nat) : magValue fb 0 = 0 := by simp [magValue]

/-! ### Rounding to an integer -/

theorem roundHalfEven_exact {k d : Nat} (hd : 0 < d) : roundHalfEven (k * d) d = k := by
  simp [roundHalfEven, Nat.mul_div_cancel _ hd, hd]

theorem le_roundHalfEven (n d : Nat) : n / d ≤ roundHalfEven n d := by
  unfold roundHalfEven; split <;> omega

theorem roundHalfEven_le (n d : Nat) : roundHalfEven n d ≤ n / d + 1 := by
  unfold roundHalfEven; split <;> omega

/-- Rounding keeps the order: `n / d ≤ n' / d'`. -/
theorem roundHalfEven_mono {n d n' d' : Nat} (hd : 0 < d) (hd' : 0 < d') (h : n * d' ≤ n' * d) :
    roundHalfEven n d ≤ roundHalfEven n' d' := by
  have hq : n / d ≤ n' / d' := by
    rw [Nat.le_div_iff_mul_le hd']
    have h1 : n / d * d ≤ n := Nat.div_mul_le_self n d
    have h2 : n / d * d' * d ≤ n' * d := by
      calc n / d * d' * d = n / d * d * d' := by ring
        _ ≤ n * d' := Nat.mul_le_mul_right _ h1
        _ ≤ n' * d := h
    exact Nat.le_of_mul_le_mul_right h2 hd
  rcases Nat.lt_or_ge (n / d) (n' / d') with hlt | hge
  · exact (roundHalfEven_le n d).trans (hlt.trans_le (le_roundHalfEven n' d'))
  · have he : n / d = n' / d' := Nat.le_antisymm hq hge
    have hn := Nat.div_add_mod n d
    have hn' := Nat.div_add_mod n' d'
    have hr : n % d * d' ≤ n' % d' * d := by
      have : d * (n / d) * d' + n % d * d' ≤ d' * (n' / d') * d + n' % d' * d := by
        rw [← Nat.add_mul, ← Nat.add_mul, hn, hn']; exact h
      have e2 : d * (n / d) * d' = d' * (n' / d') * d := by rw [he]; ring
      omega
    by_cases hup : 2 * (n' % d') < d' ∨ (2 * (n' % d') = d' ∧ n' / d' % 2 = 0)
    · have hlow : 2 * (n % d) < d ∨ (2 * (n % d) = d ∧ n / d % 2 = 0) := by
        rcases hup with h1 | ⟨h1, h2⟩
        · left
          have : 2 * (n % d) * d' < d * d' := by
            calc 2 * (n % d) * d' = 2 * (n % d * d') := by ring
              _ ≤ 2 * (n' % d' * d) := by omega
              _ = 2 * (n' % d') * d := by ring
              _ < d' * d := Nat.mul_lt_mul_of_pos_right h1 hd
              _ = d * d' := by ring
          exact Nat.lt_of_mul_lt_mul_right this
        · have : 2 * (n % d) * d' ≤ d * d' := by
            calc 2 * (n % d) * d' = 2 * (n % d * d') := by ring
              _ ≤ 2 * (n' % d' * d) := by omega
              _ = 2 * (n' % d') * d := by ring
              _ = d' * d := by rw [h1]
              _ = d * d' := by ring
          have hle := Nat.le_of_mul_le_mul_right this hd'
          rcases Nat.lt_or_ge (2 * (n % d)) d with h3 | h3
          · exact .inl h3
          · exact .inr ⟨by omega, by rw [he]; exact h2⟩
      unfold roundHalfEven
      rw [if_pos hup, if_pos hlow]; omega
    · have : roundHalfEven n' d' = n' / d' + 1 := by unfold roundHalfEven; rw [if_neg hup]
      rw [this, ← he]; exact roundHalfEven_le n d

/-! ### Rounding to a format -/

/-- Dividing by a product divides twice. -/
theorem div_mul_pow (num den e : Nat) : num / (den * 2 ^ e) = num / den / 2 ^ e :=
  (Nat.div_div_eq_div_mul num den (2 ^ e)).symm

theorem roundMag_upper (fb num den : Nat) :
    roundMag fb num den ≤ (Nat.log2 (num / den) - fb + 1) * 2 ^ fb + 2 ^ fb := by
  set q := num / den with hq
  have h1 : num / (den * 2 ^ (Nat.log2 q - fb)) < 2 ^ (fb + 1) := by
    rw [div_mul_pow, ← hq, Nat.div_lt_iff_lt_mul (Nat.two_pow_pos _), ← pow_add]
    by_cases h0 : q = 0
    · rw [h0]; exact Nat.two_pow_pos _
    · have : q < 2 ^ (Nat.log2 q + 1) := Nat.lt_log2_self
      exact this.trans_le (Nat.pow_le_pow_right (by norm_num) (by omega))
  have h2 := roundHalfEven_le num (den * 2 ^ (Nat.log2 q - fb))
  have h3 : roundMag fb num den = (Nat.log2 q - fb) * 2 ^ fb + roundHalfEven num (den * 2 ^ (Nat.log2 q - fb)) := rfl
  rw [h3, Nat.add_mul]
  have : 2 ^ (fb + 1) = 2 ^ fb + 2 ^ fb := by rw [pow_succ]; ring
  omega

theorem roundMag_lower {fb num den : Nat} (h : fb < Nat.log2 (num / den)) :
    (Nat.log2 (num / den) - fb) * 2 ^ fb + 2 ^ fb ≤ roundMag fb num den := by
  set q := num / den with hq
  have h0 : q ≠ 0 := by intro h0; rw [h0] at h; simp at h
  have h1 : 2 ^ fb ≤ num / (den * 2 ^ (Nat.log2 q - fb)) := by
    rw [div_mul_pow, ← hq, Nat.le_div_iff_mul_le (Nat.two_pow_pos _), ← pow_add]
    have : 2 ^ Nat.log2 q ≤ q := Nat.log2_self_le h0
    exact (Nat.pow_le_pow_right (by norm_num) (by omega)).trans this
  have h2 := le_roundHalfEven num (den * 2 ^ (Nat.log2 q - fb))
  have h3 : roundMag fb num den = (Nat.log2 q - fb) * 2 ^ fb + roundHalfEven num (den * 2 ^ (Nat.log2 q - fb)) := rfl
  omega

theorem log2_mono {a b : Nat} (h : a ≤ b) : Nat.log2 a ≤ Nat.log2 b := by
  rw [Nat.log2_eq_log_two, Nat.log2_eq_log_two]; exact Nat.log_mono_right h

/-- Rounding to a format keeps the order: `n / d ≤ n' / d'`. -/
theorem roundMag_mono {fb n d n' d' : Nat} (hd : 0 < d) (hd' : 0 < d') (h : n * d' ≤ n' * d) :
    roundMag fb n d ≤ roundMag fb n' d' := by
  have hq : n / d ≤ n' / d' := by
    rw [Nat.le_div_iff_mul_le hd']
    have h1 : n / d * d ≤ n := Nat.div_mul_le_self n d
    have h2 : n / d * d' * d ≤ n' * d := by
      calc n / d * d' * d = n / d * d * d' := by ring
        _ ≤ n * d' := Nat.mul_le_mul_right _ h1
        _ ≤ n' * d := h
    exact Nat.le_of_mul_le_mul_right h2 hd
  have hl := log2_mono hq
  rcases Nat.lt_or_ge (Nat.log2 (n / d) - fb) (Nat.log2 (n' / d') - fb) with hlt | hge
  · have h1 := roundMag_upper fb n d
    have h2 := roundMag_lower (fb := fb) (num := n') (den := d') (by omega)
    have h3 : (Nat.log2 (n / d) - fb + 1) * 2 ^ fb ≤ (Nat.log2 (n' / d') - fb) * 2 ^ fb :=
      Nat.mul_le_mul_right _ hlt
    omega
  · have he : Nat.log2 (n / d) - fb = Nat.log2 (n' / d') - fb := by omega
    unfold roundMag
    simp only [he]
    have hp : 0 < 2 ^ (Nat.log2 (n' / d') - fb) := Nat.two_pow_pos _
    have := roundHalfEven_mono (n := n) (d := d * 2 ^ (Nat.log2 (n' / d') - fb)) (n' := n')
      (d' := d' * 2 ^ (Nat.log2 (n' / d') - fb)) (Nat.mul_pos hd hp) (Nat.mul_pos hd' hp)
      (by calc n * (d' * 2 ^ (Nat.log2 (n' / d') - fb)) = n * d' * 2 ^ (Nat.log2 (n' / d') - fb) := by ring
            _ ≤ n' * d * 2 ^ (Nat.log2 (n' / d') - fb) := Nat.mul_le_mul_right _ h
            _ = n' * (d * 2 ^ (Nat.log2 (n' / d') - fb)) := by ring)
    omega

/-- Rounding to a format is exact on the format's own values. -/
theorem roundMag_exact (fb m : Nat) {d : Nat} (hd : 0 < d) : roundMag fb (magValue fb m * d) d = m := by
  rcases code_cases fb m with h | ⟨e, f, hf, rfl⟩
  · rw [magValue_of_field_zero h]
    unfold roundMag
    simp only [Nat.mul_div_cancel _ hd]
    have : Nat.log2 m - fb = 0 := by
      by_cases h0 : m = 0
      · simp [h0]
      · have := (Nat.log2_lt h0).2 h; omega
    simp [this, roundHalfEven_exact hd]
  · rw [magValue_of_field hf]
    unfold roundMag
    simp only [Nat.mul_div_cancel _ hd]
    have hpf : 0 < 2 ^ fb := Nat.two_pow_pos fb
    have hpe : 0 < 2 ^ e := Nat.two_pow_pos e
    have h0 : (2 ^ fb + f) * 2 ^ e ≠ 0 := Nat.mul_ne_zero (by omega) (by omega)
    have hl : Nat.log2 ((2 ^ fb + f) * 2 ^ e) = fb + e := by
      rw [Nat.log2_eq_iff h0]
      constructor
      · rw [pow_add]; exact Nat.mul_le_mul_right _ (by omega)
      · rw [show fb + e + 1 = (fb + 1) + e by omega, pow_add]
        refine Nat.mul_lt_mul_of_pos_right ?_ hpe
        rw [pow_succ]; omega
    rw [hl, Nat.add_sub_cancel_left]
    rw [Nat.mul_assoc, Nat.mul_comm (2 ^ e) d, roundHalfEven_exact (Nat.mul_pos hd hpe)]
    ring

/-- What is at most a value of the format rounds to at most its code. -/
theorem roundMag_le {fb num den m : Nat} (hd : 0 < den) (h : num ≤ magValue fb m * den) :
    roundMag fb num den ≤ m := by
  have := roundMag_mono (fb := fb) (n := num) (d := den) (n' := magValue fb m) (d' := 1) hd one_pos (by omega)
  have e := roundMag_exact fb m one_pos
  rw [Nat.mul_one] at e
  omega

/-- What is at least a value of the format rounds to at least its code. -/
theorem le_roundMag {fb num den m : Nat} (hd : 0 < den) (h : magValue fb m * den ≤ num) :
    m ≤ roundMag fb num den := by
  have := roundMag_mono (fb := fb) (n := magValue fb m) (d := 1) (n' := num) (d' := den) one_pos hd (by omega)
  have e := roundMag_exact fb m one_pos
  rw [Nat.mul_one] at e
  omega

@[simp] theorem roundMag_zero (fb : Nat) {den : Nat} (hd : 0 < den) : roundMag fb 0 den = 0 :=
  Nat.le_zero.1 (roundMag_le hd (by simp))

/-- Every `k · 2 ^ j` with `k` of at most `fb + 1` bits is a value of the format (its exponent unlimited). -/
theorem exists_code (fb k j : Nat) (hk : k < 2 ^ (fb + 1)) : ∃ m, magValue fb m = k * 2 ^ j := by
  induction j generalizing k with
  | zero =>
    refine ⟨k, ?_⟩
    by_cases h : k < 2 ^ fb
    · rw [magValue_of_field_zero h]; simp
    · have h' : k = (0 + 1) * 2 ^ fb + (k - 2 ^ fb) := by omega
      have hp : 2 ^ (fb + 1) = 2 ^ fb + 2 ^ fb := by rw [pow_succ]; ring
      conv_lhs => rw [h']
      rw [magValue_of_field (by omega)]
      simp; omega
  | succ j ih =>
    by_cases h : k < 2 ^ fb
    · obtain ⟨m, hm⟩ := ih (2 * k) (by rw [pow_succ]; omega)
      exact ⟨m, by rw [hm, pow_succ]; ring⟩
    · have hp : 2 ^ (fb + 1) = 2 ^ fb + 2 ^ fb := by rw [pow_succ]; ring
      refine ⟨(j + 1 + 1) * 2 ^ fb + (k - 2 ^ fb), ?_⟩
      rw [magValue_of_field (by omega)]
      congr 1; omega

end Sys2Proof.Fp
end

