-- ==== Sys2Proof/Laws/Float.lean ====
section
/-! SUPPORT. What the binary64 operations give: parts of a packed number, the order of numbers, and a bound on a sum, a
quotient and a floor from a bound on the exact value. -/

namespace Sys2Proof.Fp

/-! ### Parts of a number -/

theorem infMag_lt : infMag < 2 ^ 63 := by decide +kernel

theorem one64_pos : 0 < one64 := by decide +kernel

theorem toNat_pack {b : Bool} {m : Nat} (h : m < 2 ^ 63) :
    (pack b m).toNat = (if b then 2 ^ 63 else 0) + m := by
  unfold pack
  rw [BitVec.toNat_ofNat]
  cases b
  · simp; omega
  · simp; omega

theorem neg?_pack {b : Bool} {m : Nat} (h : m < 2 ^ 63) : neg? (pack b m) = b := by
  unfold neg?
  rw [toNat_pack h]
  cases b <;> simp <;> omega

theorem mag_pack {b : Bool} {m : Nat} (h : m < 2 ^ 63) : mag (pack b m) = m := by
  unfold mag
  rw [toNat_pack h]
  cases b <;> simp <;> omega

theorem mag_lt (x : F64) : mag x < 2 ^ 63 := Nat.mod_lt _ (Nat.two_pow_pos _)

theorem pack_parts (x : F64) : pack (neg? x) (mag x) = x := by
  apply BitVec.eq_of_toNat_eq
  rw [toNat_pack (mag_lt x)]
  have := x.isLt
  unfold neg? mag
  by_cases h : 2 ^ 63 ≤ x.toNat
  · rw [if_pos (decide_eq_true h)]; omega
  · rw [if_neg (by simpa using h)]; omega

@[simp] theorem neg?_negate (x : F64) : neg? (negate x) = !neg? x := neg?_pack (mag_lt x)

@[simp] theorem mag_negate (x : F64) : mag (negate x) = mag x := mag_pack (mag_lt x)

@[simp] theorem isNaN_negate (x : F64) : isNaN (negate x) = isNaN x := by simp [isNaN]

@[simp] theorem isFinite_negate (x : F64) : isFinite (negate x) = isFinite x := by simp [isFinite]

theorem value_negate (x : F64) : value (negate x) = -value x := by
  unfold value; simp only [neg?_negate, mag_negate]; cases neg? x <;> simp

theorem ordKey_negate (x : F64) : ordKey (negate x) = -ordKey x := by
  unfold ordKey; simp only [neg?_negate, mag_negate]; cases neg? x <;> simp

theorem negate_negate (x : F64) : negate (negate x) = x := by
  rw [negate, neg?_negate, mag_negate, Bool.not_not, pack_parts]

theorem min_infMag_lt (m : Nat) : min m infMag < 2 ^ 63 := lt_of_le_of_lt (Nat.min_le_right _ _) infMag_lt

theorem mag_round (b : Bool) (n d : Nat) : mag (round b n d) = min (roundMag 52 n d) infMag :=
  mag_pack (min_infMag_lt _)

theorem neg?_round (b : Bool) (n d : Nat) : neg? (round b n d) = b := neg?_pack (min_infMag_lt _)

theorem isNaN_round (b : Bool) (n d : Nat) : isNaN (round b n d) = false := by
  simp [isNaN, mag_round]

/-- Rounding to binary64 is exact on binary64's finite values. -/
theorem round_exact (b : Bool) {m d : Nat} (hm : m ≤ infMag) (hd : 0 < d) :
    round b (magValue 52 m * d) d = pack b m := by
  rw [round, roundMag_exact 52 m hd, Nat.min_eq_left hm]

/-- A NaN the block makes is a NaN, whatever its sign and payload. -/
theorem isNaN_qNaN : isNaN qNaN = true := by
  have h : ∀ w : BitVec 64, infMag < (0x7FF8000000000000#64 ||| w).toNat % 2 ^ 63 := by
    intro w
    have e : (0x7FF8000000000000#64 ||| w).toNat % 2 ^ 63 = 0x7FF8000000000000 ||| w.toNat % 2 ^ 63 := by
      rw [BitVec.toNat_or, Nat.or_mod_two_pow]; rfl
    rw [e]
    have : 0x7FF8000000000000 ≤ 0x7FF8000000000000 ||| w.toNat % 2 ^ 63 := Nat.left_le_or
    unfold infMag; omega
  simpa [isNaN, mag, qNaN] using h Config.nanBits

theorem isFinite_eq (x : F64) : isFinite x = (!isNaN x && !isInf x) := by
  unfold isFinite isNaN isInf
  rw [Bool.eq_iff_iff]
  simp only [decide_eq_true_eq, Bool.and_eq_true, Bool.not_eq_true', decide_eq_false_iff_not]
  omega

theorem isNaN_of_isFinite {x : F64} (h : isFinite x = true) : isNaN x = false := by
  rw [isFinite_eq] at h; simp at h; exact h.1

theorem isInf_of_isFinite {x : F64} (h : isFinite x = true) : isInf x = false := by
  rw [isFinite_eq] at h; simp at h; exact h.2

/-! ### Order -/

theorem ordKey_le_iff {x y : F64} : ordKey x ≤ ordKey y ↔ value x ≤ value y := by
  unfold ordKey value
  cases hx : neg? x <;> cases hy : neg? y <;> simp only [if_true, Bool.false_eq_true, if_false]
  · rw [Int.ofNat_le, Int.ofNat_le]; exact magValue_le_iff.symm
  · have hz : ∀ m : Nat, magValue 52 m = 0 ↔ m = 0 := fun m => by
      have := magValue_le_iff (fb := 52) (a := m) (b := 0)
      simp at this; omega
    have h1 := hz (mag x); have h2 := hz (mag y)
    constructor <;> intro h <;> omega
  · constructor <;> intro h <;> omega
  · rw [Int.neg_le_neg_iff, Int.neg_le_neg_iff, Int.ofNat_le, Int.ofNat_le]; exact magValue_le_iff.symm

theorem le_iff {x y : F64} : le x y = true ↔ isNaN x = false ∧ isNaN y = false ∧ ordKey x ≤ ordKey y := by
  simp [le, and_assoc]

theorem lt_iff {x y : F64} : lt x y = true ↔ isNaN x = false ∧ isNaN y = false ∧ ordKey x < ordKey y := by
  simp [lt, and_assoc]

/-- Numbers are ordered totally: what is not below is at or above. -/
theorem le_of_not_lt {x y : F64} (hx : isNaN x = false) (hy : isNaN y = false) (h : lt x y = false) :
    le y x = true := by
  rw [le_iff]; refine ⟨hy, hx, ?_⟩
  by_contra hc
  have : lt x y = true := lt_iff.2 ⟨hx, hy, by omega⟩
  rw [h] at this; exact absurd this (by decide)

theorem lt_of_not_le {x y : F64} (hx : isNaN x = false) (hy : isNaN y = false) (h : le x y = false) :
    lt y x = true := by
  rw [lt_iff]; refine ⟨hy, hx, ?_⟩
  by_contra hc
  have : le x y = true := le_iff.2 ⟨hx, hy, by omega⟩
  rw [h] at this; exact absurd this (by decide)

theorem num_le_trans {x y z : F64} (h1 : le x y = true) (h2 : le y z = true) : le x z = true := by
  rw [le_iff] at *; exact ⟨h1.1, h2.2.1, by omega⟩

theorem num_lt_of_le_of_lt {x y z : F64} (h1 : le x y = true) (h2 : lt y z = true) : lt x z = true := by
  rw [le_iff] at h1; rw [lt_iff] at *; exact ⟨h1.1, h2.2.1, by omega⟩

theorem num_le_of_lt {x y : F64} (h : lt x y = true) : le x y = true := by
  rw [lt_iff] at h; exact le_iff.2 ⟨h.1, h.2.1, by omega⟩

theorem ordKey_bounds {x : F64} (h : isFinite x = true) : -(infMag : Int) < ordKey x ∧ ordKey x < infMag := by
  have h' : mag x < infMag := by simpa [isFinite] using h
  unfold ordKey; cases neg? x <;> simp <;> omega

/-- A number between two finite ones is finite. -/
theorem isFinite_of_between {a x b : F64} (ha : isFinite a = true) (hb : isFinite b = true)
    (h1 : le a x = true) (h2 : le x b = true) : isFinite x = true := by
  rw [le_iff] at h1 h2
  have ka := ordKey_bounds ha; have kb := ordKey_bounds hb
  have : ordKey x = (if neg? x then -(mag x : Int) else mag x) := rfl
  have hm : mag x < infMag := by cases hn : neg? x <;> simp [hn] at this <;> omega
  simpa [isFinite] using hm

/-! ### Non-negative numbers -/

/-- A number with its sign bit clear (so +0 counts and -0 does not), infinity included. -/
def nonneg (x : F64) : Bool := !isNaN x && !neg? x

theorem nonneg_iff {x : F64} : nonneg x = true ↔ isNaN x = false ∧ neg? x = false := by simp [nonneg]

theorem nonneg_of_pos_le {a x : F64} (ha : 0 < ordKey a) (h : le a x = true) : nonneg x = true := by
  rw [le_iff] at h
  rw [nonneg_iff]; refine ⟨h.2.1, ?_⟩
  by_contra hc
  have : ordKey x ≤ 0 := by unfold ordKey; simp at hc; simp [hc]
  omega

theorem ordKey_of_nonneg {x : F64} (h : nonneg x = true) : ordKey x = mag x := by
  rw [nonneg_iff] at h; simp [ordKey, h.2]

theorem value_of_nonneg {x : F64} (h : nonneg x = true) : value x = magValue 52 (mag x) := by
  rw [nonneg_iff] at h; simp [value, h.2]

/-! ### Sums -/

theorem add_finite {x y : F64} (hx : isFinite x = true) (hy : isFinite y = true) :
    add x y = if value x + value y = 0 then pack (neg? x && neg? y) 0
      else round (decide (value x + value y < 0)) (value x + value y).natAbs 1 := by
  simp [add, isNaN_of_isFinite hx, isNaN_of_isFinite hy, isInf_of_isFinite hx, isInf_of_isFinite hy]

theorem isNaN_add_finite {x y : F64} (hx : isFinite x = true) (hy : isFinite y = true) :
    isNaN (add x y) = false := by
  rw [add_finite hx hy]; split
  · simp [isNaN, mag_pack]
  · exact isNaN_round _ _ _

/-- The place of a rounded integer in the order of numbers, from the place of a bound of it. -/
theorem ordKey_round_le {v : Int} {z : F64} (hz : isNaN z = false) (h0 : v ≠ 0) (h : v ≤ value z) :
    ordKey (round (decide (v < 0)) v.natAbs 1) ≤ ordKey z := by
  have hzm : mag z ≤ infMag := by simpa [isNaN] using hz
  unfold ordKey
  rw [neg?_round, mag_round]
  unfold value at h
  by_cases hv : v < 0
  · simp only [hv, decide_true, if_true]
    cases hn : neg? z
    · simp
      have : (0 : Int) ≤ (min (roundMag 52 v.natAbs 1) infMag : Nat) := Int.natCast_nonneg _
      omega
    · simp only [hn, if_true] at h ⊢
      have := le_roundMag (fb := 52) (num := v.natAbs) (den := 1) (m := mag z) one_pos (by omega)
      have : mag z ≤ min (roundMag 52 v.natAbs 1) infMag := Nat.le_min.2 ⟨this, hzm⟩
      omega
  · simp only [hv, decide_false, Bool.false_eq_true, if_false]
    cases hn : neg? z
    · simp only [hn, Bool.false_eq_true, if_false] at h ⊢
      have := roundMag_le (fb := 52) (num := v.natAbs) (den := 1) (m := mag z) one_pos (by omega)
      have := Nat.min_le_left (roundMag 52 v.natAbs 1) infMag
      omega
    · simp only [hn, if_true] at h; omega

theorem ordKey_le_round {v : Int} {z : F64} (hz : isNaN z = false) (h0 : v ≠ 0) (h : value z ≤ v) :
    ordKey z ≤ ordKey (round (decide (v < 0)) v.natAbs 1) := by
  have := ordKey_round_le (v := -v) (z := negate z) (by simpa using hz) (by omega) (by rw [value_negate]; omega)
  rw [ordKey_negate, Int.natAbs_neg] at this
  have e : ordKey (round (decide (-v < 0)) v.natAbs 1) = -ordKey (round (decide (v < 0)) v.natAbs 1) := by
    unfold ordKey
    rw [neg?_round, mag_round, neg?_round, mag_round]
    rcases lt_trichotomy v 0 with hv | hv | hv
    · have hv' : ¬ (-v < 0) := by omega
      rw [decide_eq_true hv, decide_eq_false hv']; simp
    · exact absurd hv h0
    · have hv1 : -v < 0 := by omega
      have hv2 : ¬ (v < 0) := by omega
      rw [decide_eq_true hv1, decide_eq_false hv2]; simp
  omega

/-- A sum is at most any number that the exact sum is at most. -/
theorem add_le {x y z : F64} (hx : isFinite x = true) (hy : isFinite y = true) (hz : isNaN z = false)
    (h : value x + value y ≤ value z) : le (add x y) z = true := by
  rw [le_iff]; refine ⟨isNaN_add_finite hx hy, hz, ?_⟩
  rw [add_finite hx hy]; split
  · rename_i h0
    rw [ordKey_le_iff]
    have : value (pack (neg? x && neg? y) 0) = 0 := by simp [value, mag_pack]
    omega
  · rename_i h0; exact ordKey_round_le hz h0 h

/-- A sum is at least any number that the exact sum is at least. -/
theorem le_add {x y z : F64} (hx : isFinite x = true) (hy : isFinite y = true) (hz : isNaN z = false)
    (h : value z ≤ value x + value y) : le z (add x y) = true := by
  rw [le_iff]; refine ⟨hz, isNaN_add_finite hx hy, ?_⟩
  rw [add_finite hx hy]; split
  · rename_i h0
    rw [ordKey_le_iff]
    have : value (pack (neg? x && neg? y) 0) = 0 := by simp [value, mag_pack]
    omega
  · rename_i h0; exact ordKey_le_round hz h0 h

/-- A finite number plus infinity is infinity. -/
theorem add_inf {x y : F64} (hx : isFinite x = true) (hy : isInf y = true) : add x y = y := by
  have hn : isNaN y = false := by simp [isNaN]; simp [isInf] at hy; omega
  simp [add, isNaN_of_isFinite hx, isInf_of_isFinite hx, hn, hy]

/-! ### Products and quotients -/

/-- A product of numbers with their sign bits clear has its sign bit clear, if neither is an infinity times zero. -/
theorem nonneg_mul {x y : F64} (hx : nonneg x = true) (hy : nonneg y = true) (hfx : isFinite x = true)
    (hfy : isFinite y = true) : nonneg (mul x y) = true := by
  rw [nonneg_iff] at hx hy
  simp only [mul, hx.1, hy.1, isInf_of_isFinite hfx, isInf_of_isFinite hfy, hx.2, hy.2]
  rw [nonneg_iff]
  simp [isNaN_round, neg?_round]

theorem nonneg_div {x y : F64} (hx : nonneg x = true) (hy : nonneg y = true) (hfx : isFinite x = true)
    (hy0 : isZero y = false) : nonneg (div x y) = true := by
  rw [nonneg_iff] at hx hy
  simp only [div, hx.1, hy.1, isInf_of_isFinite hfx, hx.2, hy.2, hy0]
  rw [nonneg_iff]
  by_cases h : isInf y = true
  · simp [h, isNaN, neg?_pack, mag_pack]
  · simp [h, isNaN_round, neg?_round]

/-- A quotient of non-negative finite numbers is at most any number that the exact quotient is at most. -/
theorem mag_div_le {x y z : F64} (hx : nonneg x = true) (hy : nonneg y = true) (hfx : isFinite x = true)
    (hfy : isFinite y = true) (hy0 : isZero y = false)
    (h : magValue 52 (mag x) * one64 ≤ magValue 52 (mag z) * magValue 52 (mag y)) :
    mag (div x y) ≤ mag z := by
  rw [nonneg_iff] at hx hy
  simp only [div, hx.1, hy.1, isInf_of_isFinite hfx, isInf_of_isFinite hfy, hy0]
  simp only [Bool.or_self, Bool.false_eq_true, if_false]
  rw [mag_round]
  refine (Nat.min_le_left _ _).trans (roundMag_le ?_ h)
  have : magValue 52 0 < magValue 52 (mag y) := magValue_lt_iff.2 (by
    simp [isZero] at hy0; omega)
  simpa using this

/-- Dividing a non-negative number by one that is at least 1 makes it no greater. -/
theorem mag_div_le_self {x y : F64} (hx : nonneg x = true) (hy : nonneg y = true) (hfx : isFinite x = true)
    (hfy : isFinite y = true) (h : one64 ≤ magValue 52 (mag y)) : mag (div x y) ≤ mag x := by
  refine mag_div_le hx hy hfx hfy ?_ (Nat.mul_le_mul_left _ h)
  by_contra hc
  have : mag y = 0 := by simpa [isZero] using hc
  rw [this, magValue_zero] at h
  exact absurd h (by have := one64_pos; omega)

/-! ### Through binary32 -/

theorem mag32_pack32 {b : Bool} {m : Nat} (h : m < 2 ^ 31) : mag32 (pack32 b m) = m := by
  unfold mag32 pack32
  rw [BitVec.toNat_ofNat]
  cases b <;> simp <;> omega

theorem neg32?_pack32 {b : Bool} {m : Nat} (h : m < 2 ^ 31) : neg32? (pack32 b m) = b := by
  unfold neg32? pack32
  rw [BitVec.toNat_ofNat]
  cases b <;> simp <;> omega

theorem infMag32_lt : infMag32 < 2 ^ 31 := by decide

theorem tiny32_pos : 0 < tiny32 := by decide +kernel

/-- Rounding to binary32 keeps the sign, and so does the conversion back. -/
theorem neg32?_toBinary32 {x : F64} (hx : isNaN x = false) : neg32? (toBinary32 x) = neg? x := by
  have hm := Nat.min_le_right (roundMag 23 (magValue 52 (mag x)) tiny32) infMag32
  have := infMag32_lt
  unfold toBinary32
  simp only [hx, Bool.false_eq_true, if_false]
  split <;> rw [neg32?_pack32 (by omega)]

theorem neg?_fromBinary32 {x : F32} (hx : isNaN32 x = false) : neg? (fromBinary32 x) = neg32? x := by
  unfold fromBinary32
  simp only [hx, Bool.false_eq_true, if_false]
  split
  · exact neg?_pack infMag_lt
  · exact neg?_round _ _ _

/-- Rounding to binary32 leaves a number a number. -/
theorem mag32_toBinary32_le {x : F64} (hx : isNaN x = false) : mag32 (toBinary32 x) ≤ infMag32 := by
  have hm := Nat.min_le_right (roundMag 23 (magValue 52 (mag x)) tiny32) infMag32
  have := infMag32_lt
  unfold toBinary32
  simp only [hx, Bool.false_eq_true, if_false]
  split <;> rw [mag32_pack32 (by omega)]
  exact hm

/-- Rounding to binary32 keeps the order of magnitudes. -/
theorem mag32_toBinary32_mono {x y : F64} (hx : isNaN x = false) (hy : isNaN y = false) (h : mag x ≤ mag y) :
    mag32 (toBinary32 x) ≤ mag32 (toBinary32 y) := by
  have hy' : mag y ≤ infMag := by simpa [isNaN] using hy
  have h32 := infMag32_lt
  by_cases hi : mag y = infMag
  · have e : toBinary32 y = pack32 (neg? y) infMag32 := by simp [toBinary32, hy, isInf, hi]
    rw [e, mag32_pack32 h32]; exact mag32_toBinary32_le hx
  · have fin : ∀ {z : F64}, isNaN z = false → mag z ≠ infMag →
        mag32 (toBinary32 z) = min (roundMag 23 (magValue 52 (mag z)) tiny32) infMag32 := fun {z} hz hzi => by
      have := Nat.min_le_right (roundMag 23 (magValue 52 (mag z)) tiny32) infMag32
      simp only [toBinary32, hz, isInf, hzi, decide_false, Bool.false_eq_true, if_false]
      exact mag32_pack32 (by omega)
    rw [fin hx (by omega), fin hy hi]
    have := roundMag_mono (fb := 23) tiny32_pos tiny32_pos (Nat.mul_le_mul_right tiny32 (magValue_le_iff (fb := 52).2 h))
    omega

/-- The magnitude of a binary32 number as a binary64 one. -/
theorem mag_fromBinary32 {x : F32} (hx : mag32 x ≤ infMag32) : mag (fromBinary32 x) =
    if mag32 x = infMag32 then infMag else min (roundMag 52 (magValue 23 (mag32 x) * tiny32) 1) infMag := by
  have hn : isNaN32 x = false := by simpa [isNaN32] using hx
  simp only [fromBinary32, hn, isInf32, Bool.false_eq_true, if_false, decide_eq_true_eq]
  split
  · exact mag_pack infMag_lt
  · exact mag_round _ _ _

/-- The value of a binary32 number is a number. -/
theorem isNaN_fromBinary32 {x : F32} (hx : mag32 x ≤ infMag32) : isNaN (fromBinary32 x) = false := by
  have := mag_fromBinary32 hx
  simp only [isNaN, decide_eq_false_iff_not]
  split at this <;> omega

/-- `from_binary32` keeps the order of magnitudes. -/
theorem mag_fromBinary32_mono {x y : F32} (hy : mag32 y ≤ infMag32) (h : mag32 x ≤ mag32 y) :
    mag (fromBinary32 x) ≤ mag (fromBinary32 y) := by
  rw [mag_fromBinary32 hy, mag_fromBinary32 (h.trans hy)]
  have := roundMag_mono (fb := 52) one_pos one_pos
    (Nat.mul_le_mul_right 1 (Nat.mul_le_mul_right tiny32 (magValue_le_iff (fb := 23).2 h)))
  split <;> split <;> omega

end Sys2Proof.Fp
end

