-- ==== Sys2Proof/Laws/State.lean ====
section
/-! SUPPORT. One lemma per field per named update of the state, and the register files read after a write, so that no
later proof unfolds a record update. -/

namespace Sys2Proof.Machine

variable (s : State)

@[simp] theorem State.raise_sr (c : FaultCode) (w : CmdWord) : (s.raise c w).sr = s.sr := rfl
@[simp] theorem State.raise_status (c : FaultCode) (w : CmdWord) : (s.raise c w).status = statusRecordFault c s.status := rfl
@[simp] theorem State.raise_statusCmd (c : FaultCode) (w : CmdWord) : (s.raise c w).statusCmd = w := rfl
@[simp] theorem State.raise_res (c : FaultCode) (w : CmdWord) : (s.raise c w).res = s.res := rfl
@[simp] theorem State.raise_resValid (c : FaultCode) (w : CmdWord) : (s.raise c w).resValid = false := rfl
@[simp] theorem State.raise_osc (c : FaultCode) (w : CmdWord) : (s.raise c w).osc = s.osc := rfl
@[simp] theorem State.raise_env (c : FaultCode) (w : CmdWord) : (s.raise c w).env = s.env := rfl
@[simp] theorem State.raise_lfo (c : FaultCode) (w : CmdWord) : (s.raise c w).lfo = s.lfo := rfl
@[simp] theorem State.raise_filt (c : FaultCode) (w : CmdWord) : (s.raise c w).filt = s.filt := rfl
@[simp] theorem State.raise_draws (c : FaultCode) (w : CmdWord) : (s.raise c w).draws = s.draws := rfl
@[simp] theorem State.raise_run (c : FaultCode) (w : CmdWord) : (s.raise c w).run = s.run := rfl
@[simp] theorem State.raise_host (c : FaultCode) (w : CmdWord) : (s.raise c w).host = s.host := rfl

@[simp] theorem State.noResult_sr : (s.noResult).sr = s.sr := rfl
@[simp] theorem State.noResult_status : (s.noResult).status = s.status := rfl
@[simp] theorem State.noResult_statusCmd : (s.noResult).statusCmd = s.statusCmd := rfl
@[simp] theorem State.noResult_res : (s.noResult).res = s.res := rfl
@[simp] theorem State.noResult_resValid : (s.noResult).resValid = false := rfl
@[simp] theorem State.noResult_osc : (s.noResult).osc = s.osc := rfl
@[simp] theorem State.noResult_env : (s.noResult).env = s.env := rfl
@[simp] theorem State.noResult_lfo : (s.noResult).lfo = s.lfo := rfl
@[simp] theorem State.noResult_filt : (s.noResult).filt = s.filt := rfl
@[simp] theorem State.noResult_draws : (s.noResult).draws = s.draws := rfl
@[simp] theorem State.noResult_run : (s.noResult).run = s.run := rfl
@[simp] theorem State.noResult_host : (s.noResult).host = s.host := rfl

@[simp] theorem State.returns_sr (v : BitVec 64) : (s.returns v).sr = s.sr := rfl
@[simp] theorem State.returns_status (v : BitVec 64) : (s.returns v).status = s.status := rfl
@[simp] theorem State.returns_statusCmd (v : BitVec 64) : (s.returns v).statusCmd = s.statusCmd := rfl
@[simp] theorem State.returns_res (v : BitVec 64) : (s.returns v).res = v := rfl
@[simp] theorem State.returns_resValid (v : BitVec 64) : (s.returns v).resValid = true := rfl
@[simp] theorem State.returns_osc (v : BitVec 64) : (s.returns v).osc = s.osc := rfl
@[simp] theorem State.returns_env (v : BitVec 64) : (s.returns v).env = s.env := rfl
@[simp] theorem State.returns_lfo (v : BitVec 64) : (s.returns v).lfo = s.lfo := rfl
@[simp] theorem State.returns_filt (v : BitVec 64) : (s.returns v).filt = s.filt := rfl
@[simp] theorem State.returns_draws (v : BitVec 64) : (s.returns v).draws = s.draws := rfl
@[simp] theorem State.returns_run (v : BitVec 64) : (s.returns v).run = s.run := rfl
@[simp] theorem State.returns_host (v : BitVec 64) : (s.returns v).host = s.host := rfl

@[simp] theorem State.returnsSample_sr (y : F64) : (s.returnsSample y).sr = s.sr := rfl
@[simp] theorem State.returnsSample_status (y : F64) : (s.returnsSample y).status = s.status := rfl
@[simp] theorem State.returnsSample_statusCmd (y : F64) : (s.returnsSample y).statusCmd = s.statusCmd := rfl
@[simp] theorem State.returnsSample_res (y : F64) : (s.returnsSample y).res = (Fp.toBinary32 y).setWidth 64 := rfl
@[simp] theorem State.returnsSample_resValid (y : F64) : (s.returnsSample y).resValid = true := rfl
@[simp] theorem State.returnsSample_osc (y : F64) : (s.returnsSample y).osc = s.osc := rfl
@[simp] theorem State.returnsSample_env (y : F64) : (s.returnsSample y).env = s.env := rfl
@[simp] theorem State.returnsSample_lfo (y : F64) : (s.returnsSample y).lfo = s.lfo := rfl
@[simp] theorem State.returnsSample_filt (y : F64) : (s.returnsSample y).filt = s.filt := rfl
@[simp] theorem State.returnsSample_draws (y : F64) : (s.returnsSample y).draws = s.draws := rfl
@[simp] theorem State.returnsSample_run (y : F64) : (s.returnsSample y).run = s.run := rfl
@[simp] theorem State.returnsSample_host (y : F64) : (s.returnsSample y).host = s.host := rfl

@[simp] theorem State.setOsc_sr (i : Fin 3) (r : OscRegs) : (s.setOsc i r).sr = s.sr := rfl
@[simp] theorem State.setOsc_status (i : Fin 3) (r : OscRegs) : (s.setOsc i r).status = s.status := rfl
@[simp] theorem State.setOsc_statusCmd (i : Fin 3) (r : OscRegs) : (s.setOsc i r).statusCmd = s.statusCmd := rfl
@[simp] theorem State.setOsc_res (i : Fin 3) (r : OscRegs) : (s.setOsc i r).res = s.res := rfl
@[simp] theorem State.setOsc_resValid (i : Fin 3) (r : OscRegs) : (s.setOsc i r).resValid = s.resValid := rfl
@[simp] theorem State.setOsc_osc (i : Fin 3) (r : OscRegs) : (s.setOsc i r).osc = s.osc.set i r := rfl
@[simp] theorem State.setOsc_env (i : Fin 3) (r : OscRegs) : (s.setOsc i r).env = s.env := rfl
@[simp] theorem State.setOsc_lfo (i : Fin 3) (r : OscRegs) : (s.setOsc i r).lfo = s.lfo := rfl
@[simp] theorem State.setOsc_filt (i : Fin 3) (r : OscRegs) : (s.setOsc i r).filt = s.filt := rfl
@[simp] theorem State.setOsc_draws (i : Fin 3) (r : OscRegs) : (s.setOsc i r).draws = s.draws := rfl
@[simp] theorem State.setOsc_run (i : Fin 3) (r : OscRegs) : (s.setOsc i r).run = s.run := rfl
@[simp] theorem State.setOsc_host (i : Fin 3) (r : OscRegs) : (s.setOsc i r).host = s.host := rfl

@[simp] theorem State.setEnv_sr (i : Fin 1) (r : EnvRegs) : (s.setEnv i r).sr = s.sr := rfl
@[simp] theorem State.setEnv_status (i : Fin 1) (r : EnvRegs) : (s.setEnv i r).status = s.status := rfl
@[simp] theorem State.setEnv_statusCmd (i : Fin 1) (r : EnvRegs) : (s.setEnv i r).statusCmd = s.statusCmd := rfl
@[simp] theorem State.setEnv_res (i : Fin 1) (r : EnvRegs) : (s.setEnv i r).res = s.res := rfl
@[simp] theorem State.setEnv_resValid (i : Fin 1) (r : EnvRegs) : (s.setEnv i r).resValid = s.resValid := rfl
@[simp] theorem State.setEnv_osc (i : Fin 1) (r : EnvRegs) : (s.setEnv i r).osc = s.osc := rfl
@[simp] theorem State.setEnv_env (i : Fin 1) (r : EnvRegs) : (s.setEnv i r).env = s.env.set i r := rfl
@[simp] theorem State.setEnv_lfo (i : Fin 1) (r : EnvRegs) : (s.setEnv i r).lfo = s.lfo := rfl
@[simp] theorem State.setEnv_filt (i : Fin 1) (r : EnvRegs) : (s.setEnv i r).filt = s.filt := rfl
@[simp] theorem State.setEnv_draws (i : Fin 1) (r : EnvRegs) : (s.setEnv i r).draws = s.draws := rfl
@[simp] theorem State.setEnv_run (i : Fin 1) (r : EnvRegs) : (s.setEnv i r).run = s.run := rfl
@[simp] theorem State.setEnv_host (i : Fin 1) (r : EnvRegs) : (s.setEnv i r).host = s.host := rfl

@[simp] theorem State.setLfo_sr (i : Fin 2) (r : LfoRegs) : (s.setLfo i r).sr = s.sr := rfl
@[simp] theorem State.setLfo_status (i : Fin 2) (r : LfoRegs) : (s.setLfo i r).status = s.status := rfl
@[simp] theorem State.setLfo_statusCmd (i : Fin 2) (r : LfoRegs) : (s.setLfo i r).statusCmd = s.statusCmd := rfl
@[simp] theorem State.setLfo_res (i : Fin 2) (r : LfoRegs) : (s.setLfo i r).res = s.res := rfl
@[simp] theorem State.setLfo_resValid (i : Fin 2) (r : LfoRegs) : (s.setLfo i r).resValid = s.resValid := rfl
@[simp] theorem State.setLfo_osc (i : Fin 2) (r : LfoRegs) : (s.setLfo i r).osc = s.osc := rfl
@[simp] theorem State.setLfo_env (i : Fin 2) (r : LfoRegs) : (s.setLfo i r).env = s.env := rfl
@[simp] theorem State.setLfo_lfo (i : Fin 2) (r : LfoRegs) : (s.setLfo i r).lfo = s.lfo.set i r := rfl
@[simp] theorem State.setLfo_filt (i : Fin 2) (r : LfoRegs) : (s.setLfo i r).filt = s.filt := rfl
@[simp] theorem State.setLfo_draws (i : Fin 2) (r : LfoRegs) : (s.setLfo i r).draws = s.draws := rfl
@[simp] theorem State.setLfo_run (i : Fin 2) (r : LfoRegs) : (s.setLfo i r).run = s.run := rfl
@[simp] theorem State.setLfo_host (i : Fin 2) (r : LfoRegs) : (s.setLfo i r).host = s.host := rfl

@[simp] theorem State.setFilt_sr (i : Fin 1) (r : FiltRegs) : (s.setFilt i r).sr = s.sr := rfl
@[simp] theorem State.setFilt_status (i : Fin 1) (r : FiltRegs) : (s.setFilt i r).status = s.status := rfl
@[simp] theorem State.setFilt_statusCmd (i : Fin 1) (r : FiltRegs) : (s.setFilt i r).statusCmd = s.statusCmd := rfl
@[simp] theorem State.setFilt_res (i : Fin 1) (r : FiltRegs) : (s.setFilt i r).res = s.res := rfl
@[simp] theorem State.setFilt_resValid (i : Fin 1) (r : FiltRegs) : (s.setFilt i r).resValid = s.resValid := rfl
@[simp] theorem State.setFilt_osc (i : Fin 1) (r : FiltRegs) : (s.setFilt i r).osc = s.osc := rfl
@[simp] theorem State.setFilt_env (i : Fin 1) (r : FiltRegs) : (s.setFilt i r).env = s.env := rfl
@[simp] theorem State.setFilt_lfo (i : Fin 1) (r : FiltRegs) : (s.setFilt i r).lfo = s.lfo := rfl
@[simp] theorem State.setFilt_filt (i : Fin 1) (r : FiltRegs) : (s.setFilt i r).filt = s.filt.set i r := rfl
@[simp] theorem State.setFilt_draws (i : Fin 1) (r : FiltRegs) : (s.setFilt i r).draws = s.draws := rfl
@[simp] theorem State.setFilt_run (i : Fin 1) (r : FiltRegs) : (s.setFilt i r).run = s.run := rfl
@[simp] theorem State.setFilt_host (i : Fin 1) (r : FiltRegs) : (s.setFilt i r).host = s.host := rfl

@[simp] theorem State.drawn_sr : (s.drawn).sr = s.sr := rfl
@[simp] theorem State.drawn_status : (s.drawn).status = s.status := rfl
@[simp] theorem State.drawn_statusCmd : (s.drawn).statusCmd = s.statusCmd := rfl
@[simp] theorem State.drawn_res : (s.drawn).res = s.res := rfl
@[simp] theorem State.drawn_resValid : (s.drawn).resValid = s.resValid := rfl
@[simp] theorem State.drawn_osc : (s.drawn).osc = s.osc := rfl
@[simp] theorem State.drawn_env : (s.drawn).env = s.env := rfl
@[simp] theorem State.drawn_lfo : (s.drawn).lfo = s.lfo := rfl
@[simp] theorem State.drawn_filt : (s.drawn).filt = s.filt := rfl
@[simp] theorem State.drawn_draws : (s.drawn).draws = s.draws + 1 := rfl
@[simp] theorem State.drawn_run : (s.drawn).run = s.run := rfl
@[simp] theorem State.drawn_host : (s.drawn).host = s.host := rfl

@[simp] theorem State.setSr_sr (v : F64) : (s.setSr v).sr = v := rfl
@[simp] theorem State.setSr_status (v : F64) : (s.setSr v).status = statusSetSrValid s.status := rfl
@[simp] theorem State.setSr_statusCmd (v : F64) : (s.setSr v).statusCmd = s.statusCmd := rfl
@[simp] theorem State.setSr_res (v : F64) : (s.setSr v).res = s.res := rfl
@[simp] theorem State.setSr_resValid (v : F64) : (s.setSr v).resValid = s.resValid := rfl
@[simp] theorem State.setSr_osc (v : F64) : (s.setSr v).osc = s.osc := rfl
@[simp] theorem State.setSr_env (v : F64) : (s.setSr v).env = s.env := rfl
@[simp] theorem State.setSr_lfo (v : F64) : (s.setSr v).lfo = s.lfo := rfl
@[simp] theorem State.setSr_draws (v : F64) : (s.setSr v).draws = s.draws := rfl
@[simp] theorem State.setSr_run (v : F64) : (s.setSr v).run = s.run := rfl
@[simp] theorem State.setSr_host (v : F64) : (s.setSr v).host = s.host := rfl

@[simp] theorem State.raise_oscAt (c : FaultCode) (w : CmdWord) (j : Fin 3) : (s.raise c w).oscAt j = s.oscAt j := rfl
@[simp] theorem State.raise_envAt (c : FaultCode) (w : CmdWord) (j : Fin 1) : (s.raise c w).envAt j = s.envAt j := rfl
@[simp] theorem State.raise_lfoAt (c : FaultCode) (w : CmdWord) (j : Fin 2) : (s.raise c w).lfoAt j = s.lfoAt j := rfl
@[simp] theorem State.raise_filtAt (c : FaultCode) (w : CmdWord) (j : Fin 1) : (s.raise c w).filtAt j = s.filtAt j := rfl

@[simp] theorem State.noResult_oscAt (j : Fin 3) : (s.noResult).oscAt j = s.oscAt j := rfl
@[simp] theorem State.noResult_envAt (j : Fin 1) : (s.noResult).envAt j = s.envAt j := rfl
@[simp] theorem State.noResult_lfoAt (j : Fin 2) : (s.noResult).lfoAt j = s.lfoAt j := rfl
@[simp] theorem State.noResult_filtAt (j : Fin 1) : (s.noResult).filtAt j = s.filtAt j := rfl

@[simp] theorem State.returns_oscAt (v : BitVec 64) (j : Fin 3) : (s.returns v).oscAt j = s.oscAt j := rfl
@[simp] theorem State.returns_envAt (v : BitVec 64) (j : Fin 1) : (s.returns v).envAt j = s.envAt j := rfl
@[simp] theorem State.returns_lfoAt (v : BitVec 64) (j : Fin 2) : (s.returns v).lfoAt j = s.lfoAt j := rfl
@[simp] theorem State.returns_filtAt (v : BitVec 64) (j : Fin 1) : (s.returns v).filtAt j = s.filtAt j := rfl

@[simp] theorem State.returnsSample_oscAt (y : F64) (j : Fin 3) : (s.returnsSample y).oscAt j = s.oscAt j := rfl
@[simp] theorem State.returnsSample_envAt (y : F64) (j : Fin 1) : (s.returnsSample y).envAt j = s.envAt j := rfl
@[simp] theorem State.returnsSample_lfoAt (y : F64) (j : Fin 2) : (s.returnsSample y).lfoAt j = s.lfoAt j := rfl
@[simp] theorem State.returnsSample_filtAt (y : F64) (j : Fin 1) : (s.returnsSample y).filtAt j = s.filtAt j := rfl

@[simp] theorem State.setOsc_oscAt_same (i : Fin 3) (r : OscRegs) : (s.setOsc i r).oscAt i = r := by
  simp [State.setOsc, State.oscAt]

theorem State.setOsc_oscAt_ne {i j : Fin 3} (h : j ≠ i) (r : OscRegs) :
    (s.setOsc i r).oscAt j = s.oscAt j := by
  have : i.val ≠ j.val := fun e => h (Fin.ext e.symm)
  simp [State.setOsc, State.oscAt, this]

theorem State.setOsc_oscAt (i j : Fin 3) (r : OscRegs) :
    (s.setOsc i r).oscAt j = if j = i then r else s.oscAt j := by
  split
  · rename_i h; rw [h, State.setOsc_oscAt_same]
  · rename_i h; exact s.setOsc_oscAt_ne h r

@[simp] theorem State.setOsc_envAt (i : Fin 3) (r : OscRegs) (j : Fin 1) : (s.setOsc i r).envAt j = s.envAt j := rfl
@[simp] theorem State.setOsc_lfoAt (i : Fin 3) (r : OscRegs) (j : Fin 2) : (s.setOsc i r).lfoAt j = s.lfoAt j := rfl
@[simp] theorem State.setOsc_filtAt (i : Fin 3) (r : OscRegs) (j : Fin 1) : (s.setOsc i r).filtAt j = s.filtAt j := rfl

@[simp] theorem State.setEnv_oscAt (i : Fin 1) (r : EnvRegs) (j : Fin 3) : (s.setEnv i r).oscAt j = s.oscAt j := rfl
@[simp] theorem State.setEnv_envAt (i j : Fin 1) (r : EnvRegs) : (s.setEnv i r).envAt j = r := by
  obtain rfl : j = i := Subsingleton.elim j i
  simp [State.setEnv, State.envAt]

@[simp] theorem State.setEnv_lfoAt (i : Fin 1) (r : EnvRegs) (j : Fin 2) : (s.setEnv i r).lfoAt j = s.lfoAt j := rfl
@[simp] theorem State.setEnv_filtAt (i : Fin 1) (r : EnvRegs) (j : Fin 1) : (s.setEnv i r).filtAt j = s.filtAt j := rfl

@[simp] theorem State.setLfo_oscAt (i : Fin 2) (r : LfoRegs) (j : Fin 3) : (s.setLfo i r).oscAt j = s.oscAt j := rfl
@[simp] theorem State.setLfo_envAt (i : Fin 2) (r : LfoRegs) (j : Fin 1) : (s.setLfo i r).envAt j = s.envAt j := rfl
@[simp] theorem State.setLfo_lfoAt_same (i : Fin 2) (r : LfoRegs) : (s.setLfo i r).lfoAt i = r := by
  simp [State.setLfo, State.lfoAt]

theorem State.setLfo_lfoAt_ne {i j : Fin 2} (h : j ≠ i) (r : LfoRegs) :
    (s.setLfo i r).lfoAt j = s.lfoAt j := by
  have : i.val ≠ j.val := fun e => h (Fin.ext e.symm)
  simp [State.setLfo, State.lfoAt, this]

theorem State.setLfo_lfoAt (i j : Fin 2) (r : LfoRegs) :
    (s.setLfo i r).lfoAt j = if j = i then r else s.lfoAt j := by
  split
  · rename_i h; rw [h, State.setLfo_lfoAt_same]
  · rename_i h; exact s.setLfo_lfoAt_ne h r

@[simp] theorem State.setLfo_filtAt (i : Fin 2) (r : LfoRegs) (j : Fin 1) : (s.setLfo i r).filtAt j = s.filtAt j := rfl

@[simp] theorem State.setFilt_oscAt (i : Fin 1) (r : FiltRegs) (j : Fin 3) : (s.setFilt i r).oscAt j = s.oscAt j := rfl
@[simp] theorem State.setFilt_envAt (i : Fin 1) (r : FiltRegs) (j : Fin 1) : (s.setFilt i r).envAt j = s.envAt j := rfl
@[simp] theorem State.setFilt_lfoAt (i : Fin 1) (r : FiltRegs) (j : Fin 2) : (s.setFilt i r).lfoAt j = s.lfoAt j := rfl
@[simp] theorem State.setFilt_filtAt (i j : Fin 1) (r : FiltRegs) : (s.setFilt i r).filtAt j = r := by
  obtain rfl : j = i := Subsingleton.elim j i
  simp [State.setFilt, State.filtAt]


@[simp] theorem State.drawn_oscAt (j : Fin 3) : (s.drawn).oscAt j = s.oscAt j := rfl
@[simp] theorem State.drawn_envAt (j : Fin 1) : (s.drawn).envAt j = s.envAt j := rfl
@[simp] theorem State.drawn_lfoAt (j : Fin 2) : (s.drawn).lfoAt j = s.lfoAt j := rfl
@[simp] theorem State.drawn_filtAt (j : Fin 1) : (s.drawn).filtAt j = s.filtAt j := rfl

@[simp] theorem State.setSr_oscAt (v : F64) (j : Fin 3) : (s.setSr v).oscAt j = s.oscAt j := rfl
@[simp] theorem State.setSr_envAt (v : F64) (j : Fin 1) : (s.setSr v).envAt j = s.envAt j := rfl
@[simp] theorem State.setSr_lfoAt (v : F64) (j : Fin 2) : (s.setSr v).lfoAt j = s.lfoAt j := rfl
@[simp] theorem State.setSr_filtAt (v : F64) (j : Fin 1) :
    (s.setSr v).filtAt j = { s.filtAt j with dirty := true } := by
  simp [State.setSr, State.filtAt]


@[simp] theorem State.noResult_faulted : (s.noResult).faulted = s.faulted := rfl
@[simp] theorem State.noResult_srValid : (s.noResult).srValid = s.srValid := rfl
@[simp] theorem State.returns_faulted (v : BitVec 64) : (s.returns v).faulted = s.faulted := rfl
@[simp] theorem State.returns_srValid (v : BitVec 64) : (s.returns v).srValid = s.srValid := rfl
@[simp] theorem State.returnsSample_faulted (y : F64) : (s.returnsSample y).faulted = s.faulted := rfl
@[simp] theorem State.returnsSample_srValid (y : F64) : (s.returnsSample y).srValid = s.srValid := rfl
@[simp] theorem State.setOsc_faulted (i : Fin 3) (r : OscRegs) : (s.setOsc i r).faulted = s.faulted := rfl
@[simp] theorem State.setOsc_srValid (i : Fin 3) (r : OscRegs) : (s.setOsc i r).srValid = s.srValid := rfl
@[simp] theorem State.setEnv_faulted (i : Fin 1) (r : EnvRegs) : (s.setEnv i r).faulted = s.faulted := rfl
@[simp] theorem State.setEnv_srValid (i : Fin 1) (r : EnvRegs) : (s.setEnv i r).srValid = s.srValid := rfl
@[simp] theorem State.setLfo_faulted (i : Fin 2) (r : LfoRegs) : (s.setLfo i r).faulted = s.faulted := rfl
@[simp] theorem State.setLfo_srValid (i : Fin 2) (r : LfoRegs) : (s.setLfo i r).srValid = s.srValid := rfl
@[simp] theorem State.setFilt_faulted (i : Fin 1) (r : FiltRegs) : (s.setFilt i r).faulted = s.faulted := rfl
@[simp] theorem State.setFilt_srValid (i : Fin 1) (r : FiltRegs) : (s.setFilt i r).srValid = s.srValid := rfl
@[simp] theorem State.drawn_faulted : (s.drawn).faulted = s.faulted := rfl
@[simp] theorem State.drawn_srValid : (s.drawn).srValid = s.srValid := rfl

/-! ### The status word (R43, R400) -/

theorem statusFaulted_recordFault (c : FaultCode) (w : BitVec 32) : statusFaulted (statusRecordFault c w) = true := by
  cases c <;> simp [statusFaulted, statusRecordFault, FaultCode.number]

theorem statusSrValid_recordFault (c : FaultCode) (w : BitVec 32) :
    statusSrValid (statusRecordFault c w) = statusSrValid w := by
  cases c <;> simp [statusSrValid, statusRecordFault, FaultCode.number]

theorem statusSrValid_setSrValid (w : BitVec 32) : statusSrValid (statusSetSrValid w) = true := by
  simp [statusSrValid, statusSetSrValid]

theorem statusFaulted_setSrValid (w : BitVec 32) : statusFaulted (statusSetSrValid w) = statusFaulted w := by
  simp [statusFaulted, statusSetSrValid]

@[simp] theorem State.raise_faulted (c : FaultCode) (w : CmdWord) : (s.raise c w).faulted = true :=
  statusFaulted_recordFault c s.status

@[simp] theorem State.raise_srValid (c : FaultCode) (w : CmdWord) : (s.raise c w).srValid = s.srValid :=
  statusSrValid_recordFault c s.status

@[simp] theorem State.setSr_srValid (v : F64) : (s.setSr v).srValid = true :=
  statusSrValid_setSrValid s.status

@[simp] theorem State.setSr_faulted (v : F64) : (s.setSr v).faulted = s.faulted :=
  statusFaulted_setSrValid s.status

end Sys2Proof.Machine
end

