-- ==== Sys2Proof/Laws/Ops.lean ====
section
/-! SUPPORT. What each shared operation can do, said once: an instance, an operand, a rate or an immediate lets the rest
of the command run, or ends it in the one way the rule names. -/

namespace Sys2Proof.Machine

variable {s t : State}

/-! ### When the rest of the command runs -/

theorem onInstance_present {n : Nat} {idx : BitVec 4} (h : idx.toNat < n) (rest : Fin n → Result) :
    onInstance n idx s rest = rest ⟨idx.toNat, h⟩ := by
  simp [onInstance, h]

theorem onInstance_missing {n : Nat} {idx : BitVec 4} (h : n ≤ idx.toNat) (rest : Fin n → Result) :
    onInstance n idx s rest = .next s.noResult := by
  simp [onInstance, Nat.not_lt.2 h]

/-- Naming instance `i` by its number runs the rest of the command on it. -/
theorem onInstance_instIdx {n : Nat} (hn : n ≤ 16) (i : Fin n) (rest : Fin n → Result) :
    onInstance n (instIdx i) s rest = rest i := by
  have h : (instIdx i).toNat = i.val := by
    rw [instIdx, BitVec.toNat_ofNat, Nat.mod_eq_of_lt (by have := i.isLt; omega)]
  rw [onInstance_present (by rw [h]; exact i.isLt)]
  exact congrArg rest (Fin.ext h)

theorem numberOperand_number {v : F64} (h : Fp.isNaN v = false) (cmd : CmdWord) (rest : Result) :
    numberOperand cmd v s rest = rest := by
  simp [numberOperand, h]

theorem numberOperand_nan {v : F64} (h : Fp.isNaN v = true) (cmd : CmdWord) (rest : Result) :
    numberOperand cmd v s rest = .next (s.raise .badOperand cmd) := by
  simp [numberOperand, h, raiseFault]

theorem requireSr_configured (h : s.srValid = true) (cmd : CmdWord) (rest : Result) :
    requireSr cmd s rest = rest := by
  simp [requireSr, h]

theorem requireSr_unconfigured (h : s.srValid = false) (cmd : CmdWord) (rest : Result) :
    requireSr cmd s rest = .next (s.raise .notConfigured cmd) := by
  simp [requireSr, h, raiseFault]

/-! ### What follows from a next state -/

theorem onInstance_next {n : Nat} {idx : BitVec 4} {rest : Fin n → Result} (h : onInstance n idx s rest = .next t) :
    t = s.noResult ∨ ∃ i : Fin n, i.val = idx.toNat ∧ rest i = .next t := by
  unfold onInstance at h
  split at h
  · exact .inr ⟨_, rfl, h⟩
  · exact .inl (by injection h with h; exact h.symm)

theorem numberOperand_next {cmd : CmdWord} {v : F64} {rest : Result} (h : numberOperand cmd v s rest = .next t) :
    t = s.raise .badOperand cmd ∨ (Fp.isNaN v = false ∧ rest = .next t) := by
  unfold numberOperand at h
  split at h
  · exact .inl (by injection h with h; exact h.symm)
  · rename_i hv; exact .inr ⟨by simpa using hv, h⟩

theorem requireSr_next {cmd : CmdWord} {rest : Result} (h : requireSr cmd s rest = .next t) :
    t = s.raise .notConfigured cmd ∨ (s.srValid = true ∧ rest = .next t) := by
  unfold requireSr at h
  split at h
  · rename_i hv; exact .inr ⟨hv, h⟩
  · exact .inl (by injection h with h; exact h.symm)

theorem selOperand_next {α : Type} {cmd : CmdWord} {meaning : Option α} {rest : α → Result}
    (h : selOperand cmd meaning s rest = .next t) :
    t = s.raise .illegalCommand cmd ∨ ∃ a, meaning = some a ∧ rest a = .next t := by
  unfold selOperand at h
  split at h
  · rename_i a; exact .inr ⟨a, rfl, h⟩
  · exact .inl (by injection h with h; exact h.symm)

theorem next_inj {a b : State} (h : (Host.Outcome.next a : Result) = .next b) : b = a := by
  injection h with h; exact h.symm

/-! ### Every command gives a next state -/

theorem onInstance_total {n : Nat} {idx : BitVec 4} {rest : Fin n → Result} (h : ∀ i, ∃ t, rest i = .next t) :
    ∃ t, onInstance n idx s rest = .next t := by
  unfold onInstance; split
  · exact h _
  · exact ⟨_, rfl⟩

theorem numberOperand_total {cmd : CmdWord} {v : F64} {rest : Result} (h : ∃ t, rest = .next t) :
    ∃ t, numberOperand cmd v s rest = .next t := by
  unfold numberOperand; split
  · exact ⟨_, rfl⟩
  · exact h

theorem requireSr_total {cmd : CmdWord} {rest : Result} (h : ∃ t, rest = .next t) :
    ∃ t, requireSr cmd s rest = .next t := by
  unfold requireSr; split
  · exact h
  · exact ⟨_, rfl⟩

theorem selOperand_total {α : Type} {cmd : CmdWord} {meaning : Option α} {rest : α → Result}
    (h : ∀ a, ∃ t, rest a = .next t) : ∃ t, selOperand cmd meaning s rest = .next t := by
  unfold selOperand; split
  · exact h _
  · exact ⟨_, rfl⟩

/-! ### One step -/

theorem step_command {c : Command} {rest : List HostInput} (h : s.host = .command c :: rest) :
    step s = perform c { s with host := rest } := by
  simp [step, takeInput, h]

theorem step_powerOn {rest : List HostInput} (h : s.host = .powerOn :: rest) :
    step s = .next (State.powerOn (s.run + 1) s.draws rest) := by
  simp [step, takeInput, h, powerCycle]

theorem step_idle (h : s.host = []) : step s = .next s := by
  simp [step, takeInput, h]

theorem perform_stuck (h : s.faulted = true) (c : Command) : perform c s = .next s := by
  simp [perform, h]

theorem perform_illegal {c : Command} {e : Illegal} (h : s.faulted = false) (hd : decode c = .error e) :
    perform c s = .next (s.raise .illegalCommand c.cmd) := by
  simp [perform, h, hd, raiseFault]

theorem perform_legal {c : Command} {i : Instr} (h : s.faulted = false) (hd : decode c = .ok i) :
    perform c s = exec i s := by
  simp [perform, h, hd]

end Sys2Proof.Machine
end

