-- ==== Sys2Proof/Laws/PerInstr.lean ====
section
/-! SUPPORT. Statements made for every command, one lemma per constructor. -/

namespace Sys2Proof.Laws.EncodedIndex

/-- The encoded word keeps `CMD[19:4]` at 0 (30_encoding.md R135) and carries the instance number in `CMD[23:20]`
(R130). -/
def Statement (i : Instr) : Prop := reservedOf i.cmdWord = 0 ∧ idxOf i.cmdWord = i.idx

theorem sysSetSr (idx : BitVec 4) (v : F64) : Statement (.sysSetSr idx v) :=
  ⟨reservedOf_cmdWordOf (by decide) (by decide) _ _, idxOf_cmdWordOf (by decide) (by decide) _ _⟩

theorem oscSetFreq (idx : BitVec 4) (v : F64) : Statement (.oscSetFreq idx v) :=
  ⟨reservedOf_cmdWordOf (by decide) (by decide) _ _, idxOf_cmdWordOf (by decide) (by decide) _ _⟩

theorem oscSetWave (idx : BitVec 4) (sel : BitVec 4) : Statement (.oscSetWave idx sel) :=
  ⟨reservedOf_cmdWordOf (by decide) (by decide) _ _, idxOf_cmdWordOf (by decide) (by decide) _ _⟩

theorem oscSetPw (idx : BitVec 4) (v : F64) : Statement (.oscSetPw idx v) :=
  ⟨reservedOf_cmdWordOf (by decide) (by decide) _ _, idxOf_cmdWordOf (by decide) (by decide) _ _⟩

theorem oscTick (idx : BitVec 4) : Statement (.oscTick idx) :=
  ⟨reservedOf_cmdWordOf (by decide) (by decide) _ _, idxOf_cmdWordOf (by decide) (by decide) _ _⟩

theorem oscReset (idx : BitVec 4) : Statement (.oscReset idx) :=
  ⟨reservedOf_cmdWordOf (by decide) (by decide) _ _, idxOf_cmdWordOf (by decide) (by decide) _ _⟩

theorem oscRandPhase (idx : BitVec 4) : Statement (.oscRandPhase idx) :=
  ⟨reservedOf_cmdWordOf (by decide) (by decide) _ _, idxOf_cmdWordOf (by decide) (by decide) _ _⟩

theorem oscGetPhase (idx : BitVec 4) : Statement (.oscGetPhase idx) :=
  ⟨reservedOf_cmdWordOf (by decide) (by decide) _ _, idxOf_cmdWordOf (by decide) (by decide) _ _⟩

theorem envSetAttack (idx : BitVec 4) (v : F64) : Statement (.envSetAttack idx v) :=
  ⟨reservedOf_cmdWordOf (by decide) (by decide) _ _, idxOf_cmdWordOf (by decide) (by decide) _ _⟩

theorem envSetDecay (idx : BitVec 4) (v : F64) : Statement (.envSetDecay idx v) :=
  ⟨reservedOf_cmdWordOf (by decide) (by decide) _ _, idxOf_cmdWordOf (by decide) (by decide) _ _⟩

theorem envSetSustain (idx : BitVec 4) (v : F64) : Statement (.envSetSustain idx v) :=
  ⟨reservedOf_cmdWordOf (by decide) (by decide) _ _, idxOf_cmdWordOf (by decide) (by decide) _ _⟩

theorem envSetRelease (idx : BitVec 4) (v : F64) : Statement (.envSetRelease idx v) :=
  ⟨reservedOf_cmdWordOf (by decide) (by decide) _ _, idxOf_cmdWordOf (by decide) (by decide) _ _⟩

theorem envNoteOn (idx : BitVec 4) (v : F64) : Statement (.envNoteOn idx v) :=
  ⟨reservedOf_cmdWordOf (by decide) (by decide) _ _, idxOf_cmdWordOf (by decide) (by decide) _ _⟩

theorem envNoteOff (idx : BitVec 4) : Statement (.envNoteOff idx) :=
  ⟨reservedOf_cmdWordOf (by decide) (by decide) _ _, idxOf_cmdWordOf (by decide) (by decide) _ _⟩

theorem envTick (idx : BitVec 4) : Statement (.envTick idx) :=
  ⟨reservedOf_cmdWordOf (by decide) (by decide) _ _, idxOf_cmdWordOf (by decide) (by decide) _ _⟩

theorem envReset (idx : BitVec 4) : Statement (.envReset idx) :=
  ⟨reservedOf_cmdWordOf (by decide) (by decide) _ _, idxOf_cmdWordOf (by decide) (by decide) _ _⟩

theorem envGetState (idx : BitVec 4) : Statement (.envGetState idx) :=
  ⟨reservedOf_cmdWordOf (by decide) (by decide) _ _, idxOf_cmdWordOf (by decide) (by decide) _ _⟩

theorem envIsActive (idx : BitVec 4) : Statement (.envIsActive idx) :=
  ⟨reservedOf_cmdWordOf (by decide) (by decide) _ _, idxOf_cmdWordOf (by decide) (by decide) _ _⟩

theorem envGetLevel (idx : BitVec 4) : Statement (.envGetLevel idx) :=
  ⟨reservedOf_cmdWordOf (by decide) (by decide) _ _, idxOf_cmdWordOf (by decide) (by decide) _ _⟩

theorem lfoSetWave (idx : BitVec 4) (sel : BitVec 4) : Statement (.lfoSetWave idx sel) :=
  ⟨reservedOf_cmdWordOf (by decide) (by decide) _ _, idxOf_cmdWordOf (by decide) (by decide) _ _⟩

theorem lfoSetRate (idx : BitVec 4) (v : F64) : Statement (.lfoSetRate idx v) :=
  ⟨reservedOf_cmdWordOf (by decide) (by decide) _ _, idxOf_cmdWordOf (by decide) (by decide) _ _⟩

theorem lfoSetRateMode (idx : BitVec 4) (sel : BitVec 4) : Statement (.lfoSetRateMode idx sel) :=
  ⟨reservedOf_cmdWordOf (by decide) (by decide) _ _, idxOf_cmdWordOf (by decide) (by decide) _ _⟩

theorem lfoSetSyncDiv (idx : BitVec 4) (sel : BitVec 4) : Statement (.lfoSetSyncDiv idx sel) :=
  ⟨reservedOf_cmdWordOf (by decide) (by decide) _ _, idxOf_cmdWordOf (by decide) (by decide) _ _⟩

theorem lfoSetBpm (idx : BitVec 4) (v : F64) : Statement (.lfoSetBpm idx v) :=
  ⟨reservedOf_cmdWordOf (by decide) (by decide) _ _, idxOf_cmdWordOf (by decide) (by decide) _ _⟩

theorem lfoSetDepth (idx : BitVec 4) (v : F64) : Statement (.lfoSetDepth idx v) :=
  ⟨reservedOf_cmdWordOf (by decide) (by decide) _ _, idxOf_cmdWordOf (by decide) (by decide) _ _⟩

theorem lfoTick (idx : BitVec 4) : Statement (.lfoTick idx) :=
  ⟨reservedOf_cmdWordOf (by decide) (by decide) _ _, idxOf_cmdWordOf (by decide) (by decide) _ _⟩

theorem lfoPeek (idx : BitVec 4) : Statement (.lfoPeek idx) :=
  ⟨reservedOf_cmdWordOf (by decide) (by decide) _ _, idxOf_cmdWordOf (by decide) (by decide) _ _⟩

theorem lfoReset (idx : BitVec 4) : Statement (.lfoReset idx) :=
  ⟨reservedOf_cmdWordOf (by decide) (by decide) _ _, idxOf_cmdWordOf (by decide) (by decide) _ _⟩

theorem filtSetMode (idx : BitVec 4) (sel : BitVec 4) : Statement (.filtSetMode idx sel) :=
  ⟨reservedOf_cmdWordOf (by decide) (by decide) _ _, idxOf_cmdWordOf (by decide) (by decide) _ _⟩

theorem filtSetCutoff (idx : BitVec 4) (v : F64) : Statement (.filtSetCutoff idx v) :=
  ⟨reservedOf_cmdWordOf (by decide) (by decide) _ _, idxOf_cmdWordOf (by decide) (by decide) _ _⟩

theorem filtSetRes (idx : BitVec 4) (v : F64) : Statement (.filtSetRes idx v) :=
  ⟨reservedOf_cmdWordOf (by decide) (by decide) _ _, idxOf_cmdWordOf (by decide) (by decide) _ _⟩

theorem filtTick (idx : BitVec 4) (x : F32) : Statement (.filtTick idx x) :=
  ⟨reservedOf_cmdWordOf (by decide) (by decide) _ _, idxOf_cmdWordOf (by decide) (by decide) _ _⟩

theorem filtReset (idx : BitVec 4) : Statement (.filtReset idx) :=
  ⟨reservedOf_cmdWordOf (by decide) (by decide) _ _, idxOf_cmdWordOf (by decide) (by decide) _ _⟩

end Sys2Proof.Laws.EncodedIndex
end

