-- ==== Sys2Proof/Laws/Ranges.lean ====
section
/-! SUPPORT. The ranges of what the block computes: clamps, the phase wrap, the configuration functions, the draws and the
rates, each from the facts of Laws/Float.lean. -/

namespace Sys2Proof

open Fp

/-! ### Clamps and confined values -/

theorem inRange_iff {lo hi v : F64} : inRange lo hi v = true ↔ le lo v = true ∧ le v hi = true := by
  simp [inRange]

theorem isNaN_of_inRange {lo hi v : F64} (h : inRange lo hi v = true) : isNaN v = false := by
  rw [inRange_iff, le_iff, le_iff] at h; exact h.1.2.1

/-- A clamped number is in the range (R172). -/
theorem clamp_inRange {v lo hi : F64} (hv : isNaN v = false) (h : le lo hi = true) :
    inRange lo hi (clamp v lo hi) = true := by
  have hlo : isNaN lo = false := (le_iff.1 h).1
  have hhi : isNaN hi = false := (le_iff.1 h).2.1
  have self : ∀ {x : F64}, isNaN x = false → le x x = true := fun hx => le_iff.2 ⟨hx, hx, le_refl _⟩
  unfold clamp
  rw [inRange_iff]
  split
  · exact ⟨self hlo, h⟩
  · rename_i h1
    split
    · exact ⟨h, self hhi⟩
    · rename_i h2
      exact ⟨le_of_not_lt hv hlo (by simpa using h1), le_of_not_lt hhi hv (by simpa using h2)⟩

theorem confine_legal {legal : F64 → Bool} {other : F64} (h : legal other = true) (v : F64) :
    legal (confine legal other v) = true := by
  unfold confine; split
  · assumption
  · exact h

/-- A legal value is kept. -/
theorem confine_of_legal {legal : F64 → Bool} {v : F64} (h : legal v = true) (other : F64) :
    confine legal other v = v := by
  simp [confine, h]

theorem resetParam_inRange {lo hi : F64} (h : le lo hi = true) (raw : F64) :
    inRange lo hi (resetParam lo hi raw) = true :=
  confine_legal (legal := inRange lo hi)
    (inRange_iff.2 ⟨le_iff.2 ⟨(le_iff.1 h).1, (le_iff.1 h).1, le_refl _⟩, h⟩) raw

theorem phaseDraw_isPhase (n : Nat) : isPhase (phaseDraw n) = true :=
  confine_legal (by decide +kernel) _

theorem heldDraw_inRange (n : Nat) : inRange F.MINUS_ONE F.ONE (heldDraw n) = true :=
  confine_legal (legal := inRange F.MINUS_ONE F.ONE) (by decide +kernel) _

theorem clampBound_legal : isClampBound CLAMP_BOUND = true :=
  confine_legal (by decide +kernel) _

/-! ### The configuration functions (R12, R362) -/

theorem SIN_zero : SIN F.ZERO = F.ZERO := by simp [SIN]

theorem SIN_inRange {x : F64} (h : isFinite x = true) : inRange F.MINUS_ONE F.ONE (SIN x) = true := by
  unfold SIN; split
  · decide +kernel
  · exact confine_legal (legal := inRange F.MINUS_ONE F.ONE) (by decide +kernel) _

theorem TAN_zero : TAN F.ZERO = F.ZERO := by simp [TAN]

theorem TAN_pos {x : F64} (h0 : lt F.ZERO x = true) (h1 : le x TAN_ARG_MAX = true) :
    isFinite (TAN x) = true ∧ lt F.ZERO (TAN x) = true := by
  have hz : x ≠ F.ZERO := by
    rintro rfl
    rw [lt_iff] at h0; omega
  have := confine_legal (legal := fun y => Fp.isFinite y && Fp.lt F.ZERO y) (other := F.ONE)
    (by decide +kernel) (Config.tanRaw x)
  simpa [TAN, hz, h0, h1] using this

theorem negate_inRange_one {y : F64} (h : inRange F.MINUS_ONE F.ONE y = true) :
    inRange F.MINUS_ONE F.ONE (negate y) = true := by
  rw [inRange_iff, le_iff, le_iff] at *
  have e1 : ordKey F.MINUS_ONE = -ordKey F.ONE := by decide +kernel
  rw [ordKey_negate, isNaN_negate]
  refine ⟨⟨h.1.1, h.1.2.1, by omega⟩, h.1.2.1, h.2.2.1, by omega⟩

theorem tanhPositive_inRange (x : F64) : inRange F.MINUS_ONE F.ONE (tanhPositive x) = true :=
  confine_legal (legal := inRange F.MINUS_ONE F.ONE) (by decide +kernel) _

theorem TANH_inRange {x : F64} (h : isNaN x = false) : inRange F.MINUS_ONE F.ONE (TANH x) = true := by
  unfold TANH
  simp only [h, Bool.false_eq_true, if_false]
  split
  · rename_i hz
    have hm : mag x = 0 := by simpa [isZero] using hz
    have hk : ordKey x = 0 := by unfold ordKey; cases neg? x <;> simp [hm]
    have e1 : ordKey F.MINUS_ONE ≤ 0 := by decide +kernel
    have e2 : 0 ≤ ordKey F.ONE := by decide +kernel
    rw [inRange_iff, le_iff, le_iff]
    exact ⟨⟨by decide +kernel, h, by omega⟩, h, by decide +kernel, by omega⟩
  · split
    · split <;> decide +kernel
    · split
      · exact negate_inRange_one (tanhPositive_inRange _)
      · exact tanhPositive_inRange _

theorem TANH_odd {x : F64} (h : isFinite x = true) : TANH (negate x) = negate (TANH x) := by
  have hn := isNaN_of_isFinite h
  have hi := isInf_of_isFinite h
  have hzn : isZero (negate x) = isZero x := by simp [isZero]
  have hin : isInf (negate x) = isInf x := by simp [isInf]
  unfold TANH
  simp only [isNaN_negate, hn, hzn, hin, hi, neg?_negate, negate_negate]
  cases isZero x <;> cases neg? x <;> simp [negate_negate]

theorem RES_COMP_zero (ratio : F64) : RES_COMP F.ZERO ratio = F.ONE := by simp [RES_COMP]

theorem RES_COMP_finite (res ratio : F64) : isFinite (RES_COMP res ratio) = true := by
  unfold RES_COMP; split
  · decide +kernel
  · split
    · have := confine_legal (legal := fun y => Fp.isFinite y && Fp.le F.ONE y) (other := F.ONE)
        (by decide +kernel) (Config.resCompRaw res ratio)
      simp only [Bool.and_eq_true] at this
      exact this.1
    · exact confine_legal (legal := Fp.isFinite) (by decide +kernel) _

theorem RES_COMP_ge_one {res ratio : F64} (h1 : inRange RES_MIN RES_MAX res = true)
    (h2 : lt F.ZERO ratio = true) (h3 : le ratio FC_MAX_RATIO = true) : le F.ONE (RES_COMP res ratio) = true := by
  unfold RES_COMP; split
  · decide +kernel
  · simp only [h1, h2, h3, Bool.and_self, if_true]
    have := confine_legal (legal := fun y => Fp.isFinite y && Fp.le F.ONE y) (other := F.ONE)
      (by decide +kernel) (Config.resCompRaw res ratio)
    simp only [Bool.and_eq_true] at this
    exact this.2

/-! ### The phase wrap (R174) -/

theorem ordKey_one : ordKey F.ONE = 0x3FF0000000000000 := by decide +kernel

theorem value_one : value F.ONE = (one64 : Int) := by decide +kernel

theorem value_zero : value F.ZERO = 0 := by decide +kernel

/-- The distance between the numbers just above 1, in least subnormals. -/
@[irreducible] def ulpOne : Nat := 2 ^ 1022

theorem one64_eq : one64 = 2 ^ 1074 := by unfold one64; rfl

theorem ulpOne_eq : ulpOne = 2 ^ 1022 := by unfold ulpOne; rfl

theorem ulpOne_dvd_one64 : ulpOne ∣ one64 := by
  rw [one64_eq, ulpOne_eq]; exact pow_dvd_pow 2 (by norm_num)

theorem isPhase_iff {p : F64} : isPhase p = true ↔ le F.ZERO p = true ∧ lt p F.ONE = true := by
  simp [isPhase]

/-- `floor` of a finite number that is at least 1 is the exact integer part. -/
theorem floor_of_one_le {p : F64} (hf : isFinite p = true) (h1 : le F.ONE p = true) :
    isFinite (floor p) = true ∧ neg? (floor p) = false ∧
      magValue 52 (mag (floor p)) = magValue 52 (mag p) / one64 * one64 := by
  have hn : neg? p = false := (nonneg_iff.1 (nonneg_of_pos_le (by rw [ordKey_one]; norm_num) h1)).2
  have hv : value p = (magValue 52 (mag p) : Nat) := by simp [value, hn]
  have hge : one64 ≤ magValue 52 (mag p) := by
    have := (le_iff.1 h1).2.2
    rw [ordKey_le_iff, value_one, hv] at this
    exact_mod_cast this
  have hmp : mag p < infMag := by simpa [isFinite] using hf
  set V := magValue 52 (mag p) with hV
  have hq : 1 ≤ V / one64 := (Nat.one_le_div_iff one64_pos).2 hge
  have hvd : value p / (one64 : Int) = ((V / one64 : Nat) : Int) := by rw [hv]; exact (Int.natCast_ediv _ _).symm
  have hfl : floor p = round false (V / one64 * one64) 1 := by
    unfold floor
    simp only [hf, if_true, hvd]
    rw [if_neg (by exact_mod_cast (show V / one64 ≠ 0 by omega))]
    rw [decide_eq_false (by omega : ¬ (((V / one64 : Nat) : Int) < 0)), Int.natAbs_natCast]
  obtain ⟨m, hm⟩ : ∃ m, magValue 52 m = V / one64 * one64 := by
    rcases code_cases 52 (mag p) with h | ⟨e, f, hfr, hp⟩
    · have : V < one64 := by
        rw [hV, magValue_of_field_zero h]
        exact h.trans (by decide +kernel)
      omega
    · have hVe : V = (2 ^ 52 + f) * 2 ^ e := by rw [hV, hp, magValue_of_field hfr]
      rcases Nat.lt_or_ge e 1074 with he | he
      · obtain ⟨m, hm⟩ := exists_code 52 (V / one64) 1074 (by
          rw [Nat.div_lt_iff_lt_mul one64_pos, hVe]
          calc (2 ^ 52 + f) * 2 ^ e ≤ (2 ^ 52 + f) * one64 := by
                rw [one64_eq]; exact Nat.mul_le_mul_left _ (Nat.pow_le_pow_right (by norm_num) he.le)
            _ < 2 ^ (52 + 1) * one64 := Nat.mul_lt_mul_of_pos_right (by rw [pow_succ]; omega) one64_pos)
        exact ⟨m, by rw [hm, one64_eq]⟩
      · refine ⟨mag p, ?_⟩
        have hd : one64 ∣ V := by
          rw [hVe, one64_eq]
          exact Dvd.dvd.mul_left (pow_dvd_pow 2 he) _
        exact (Nat.div_mul_cancel hd).symm
  have hle : m ≤ mag p := by
    rw [← magValue_le_iff (fb := 52), hm]; exact Nat.div_mul_le_self _ _
  have hfl' : floor p = pack false m := by
    rw [hfl, ← hm, ← Nat.mul_one (magValue 52 m)]; exact round_exact false (by omega) one_pos
  have hm63 : m < 2 ^ 63 := lt_trans (lt_of_le_of_lt hle hmp) infMag_lt
  rw [hfl']
  refine ⟨?_, neg?_pack hm63, ?_⟩
  · simp only [isFinite, mag_pack hm63, decide_eq_true_eq]; omega
  · rw [mag_pack hm63]; exact hm

/-- A value of at least 1 is a multiple of the distance between the numbers just above 1. -/
theorem dvd_magValue_of_one_le {m : Nat} (h : one64 ≤ magValue 52 m) : ulpOne ∣ magValue 52 m := by
  rcases code_cases 52 m with hm | ⟨e, f, hf, rfl⟩
  · rw [magValue_of_field_zero hm] at h
    exact absurd (lt_of_lt_of_le hm (le_trans (by decide +kernel : 2 ^ 52 ≤ one64) h)) (lt_irrefl _)
  · rw [magValue_of_field hf] at h ⊢
    have he : 1022 ≤ e := by
      by_contra hc
      have : (2 ^ 52 + f) * 2 ^ e < one64 := by
        calc (2 ^ 52 + f) * 2 ^ e ≤ (2 ^ 52 + f) * 2 ^ 1021 :=
              Nat.mul_le_mul_left _ (Nat.pow_le_pow_right (by norm_num) (by omega))
          _ < 2 ^ 53 * 2 ^ 1021 := Nat.mul_lt_mul_of_pos_right (by omega) (Nat.two_pow_pos _)
          _ = one64 := by decide +kernel
      omega
    rw [ulpOne_eq]
    exact Dvd.dvd.mul_left (pow_dvd_pow 2 he) _

/-- R174: the wrap of a finite non-negative number is in [0, 1). -/
theorem wrap_isPhase {p : F64} (hf : isFinite p = true) (h0 : le F.ZERO p = true) : isPhase (wrap p) = true := by
  have hN := isNaN_of_isFinite hf
  unfold wrap
  split
  · rename_i h1
    obtain ⟨hff, hfn, hfv⟩ := floor_of_one_le hf h1
    have hn : neg? p = false := (nonneg_iff.1 (nonneg_of_pos_le (by rw [ordKey_one]; norm_num) h1)).2
    have hge : one64 ≤ magValue 52 (mag p) := by
      have := (le_iff.1 h1).2.2
      rw [ordKey_le_iff, value_one] at this
      simp only [value, hn, Bool.false_eq_true, if_false] at this
      exact_mod_cast this
    set V := magValue 52 (mag p) with hV
    have hsum : value p + value (negate (floor p)) = ((V % one64 : Nat) : Int) := by
      have e := Nat.div_add_mod V one64
      rw [value_negate]
      simp only [value, hn, hfn, hfv, Bool.false_eq_true, if_false]
      rw [← hV]
      have e' : V / one64 * one64 + V % one64 = V := by rw [Nat.mul_comm]; exact e
      have e'' : ((V / one64 * one64 : Nat) : Int) + ((V % one64 : Nat) : Int) = (V : Int) := by exact_mod_cast e'
      omega
    have hneg : isFinite (negate (floor p)) = true := by simpa using hff
    have hmod : V % one64 < one64 := Nat.mod_lt _ one64_pos
    -- the exact difference is at most the greatest number below 1
    have hlt : V % one64 + ulpOne ≤ one64 := by
      have hd : ulpOne ∣ one64 - V % one64 :=
        Nat.dvd_sub ulpOne_dvd_one64 ((Nat.dvd_mod_iff ulpOne_dvd_one64).2 (dvd_magValue_of_one_le hge))
      have := Nat.le_of_dvd (by omega) hd
      omega
    rw [isPhase_iff]
    refine ⟨le_add hf hneg (by decide +kernel) ?_, ?_⟩
    · rw [hsum, value_zero]; exact Int.natCast_nonneg _
    · have hz : isNaN 0x3FEFFFFFFFFFFFFF#64 = false := by decide +kernel
      have hpred : (one64 : Int) ≤ value 0x3FEFFFFFFFFFFFFF#64 + (ulpOne : Nat) := by decide +kernel
      refine num_lt_of_le_of_lt (add_le hf hneg hz ?_) (by decide +kernel)
      rw [hsum]; omega
  · rename_i h1
    rw [isPhase_iff]
    exact ⟨h0, lt_of_not_le (by decide +kernel) hN (by simpa using h1)⟩

end Sys2Proof
end

