-- ==== Sys2Proof/Laws/Units.lean ====
section
/-! SUPPORT. Each unit keeps its registers legal: the oscillator's and the LFO's advance, the envelope's tick, the
filter's sample and refresh. -/

namespace Sys2Proof.Machine

open Fp

/-! ### Numbers in a range -/

/-- A number of a positive range has its sign bit clear. -/
theorem nonneg_of_inRange {lo hi v : F64} (hlo : 0 < ordKey lo) (h : inRange lo hi v = true) : nonneg v = true :=
  nonneg_of_pos_le hlo (inRange_iff.1 h).1

theorem finite_of_inRange {lo hi v : F64} (hlo : isFinite lo = true) (hhi : isFinite hi = true)
    (h : inRange lo hi v = true) : isFinite v = true :=
  isFinite_of_between hlo hhi (inRange_iff.1 h).1 (inRange_iff.1 h).2

theorem mag_le_of_inRange {lo hi v : F64} (hlo : 0 < ordKey lo) (h : inRange lo hi v = true) :
    mag lo ≤ mag v ∧ mag v ≤ mag hi := by
  have hv := nonneg_of_inRange hlo h
  have h1 := (le_iff.1 (inRange_iff.1 h).1).2.2
  have h2 := (le_iff.1 (inRange_iff.1 h).2).2.2
  rw [ordKey_of_nonneg hv] at h1 h2
  have k1 : ordKey lo ≤ mag lo := by unfold ordKey; split <;> omega
  have k2 : ordKey hi ≤ mag hi := by unfold ordKey; split <;> omega
  have k3 : ordKey lo = mag lo := by
    have : ordKey lo = (if neg? lo then -(mag lo : Int) else mag lo) := rfl
    split at this <;> omega
  omega

theorem isZero_of_pos {x : F64} (h : 0 < mag x) : isZero x = false := by
  simp [isZero]; omega

/-- A phase is finite. -/
theorem finite_of_isPhase {p : F64} (h : isPhase p = true) : isFinite p = true := by
  rw [isPhase_iff] at h
  exact isFinite_of_between (a := F.ZERO) (b := F.ONE) (by decide +kernel) (by decide +kernel) h.1 (num_le_of_lt h.2)

/-- A legal sample rate is finite, has its sign bit clear and is at least 1. -/
theorem sampleRate_facts {sr : F64} (h : isSampleRate sr = true) :
    isFinite sr = true ∧ nonneg sr = true ∧ one64 ≤ magValue 52 (mag sr) := by
  simp only [isSampleRate, Bool.and_eq_true] at h
  have hn : nonneg sr = true := nonneg_of_pos_le (by decide +kernel) h.2
  refine ⟨h.1, hn, ?_⟩
  have h2 := (le_iff.1 h.2).2.2
  rw [ordKey_le_iff, value_of_nonneg hn] at h2
  have e : value SR_MIN = (one64 : Int) := by decide +kernel
  omega

/-! ### Phase advances -/

/-- A phase plus a non-negative increment of at most 20000 wraps to a phase (R209, R308). -/
theorem wrap_add_isPhase {p d : F64} (hp : isPhase p = true) (hd : nonneg d = true) (hm : mag d ≤ mag FREQ_MAX) :
    isPhase (wrap (add p d)) = true := by
  have hpf := finite_of_isPhase hp
  have hdf : isFinite d = true := by
    have : mag FREQ_MAX < infMag := by decide +kernel
    simp [isFinite]; omega
  rw [isPhase_iff] at hp
  have hv0 : 0 ≤ value p := by
    have := (le_iff.1 hp.1).2.2
    rw [ordKey_le_iff, value_zero] at this; exact this
  have hv1 : value p ≤ value F.ONE := by
    have := (le_iff.1 (num_le_of_lt hp.2)).2.2
    rwa [ordKey_le_iff] at this
  have hvd := value_of_nonneg hd
  have hd1 : magValue 52 (mag d) ≤ magValue 52 (mag FREQ_MAX) := magValue_le_iff.2 hm
  have hbig : value F.ONE + (magValue 52 (mag FREQ_MAX) : Nat) ≤ value 0x40D3884000000000#64 := by decide +kernel
  have hlo : le F.ZERO (add p d) = true :=
    le_add hpf hdf (by decide +kernel) (by rw [value_zero]; omega)
  have hhi : le (add p d) 0x40D3884000000000#64 = true :=
    add_le hpf hdf (by decide +kernel) (by omega)
  exact wrap_isPhase (isFinite_of_between (by decide +kernel) (by decide +kernel) hlo hhi) hlo

/-- Dividing a positive bounded rate by a legal sample rate gives a non-negative increment no greater than the rate. -/
theorem increment_facts {lo hi rate sr : F64} (hlo : 0 < ordKey lo) (hlof : isFinite lo = true)
    (hhif : isFinite hi = true) (hr : inRange lo hi rate = true) (hs : isSampleRate sr = true) :
    nonneg (div rate sr) = true ∧ mag (div rate sr) ≤ mag hi := by
  obtain ⟨hsf, hsn, hs1⟩ := sampleRate_facts hs
  have hrn := nonneg_of_inRange hlo hr
  have hrf := finite_of_inRange hlof hhif hr
  have hz : isZero sr = false := by
    by_contra hc
    have : mag sr = 0 := by simpa [isZero] using hc
    rw [this, magValue_zero] at hs1
    have := one64_pos; omega
  exact ⟨nonneg_div hrn hsn hrf hz,
    (mag_div_le_self hrn hsn hrf hsf hs1).trans (mag_le_of_inRange hlo hr).2⟩

/-- The oscillator's advance keeps its registers legal. -/
theorem OscRegs.legal_advance {r : OscRegs} {sr : F64} (h : r.legal = true) (hs : isSampleRate sr = true) :
    (r.advance (oscIncrement sr r)).legal = true := by
  simp only [OscRegs.legal, Bool.and_eq_true] at h ⊢
  obtain ⟨⟨hf, hw⟩, hp⟩ := h
  obtain ⟨h1, h2⟩ := increment_facts (by decide +kernel) (by decide +kernel) (by decide +kernel) hf hs
  exact ⟨⟨hf, hw⟩, wrap_add_isPhase hp h1 h2⟩

/-! ### The LFO -/

/-- `SYNC_BEATS` lies in [0.25, 16] (R303). -/
theorem SYNC_BEATS_inRange (d : SyncDiv) : inRange F.QUARTER 0x4030000000000000#64 (SYNC_BEATS d) = true := by
  have : ∀ d : Fin 7, inRange F.QUARTER 0x4030000000000000#64 (SYNC_BEATS d) = true := by decide +kernel
  exact this d

/-- The effective rate has its sign bit clear and is at most 1200 Hz (R306 says less: at most 20). -/
theorem lfoEffRate_facts {r : LfoRegs} (h : r.legal = true) :
    nonneg (lfoEffRate r) = true ∧ mag (lfoEffRate r) ≤ mag (0x4092C00000000000#64) := by
  simp only [LfoRegs.legal, Bool.and_eq_true] at h
  obtain ⟨⟨⟨⟨⟨hr, hb⟩, -⟩, -⟩, -⟩, -⟩ := h
  unfold lfoEffRate
  split
  · refine ⟨nonneg_of_inRange (by decide +kernel) hr, (mag_le_of_inRange (by decide +kernel) hr).2.trans (by decide +kernel)⟩
  · have hbn := nonneg_of_inRange (by decide +kernel) hb
    have hbf := finite_of_inRange (by decide +kernel) (by decide +kernel) hb
    have h60 : nonneg (div r.bpm F.SIXTY) = true := nonneg_div hbn (by decide +kernel) hbf (by decide +kernel)
    have h60m : mag (div r.bpm F.SIXTY) ≤ mag BPM_MAX :=
      (mag_div_le_self hbn (by decide +kernel) hbf (by decide +kernel) (by decide +kernel)).trans
        (mag_le_of_inRange (by decide +kernel) hb).2
    have h60f : isFinite (div r.bpm F.SIXTY) = true := by
      have : mag BPM_MAX < infMag := by decide +kernel
      simp [isFinite]; omega
    have hs := SYNC_BEATS_inRange r.syncDiv
    have hsn := nonneg_of_inRange (by decide +kernel) hs
    have hsf := finite_of_inRange (by decide +kernel) (by decide +kernel) hs
    have hsm := (mag_le_of_inRange (by decide +kernel) hs).1
    have hsz : isZero (SYNC_BEATS r.syncDiv) = false :=
      isZero_of_pos (lt_of_lt_of_le (by decide +kernel : 0 < mag F.QUARTER) hsm)
    refine ⟨nonneg_div h60 hsn h60f hsz, mag_div_le h60 hsn h60f hsf hsz ?_⟩
    calc magValue 52 (mag (div r.bpm F.SIXTY)) * one64
        ≤ magValue 52 (mag BPM_MAX) * one64 := Nat.mul_le_mul_right _ (magValue_le_iff.2 h60m)
      _ = magValue 52 (mag (0x4092C00000000000#64)) * magValue 52 (mag F.QUARTER) := by decide +kernel
      _ ≤ _ := Nat.mul_le_mul_left _ (magValue_le_iff.2 hsm)

/-- The LFO's advance keeps its registers legal. -/
theorem LfoRegs.legal_advance {r : LfoRegs} {sr : F64} (h : r.legal = true) (hs : isSampleRate sr = true) :
    (r.advance (lfoIncrement sr r)).legal = true := by
  obtain ⟨hsf, hsn, hs1⟩ := sampleRate_facts hs
  obtain ⟨hen, hem⟩ := lfoEffRate_facts h
  have hef : isFinite (lfoEffRate r) = true := by
    have : mag (0x4092C00000000000#64) < infMag := by decide +kernel
    simp [isFinite]; omega
  have hz : isZero sr = false := by
    by_contra hc
    have : mag sr = 0 := by simpa [isZero] using hc
    rw [this, magValue_zero] at hs1
    have := one64_pos; omega
  have hi : mag (lfoIncrement sr r) ≤ mag FREQ_MAX :=
    ((mag_div_le_self hen hsn hef hsf hs1).trans hem).trans (by decide +kernel)
  simp only [LfoRegs.legal, Bool.and_eq_true] at h ⊢
  obtain ⟨⟨⟨⟨⟨hr, hb⟩, hd⟩, hp⟩, hl⟩, hh⟩ := h
  exact ⟨⟨⟨⟨⟨hr, hb⟩, hd⟩, wrap_add_isPhase hp (nonneg_div hen hsn hef hz) hi⟩, hp⟩, hh⟩

/-! ### The envelope -/

theorem unit_facts {x : F64} (h : inRange F.ZERO F.ONE x = true) :
    isFinite x = true ∧ 0 ≤ value x ∧ value x ≤ value F.ONE := by
  have h' := inRange_iff.1 h
  have h1 := (le_iff.1 h'.1).2.2
  have h2 := (le_iff.1 h'.2).2.2
  rw [ordKey_le_iff, value_zero] at h1
  rw [ordKey_le_iff] at h2
  exact ⟨finite_of_inRange (by decide +kernel) (by decide +kernel) h, h1, h2⟩

theorem nonneg_le_zero {x : F64} (h : nonneg x = true) : le F.ZERO x = true := by
  have hk := ordKey_of_nonneg h
  rw [nonneg_iff] at h
  have e : ordKey F.ZERO = 0 := by decide +kernel
  exact le_iff.2 ⟨by decide +kernel, h.1, by omega⟩

/-- A number that is at least 0 is finite or +infinity. -/
theorem finite_or_inf {x : F64} (h : le F.ZERO x = true) :
    (isFinite x = true ∧ 0 ≤ value x) ∨ (isInf x = true ∧ neg? x = false) := by
  have hn := (le_iff.1 h).2.1
  have hk := (le_iff.1 h).2.2
  have e : ordKey F.ZERO = 0 := by decide +kernel
  by_cases hf : isFinite x = true
  · left
    have := hk
    rw [ordKey_le_iff, value_zero] at this
    exact ⟨hf, this⟩
  · right
    have hi : isInf x = true := by
      rw [isFinite_eq, hn] at hf
      cases hi : isInf x <;> simp [hi] at hf ⊢
    refine ⟨hi, ?_⟩
    by_contra hc
    have hm : mag x = infMag := by simpa [isInf] using hi
    have hp : 0 < infMag := by decide +kernel
    unfold ordKey at hk
    simp at hc
    rw [hc] at hk
    simp at hk
    have : (0 : Int) ≤ -(mag x : Int) := by rw [← e]; exact hk
    omega

/-- A time at least 1 ms times a legal sample rate, as a divisor. -/
theorem period_facts {t sr : F64} (ht : inRange ATTACK_MIN RELEASE_MAX t = true) (hs : isSampleRate sr = true) :
    nonneg (mul t sr) = true ∧ isZero (mul t sr) = false := by
  obtain ⟨hsf, hsn, hs1⟩ := sampleRate_facts hs
  have htn := nonneg_of_inRange (by decide +kernel) ht
  have htf := finite_of_inRange (by decide +kernel) (by decide +kernel) ht
  refine ⟨nonneg_mul htn hsn htf hsf, ?_⟩
  have htm := (mag_le_of_inRange (by decide +kernel) ht).1
  apply isZero_of_pos
  have h1 := nonneg_iff.1 htn
  have h2 := nonneg_iff.1 hsn
  simp only [mul, h1.1, h2.1, isInf_of_isFinite htf, isInf_of_isFinite hsf, Bool.or_self, Bool.false_eq_true, if_false]
  rw [mag_round]
  have : mag ATTACK_MIN ≤ roundMag 52 (magValue 52 (mag t) * magValue 52 (mag sr)) one64 := by
    refine le_roundMag one64_pos ?_
    exact Nat.mul_le_mul (magValue_le_iff.2 htm) hs1
  have hp : 0 < mag ATTACK_MIN := by decide +kernel
  have hq : 0 < infMag := by decide +kernel
  exact Nat.lt_min.2 ⟨by omega, hq⟩

theorem inRange_widen {lo hi lo' hi' v : F64} (h1 : le lo' lo = true) (h2 : le hi hi' = true)
    (h : inRange lo hi v = true) : inRange lo' hi' v = true :=
  inRange_iff.2 ⟨num_le_trans h1 (inRange_iff.1 h).1, num_le_trans (inRange_iff.1 h).2 h2⟩

/-- The attack rate is at least 0 (R254). -/
theorem attackRate_nonneg {r : EnvRegs} {sr : F64} (ha : inRange ATTACK_MIN ATTACK_MAX r.attack = true)
    (hs : isSampleRate sr = true) : le F.ZERO (attackRate sr r) = true := by
  have h : inRange ATTACK_MIN RELEASE_MAX (fmax r.attack ATTACK_FLOOR) = true := by
    unfold fmax; split
    · decide +kernel
    · exact inRange_widen (by decide +kernel) (by decide +kernel) ha
  obtain ⟨h1, h2⟩ := period_facts h hs
  exact nonneg_le_zero (nonneg_div (by decide +kernel) h1 (by decide +kernel) h2)

/-- The decay rate is at least 0 (R254). -/
theorem decayRate_nonneg {r : EnvRegs} {sr : F64} (hd : inRange DECAY_MIN DECAY_MAX r.decay = true)
    (hu : inRange SUSTAIN_MIN SUSTAIN_MAX r.sustain = true) (hs : isSampleRate sr = true) :
    le F.ZERO (decayRate sr r) = true := by
  obtain ⟨h1, h2⟩ := period_facts (inRange_widen (by decide +kernel) (by decide +kernel) hd) hs
  obtain ⟨huf, hu0, hu1⟩ := unit_facts hu
  have hsub : nonneg (sub F.ONE r.sustain) = true := by
    have hnf : isFinite (negate r.sustain) = true := by simpa using huf
    have hv : value F.ONE + value (negate r.sustain) = value F.ONE - value r.sustain := by rw [value_negate]; ring
    unfold sub
    rw [nonneg_iff]
    refine ⟨isNaN_add_finite (by decide +kernel) hnf, ?_⟩
    rw [add_finite (by decide +kernel) hnf]
    split
    · rw [neg?_pack (by decide +kernel)]
      have : neg? F.ONE = false := by decide +kernel
      simp [this]
    · rw [neg?_round]; simp; omega
  have hsf : isFinite (sub F.ONE r.sustain) = true := by
    have hnf : isFinite (negate r.sustain) = true := by simpa using huf
    refine isFinite_of_between (a := F.ZERO) (b := F.ONE) (by decide +kernel) (by decide +kernel) (nonneg_le_zero hsub) ?_
    exact add_le (by decide +kernel) hnf (by decide +kernel) (by rw [value_negate]; omega)
  exact nonneg_le_zero (nonneg_div hsub h1 hsf h2)

/-- The latched release rate is at least 0 (R57, R256), for a level with its sign bit clear or not. -/
theorem latchedReleaseRate_nonneg {r : EnvRegs} {sr : F64} (hr : inRange RELEASE_MIN RELEASE_MAX r.release = true)
    (hl : inRange F.ZERO F.ONE r.level = true) (hs : isSampleRate sr = true) :
    le F.ZERO (latchedReleaseRate sr r) = true := by
  obtain ⟨h1, h2⟩ := period_facts (inRange_widen (by decide +kernel) (by decide +kernel) hr) hs
  obtain ⟨hlf, hl0, hl1⟩ := unit_facts hl
  unfold latchedReleaseRate
  set d := mul r.release sr with hd
  have hlN := isNaN_of_isFinite hlf
  rw [nonneg_iff] at h1
  by_cases hneg : neg? r.level = true
  · -- the level is -0: the quotient is a zero
    have hm : mag r.level = 0 := by
      have : value r.level = -(magValue 52 (mag r.level) : Int) := by simp [value, hneg]
      have h0 : magValue 52 (mag r.level) = 0 := by omega
      have := magValue_le_iff (fb := 52) (a := mag r.level) (b := 0)
      simp at this; omega
    have hq : mag (div r.level d) = 0 ∧ isNaN (div r.level d) = false := by
      simp only [div, hlN, h1.1, isInf_of_isFinite hlf, h2, Bool.or_self, Bool.false_eq_true, if_false]
      have hp : 0 < magValue 52 (mag d) := by
        have : magValue 52 0 < magValue 52 (mag d) := magValue_lt_iff.2 (by simp [isZero] at h2; omega)
        simpa using this
      split
      · simp [mag_pack, isNaN]
      · simp [mag_round, isNaN, hm, hp]
    have hk : ordKey (div r.level d) = 0 := by unfold ordKey; split <;> simp [hq.1]
    have e : ordKey F.ZERO = 0 := by decide +kernel
    exact le_iff.2 ⟨by decide +kernel, hq.2, by omega⟩
  · exact nonneg_le_zero (nonneg_div (nonneg_iff.2 ⟨hlN, by simpa using hneg⟩) (nonneg_iff.2 h1) hlf h2)

/-- Adding a rate of at least 0 to a level keeps it a number of at least 0. -/
theorem level_add {x d : F64} (hx : inRange F.ZERO F.ONE x = true) (hd : le F.ZERO d = true) :
    le F.ZERO (add x d) = true := by
  obtain ⟨hf, h0, -⟩ := unit_facts hx
  rcases finite_or_inf hd with ⟨hdf, hd0⟩ | ⟨hdi, -⟩
  · exact le_add hf hdf (by decide +kernel) (by rw [value_zero]; omega)
  · rw [add_inf hf hdi]; exact hd

/-- Subtracting a rate of at least 0 from a level keeps it a number of at most 1. -/
theorem level_sub {x d : F64} (hx : inRange F.ZERO F.ONE x = true) (hd : le F.ZERO d = true) :
    le (sub x d) F.ONE = true := by
  obtain ⟨hf, h0, h1⟩ := unit_facts hx
  unfold sub
  rcases finite_or_inf hd with ⟨hdf, hd0⟩ | ⟨hdi, hdn⟩
  · exact add_le hf (by simpa using hdf) (by decide +kernel) (by rw [value_negate]; omega)
  · rw [add_inf hf (by simpa [isInf] using hdi)]
    have hn := (le_iff.1 hd).2.1
    have hk : ordKey (negate d) ≤ 0 := by unfold ordKey; simp [hdn]
    have e : 0 ≤ ordKey F.ONE := by decide +kernel
    exact le_iff.2 ⟨by simpa using hn, by decide +kernel, by omega⟩

/-- A legal level and a state that fits it keep the envelope's registers legal. -/
theorem EnvRegs.legal_of_level {r : EnvRegs} (h : r.legal = true) {l : F64} {st : EnvState}
    (hl : inRange F.ZERO F.ONE l = true) (hst : st ≠ .idle ∨ l = F.ZERO) :
    ({ r with level := l, state := st } : EnvRegs).legal = true := by
  simp only [EnvRegs.legal, Bool.and_eq_true, Bool.or_eq_true, decide_eq_true_eq] at h ⊢
  obtain ⟨⟨⟨⟨⟨⟨⟨ha, hd⟩, hu⟩, hr⟩, -⟩, hv⟩, hrr⟩, -⟩ := h
  exact ⟨⟨⟨⟨⟨⟨⟨ha, hd⟩, hu⟩, hr⟩, hl⟩, hv⟩, hrr⟩, hst⟩

/-- Every step of the envelope keeps its registers legal (R77). -/
theorem EnvRegs.legal_tick {r : EnvRegs} {sr : F64} (h : r.legal = true) (hs : isSampleRate sr = true) :
    (r.tick sr).legal = true := by
  have hp := h
  simp only [EnvRegs.legal, Bool.and_eq_true] at hp
  obtain ⟨⟨⟨⟨⟨⟨⟨ha, hd⟩, hu⟩, hr⟩, hl⟩, hv⟩, hrr⟩, hi⟩ := hp
  cases hst : r.state <;> simp only [EnvRegs.tick, hst]
  · exact h
  · have h1 := level_add hl (attackRate_nonneg ha hs)
    unfold EnvRegs.attackStep
    simp only []
    split
    · exact EnvRegs.legal_of_level h (by decide +kernel) (.inl (by decide))
    · rename_i h2
      have h3 := num_le_of_lt (lt_of_not_le (x := F.ONE) (by decide +kernel) (le_iff.1 h1).2.1 (by simpa using h2))
      exact EnvRegs.legal_of_level h (inRange_iff.2 ⟨h1, h3⟩) (.inl (by simp [hst]))
  · have h1 := level_sub hl (decayRate_nonneg hd hu hs)
    unfold EnvRegs.decayStep
    simp only []
    split
    · exact EnvRegs.legal_of_level h hu (.inl (by decide))
    · rename_i h2
      have h3 := num_le_of_lt (lt_of_not_le (le_iff.1 h1).1 (isNaN_of_inRange hu) (by simpa using h2))
      exact EnvRegs.legal_of_level h (inRange_iff.2 ⟨num_le_trans (inRange_iff.1 hu).1 h3, h1⟩) (.inl (by simp [hst]))
  · exact EnvRegs.legal_of_level h hu (.inl (by simp [hst]))
  · have h1 := level_sub hl hrr
    unfold EnvRegs.releaseStep
    simp only []
    split
    · exact EnvRegs.legal_of_level h (by decide +kernel) (.inr rfl)
    · rename_i h2
      have h3 := num_le_of_lt (lt_of_not_le (y := F.ZERO) (le_iff.1 h1).1 (by decide +kernel) (by simpa using h2))
      exact EnvRegs.legal_of_level h (inRange_iff.2 ⟨h3, h1⟩) (.inl (by simp [hst]))

/-! ### The filter -/

theorem clampBound_facts : isFinite CLAMP_BOUND = true ∧ 0 < ordKey CLAMP_BOUND ∧
    le (negate CLAMP_BOUND) CLAMP_BOUND = true := by
  have h := clampBound_legal
  simp only [isClampBound, Bool.and_eq_true] at h
  have h2 := (lt_iff.1 h.1.2).2.2
  have e : ordKey F.ZERO = 0 := by decide +kernel
  have hN := isNaN_of_isFinite h.1.1
  refine ⟨h.1.1, by omega, le_iff.2 ⟨by simpa using hN, hN, ?_⟩⟩
  rw [ordKey_negate]; omega

/-- A clamped number is a legal stage (R360). -/
theorem stageLegal_clampTo {v : F64} (h : isNaN v = false) : stageLegal (clampTo CLAMP_BOUND v) = true := by
  obtain ⟨hf, -, hle⟩ := clampBound_facts
  have hr := clamp_inRange h hle
  simp only [stageLegal, clampTo, Bool.and_eq_true]
  exact ⟨finite_of_inRange (by simpa using hf) hf hr, hr⟩

theorem neg?_of_ordKey_pos {x : F64} (h : 0 < ordKey x) : neg? x = false := by
  unfold ordKey at h; cases hn : neg? x
  · rfl
  · simp only [hn, if_true] at h; omega

/-- Within a positive bound on both sides is no greater in magnitude. -/
theorem inRange_negate_iff {b x : F64} (hb : 0 < ordKey b) :
    inRange (negate b) b x = true ↔ isNaN b = false ∧ isNaN x = false ∧ mag x ≤ mag b := by
  have hm : ordKey b = mag b := by simp [ordKey, neg?_of_ordKey_pos hb]
  rw [inRange_iff, le_iff, le_iff, ordKey_negate, hm]
  simp only [isNaN_negate, ordKey]
  constructor
  · rintro ⟨⟨h1, h2, h3⟩, -, -, h4⟩
    refine ⟨h1, h2, ?_⟩
    cases hn : neg? x <;> simp only [hn, if_true, Bool.false_eq_true, if_false] at h3 h4 <;> omega
  · rintro ⟨h1, h2, h3⟩
    cases hn : neg? x <;> simp only [if_true, Bool.false_eq_true, if_false] <;>
      exact ⟨⟨h1, h2, by omega⟩, h2, h1, by omega⟩

/-- What the output clamp gives is within the bound after its rounding to binary32 too (R362, R364 item 1). -/
theorem stageLegal_returned {v : F64} (h : isNaN v = false) :
    stageLegal (fromBinary32 (toBinary32 (clampTo CLAMP_BOUND v))) = true := by
  obtain ⟨hf, hp, hle⟩ := clampBound_facts
  have hb := clampBound_legal
  simp only [isClampBound, Bool.and_eq_true] at hb
  obtain ⟨hN, hc, hm⟩ := (inRange_negate_iff hp).1 (clamp_inRange h hle)
  have h1 := mag_fromBinary32_mono (mag32_toBinary32_le hN) (mag32_toBinary32_mono hc hN hm)
  have hn := isNaN_fromBinary32 (mag32_toBinary32_le hc)
  have hB : mag (fromBinary32 (toBinary32 CLAMP_BOUND)) ≤ mag CLAMP_BOUND := by
    have h2 := (le_iff.1 hb.2).2.2
    have hs : neg? (fromBinary32 (toBinary32 CLAMP_BOUND)) = false := by
      rw [neg?_fromBinary32 (by simpa [isNaN32] using mag32_toBinary32_le hN), neg32?_toBinary32 hN,
        neg?_of_ordKey_pos hp]
    simp only [ordKey, hs, neg?_of_ordKey_pos hp, Bool.false_eq_true, if_false] at h2
    omega
  have hr := (inRange_negate_iff hp).2 ⟨hN, hn, h1.trans hB⟩
  simp only [stageLegal, Bool.and_eq_true]
  exact ⟨finite_of_inRange (by simpa using hf) hf hr, hr⟩

theorem stageLegal_zero : stageLegal F.ZERO = true := by
  obtain ⟨hf, hp, hle⟩ := clampBound_facts
  have hN := isNaN_of_isFinite hf
  have e : ordKey F.ZERO = 0 := by decide +kernel
  simp only [stageLegal, Bool.and_eq_true]
  refine ⟨by decide +kernel, inRange_iff.2 ⟨le_iff.2 ⟨by simpa using hN, by decide +kernel, ?_⟩,
    le_iff.2 ⟨by decide +kernel, hN, ?_⟩⟩⟩
  · rw [ordKey_negate]; omega
  · omega

/-- One sample keeps the filter's registers legal, whatever the input (R78, R364 item 1). -/
theorem FiltRegs.legal_sample {r : FiltRegs} (h : r.legal = true) (sr x : F64) : (r.sample sr x).1.legal = true := by
  simp only [FiltRegs.legal, Bool.and_eq_true] at h
  obtain ⟨⟨⟨⟨⟨hc, hr⟩, -⟩, -⟩, -⟩, -⟩ := h
  unfold FiltRegs.sample
  simp only []
  split
  · rename_i hfin
    simp only [Stages.isFinite, Bool.and_eq_true] at hfin
    obtain ⟨⟨⟨h0, h1⟩, h2⟩, h3⟩ := hfin
    simp [FiltRegs.legal, hc, hr, Stages.clampTo, stageLegal_clampTo (isNaN_of_isFinite h0),
      stageLegal_clampTo (isNaN_of_isFinite h1), stageLegal_clampTo (isNaN_of_isFinite h2),
      stageLegal_clampTo (isNaN_of_isFinite h3)]
  · simp [FiltRegs.legal, hc, hr, Stages.zero, stageLegal_zero]

theorem FiltRegs.legal_refresh {r : FiltRegs} (h : r.legal = true) (sr : F64) : (r.refresh sr).legal = true := by
  unfold FiltRegs.refresh; split
  · exact h
  · exact h

/-- After a refresh the cache is fresh (R356), and a sample keeps it so. -/
theorem FiltRegs.cacheFresh_refresh {r : FiltRegs} {sr : F64} (h : r.cacheFresh sr = true) :
    (r.refresh sr).cacheFresh sr = true := by
  unfold FiltRegs.refresh; split
  · simp [FiltRegs.cacheFresh]
  · exact h

theorem FiltRegs.cacheFresh_sample {r : FiltRegs} {sr : F64} (h : r.cacheFresh sr = true) (x : F64) :
    (r.sample sr x).1.cacheFresh sr = true := by
  unfold FiltRegs.sample
  simp only []
  split <;> exact h

end Sys2Proof.Machine
end

