-- ==== Sys2Proof/Machine/Assembler.lean ====
section
/-! DEFINITION. The assembler's statement `UNIT.OP[idx] operand` (30_encoding.md R145), read into a command. It is the
host's notation; the points R145 leaves open are log 15's. -/

namespace Sys2Proof.Asm

/-! ### Numbers -/

/-- A literal's value: a sign and a ratio, an infinity, or a NaN. -/
inductive Literal where
  | ratio (negative : Bool) (num den : Nat)
  | inf (negative : Bool)
  | nan
deriving DecidableEq, Repr

/-- Rounded to binary64, to nearest even (R145). -/
def Literal.toF64 (l : Literal) : F64 :=
  match l with
  | .ratio s num den => Fp.round s (num * Fp.one64) den
  | .inf s => Fp.pack s Fp.infMag
  | .nan => 0x7FF8000000000000#64

/-- Rounded to binary32, to nearest even (R145). -/
def Literal.toF32 (l : Literal) : F32 :=
  match l with
  | .ratio s num den => Fp.pack32 s (min (Fp.roundMag 23 (num * 2 ^ 149) den) Fp.infMag32)
  | .inf s => Fp.pack32 s Fp.infMag32
  | .nan => 0x7FC00000#32

/-- A digit's value in a base of at most 16. -/
def digit (base : Nat) (c : Char) : Option Nat :=
  let n := c.toNat
  let v :=
    if 48 ≤ n ∧ n ≤ 57 then n - 48
    else if 97 ≤ n ∧ n ≤ 102 then n - 87
    else if 65 ≤ n ∧ n ≤ 70 then n - 55
    else 16
  if v < base then some v else none

/-- The leading digits: their value, how many they are, and the rest. -/
def digits (base : Nat) : List Char → Nat × Nat × List Char
  | [] => (0, 0, [])
  | c :: cs =>
    match digit base c with
    | none => (0, 0, c :: cs)
    | some d =>
      let (v, n, rest) := digits base cs
      (d * base ^ n + v, n + 1, rest)

/-- An optional sign: is it a minus, and the rest. -/
def sign : List Char → Bool × List Char
  | '-' :: cs => (true, cs)
  | '+' :: cs => (false, cs)
  | cs => (false, cs)

/-- The exponent part after its letter: a sign and decimal digits, and nothing more. -/
def exponent (cs : List Char) : Option (Bool × Nat) :=
  let (neg, cs) := sign cs
  match digits 10 cs with
  | (v, n, []) => if n = 0 then none else some (neg, v)
  | _ => none

/-- Digits with an optional point: the digits as one number, how many stand after the point, and the rest. -/
def mantissa (base : Nat) (cs : List Char) : Option (Nat × Nat × List Char) :=
  let (a, n, rest) := digits base cs
  match rest with
  | '.' :: cs =>
    let (b, m, rest) := digits base cs
    if n + m = 0 then none else some (a * base ^ m + b, m, rest)
  | _ => if n = 0 then none else some (a, 0, rest)

/-- `mant / base ^ after` times or divided by a power. -/
def scaled (negative : Bool) (mant den power : Nat) (down : Bool) : Literal :=
  if down then .ratio negative mant (den * power) else .ratio negative (mant * power) den

/-- A decimal or C99 hexadecimal literal, `nan` or `inf` (R145). -/
def literal (cs : List Char) : Option Literal :=
  let (neg, cs) := sign cs
  match cs with
  | ['n', 'a', 'n'] => some .nan
  | ['i', 'n', 'f'] => some (.inf neg)
  | '0' :: 'x' :: cs =>
    match mantissa 16 cs with
    | some (m, after, 'p' :: e) => (exponent e).map fun (d, x) => scaled neg m (16 ^ after) (2 ^ x) d
    | _ => none
  | cs =>
    match mantissa 10 cs with
    | some (m, after, []) => some (.ratio neg m (10 ^ after))
    | some (m, after, 'e' :: e) => (exponent e).map fun (d, x) => scaled neg m (10 ^ after) (10 ^ x) d
    | _ => none

/-! ### Statements -/

/-- What the operand of a command is written as. -/
inductive Form where
  | number (make : BitVec 4 → F64 → Instr)
  | sample (make : BitVec 4 → F32 → Instr)
  | enumerator (names : List String) (make : BitVec 4 → BitVec 4 → Instr)
  | plain (make : BitVec 4 → Instr)

def oscWaves : List String := ["sine", "saw", "square", "triangle"]

def lfoWaves : List String := ["sine", "triangle", "square", "sawtooth", "sah"]

def rateModes : List String := ["free", "sync"]

def syncDivs : List String := ["1/16", "1/8", "1/4", "1/2", "1bar", "2bars", "4bars"]

def filtModes : List String := ["lowpass", "bandpass", "highpass"]

def sysOscTable : List (String × Form) :=
  [("SYS.SETSR", .number .sysSetSr), ("OSC.SETFREQ", .number .oscSetFreq),
   ("OSC.SETWAVE", .enumerator oscWaves .oscSetWave), ("OSC.SETPW", .number .oscSetPw),
   ("OSC.TICK", .plain .oscTick), ("OSC.RESET", .plain .oscReset),
   ("OSC.RANDPHASE", .plain .oscRandPhase), ("OSC.GETPHASE", .plain .oscGetPhase)]

def envTable : List (String × Form) :=
  [("ENV.SETATTACK", .number .envSetAttack), ("ENV.SETDECAY", .number .envSetDecay),
   ("ENV.SETSUSTAIN", .number .envSetSustain), ("ENV.SETRELEASE", .number .envSetRelease),
   ("ENV.NOTEON", .number .envNoteOn), ("ENV.NOTEOFF", .plain .envNoteOff), ("ENV.TICK", .plain .envTick),
   ("ENV.RESET", .plain .envReset), ("ENV.GETSTATE", .plain .envGetState),
   ("ENV.ISACTIVE", .plain .envIsActive), ("ENV.GETLEVEL", .plain .envGetLevel)]

def lfoTable : List (String × Form) :=
  [("LFO.SETWAVE", .enumerator lfoWaves .lfoSetWave), ("LFO.SETRATE", .number .lfoSetRate),
   ("LFO.SETRATEMODE", .enumerator rateModes .lfoSetRateMode),
   ("LFO.SETSYNCDIV", .enumerator syncDivs .lfoSetSyncDiv), ("LFO.SETBPM", .number .lfoSetBpm),
   ("LFO.SETDEPTH", .number .lfoSetDepth), ("LFO.TICK", .plain .lfoTick), ("LFO.PEEK", .plain .lfoPeek),
   ("LFO.RESET", .plain .lfoReset)]

def filtTable : List (String × Form) :=
  [("FILT.SETMODE", .enumerator filtModes .filtSetMode), ("FILT.SETCUTOFF", .number .filtSetCutoff),
   ("FILT.SETRES", .number .filtSetRes), ("FILT.TICK", .sample .filtTick), ("FILT.RESET", .plain .filtReset)]

/-- Every mnemonic of R132 and how its operand is written. -/
def mnemonics : List (String × Form) := sysOscTable ++ envTable ++ lfoTable ++ filtTable

/-- The words of a line, its comment left out: a comment starts with `;`. -/
def wordsOf (line : String) : List (List Char) :=
  ((line.toList.takeWhile (· ≠ ';')).splitOn ' ').filter (· ≠ [])

/-- `UNIT.OP` or `UNIT.OP[idx]`: the mnemonic and the instance number, 0 when left out. -/
def nameAndIdx (cs : List Char) : Option (List Char × BitVec 4) :=
  let name := cs.takeWhile (· ≠ '[')
  match cs.drop name.length with
  | [] => some (name, 0)
  | _ :: rest =>
    match digits 10 rest with
    | (v, n, [']']) => if n ≠ 0 ∧ v < 16 then some (name, BitVec.ofNat 4 v) else none
    | _ => none

/-- An enumerator's number: its place among the names, or, for a sync division, its index. -/
def enumeratorNumber (names : List String) (w : List Char) : Option (BitVec 4) :=
  match names.findIdx? (·.toList == w) with
  | some n => some (BitVec.ofNat 4 n)
  | none =>
    match digits 10 w with
    | (v, n, []) => if names = syncDivs ∧ n ≠ 0 ∧ v < 7 then some (BitVec.ofNat 4 v) else none
    | _ => none

/-- One statement read into a command (R145). -/
def assemble (line : String) : Option Instr :=
  match wordsOf line with
  | [] => none
  | head :: operands =>
    match nameAndIdx head with
    | none => none
    | some (name, idx) =>
      match mnemonics.find? (·.1.toList == name), operands with
      | some (_, .plain make), [] => some (make idx)
      | some (_, .number make), [w] => (literal w).map fun l => make idx l.toF64
      | some (_, .sample make), [w] => (literal w).map fun l => make idx l.toF32
      | some (_, .enumerator names make), [w] => (enumeratorNumber names w).map (make idx)
      | _, _ => none

end Sys2Proof.Asm
end

