-- ==== Sys2Proof/Tests/Slice0.lean ====
section
/-! SUPPORT. Tests of the model against the spec's tables and worked values, each one step at most, and for every statement
with hypotheses a state or operand that meets them. Expected values are the spec's: 30_encoding.md section 6,
95_test_vectors.md (its vector named in each comment) or the example of the rule named. -/

-- One test at a time: each kernel evaluation takes a thread with a large stack.
section
set_option Elab.async false

namespace Sys2Proof.Tests

open Sys2Proof.Machine

/-! ### The WellFormed smoke: an ill-formed term for each check -/

theorem test_wf_oscSetWave : (Instr.oscSetWave 0 4).WellFormed = false := by decide
theorem test_wf_lfoSetWave : (Instr.lfoSetWave 0 5).WellFormed = false := by decide
theorem test_wf_lfoSetRateMode : (Instr.lfoSetRateMode 0 2).WellFormed = false := by decide
theorem test_wf_lfoSetSyncDiv : (Instr.lfoSetSyncDiv 0 7).WellFormed = false := by decide
theorem test_wf_filtSetMode : (Instr.filtSetMode 0 3).WellFormed = false := by decide

/-! ### Every constructor's word (30_encoding.md section 6) -/

def operand : BitVec 64 := 0x0123456789ABCDEF#64

theorem test_decode_sysSetSr : (decode ⟨0x01100000#32, operand⟩).toOption = some (.sysSetSr 1 operand) := by decide +kernel
theorem test_decode_oscSetFreq : (decode ⟨0x10200000#32, operand⟩).toOption = some (.oscSetFreq 2 operand) := by decide +kernel
theorem test_decode_oscSetWave : (decode ⟨0x11200001#32, operand⟩).toOption = some (.oscSetWave 2 1) := by decide +kernel
theorem test_decode_oscSetPw : (decode ⟨0x12200000#32, operand⟩).toOption = some (.oscSetPw 2 operand) := by decide +kernel
theorem test_decode_oscTick : (decode ⟨0x13200000#32, operand⟩).toOption = some (.oscTick 2) := by decide +kernel
theorem test_decode_oscReset : (decode ⟨0x14200000#32, operand⟩).toOption = some (.oscReset 2) := by decide +kernel
theorem test_decode_oscRandPhase : (decode ⟨0x15200000#32, operand⟩).toOption = some (.oscRandPhase 2) := by decide +kernel
theorem test_decode_oscGetPhase : (decode ⟨0x16200000#32, operand⟩).toOption = some (.oscGetPhase 2) := by decide +kernel
theorem test_decode_envSetAttack : (decode ⟨0x20100000#32, operand⟩).toOption = some (.envSetAttack 1 operand) := by decide +kernel
theorem test_decode_envSetDecay : (decode ⟨0x21100000#32, operand⟩).toOption = some (.envSetDecay 1 operand) := by decide +kernel
theorem test_decode_envSetSustain : (decode ⟨0x22100000#32, operand⟩).toOption = some (.envSetSustain 1 operand) := by decide +kernel
theorem test_decode_envSetRelease : (decode ⟨0x23100000#32, operand⟩).toOption = some (.envSetRelease 1 operand) := by decide +kernel
theorem test_decode_envNoteOn : (decode ⟨0x24100000#32, operand⟩).toOption = some (.envNoteOn 1 operand) := by decide +kernel
theorem test_decode_envNoteOff : (decode ⟨0x25100000#32, operand⟩).toOption = some (.envNoteOff 1) := by decide +kernel
theorem test_decode_envTick : (decode ⟨0x26100000#32, operand⟩).toOption = some (.envTick 1) := by decide +kernel
theorem test_decode_envReset : (decode ⟨0x27100000#32, operand⟩).toOption = some (.envReset 1) := by decide +kernel
theorem test_decode_envGetState : (decode ⟨0x28100000#32, operand⟩).toOption = some (.envGetState 1) := by decide +kernel
theorem test_decode_envIsActive : (decode ⟨0x29100000#32, operand⟩).toOption = some (.envIsActive 1) := by decide +kernel
theorem test_decode_envGetLevel : (decode ⟨0x2A100000#32, operand⟩).toOption = some (.envGetLevel 1) := by decide +kernel
theorem test_decode_lfoSetWave : (decode ⟨0x30100001#32, operand⟩).toOption = some (.lfoSetWave 1 1) := by decide +kernel
theorem test_decode_lfoSetRate : (decode ⟨0x31100000#32, operand⟩).toOption = some (.lfoSetRate 1 operand) := by decide +kernel
theorem test_decode_lfoSetRateMode : (decode ⟨0x32100001#32, operand⟩).toOption = some (.lfoSetRateMode 1 1) := by decide +kernel
theorem test_decode_lfoSetSyncDiv : (decode ⟨0x33100001#32, operand⟩).toOption = some (.lfoSetSyncDiv 1 1) := by decide +kernel
theorem test_decode_lfoSetBpm : (decode ⟨0x34100000#32, operand⟩).toOption = some (.lfoSetBpm 1 operand) := by decide +kernel
theorem test_decode_lfoSetDepth : (decode ⟨0x35100000#32, operand⟩).toOption = some (.lfoSetDepth 1 operand) := by decide +kernel
theorem test_decode_lfoTick : (decode ⟨0x36100000#32, operand⟩).toOption = some (.lfoTick 1) := by decide +kernel
theorem test_decode_lfoPeek : (decode ⟨0x37100000#32, operand⟩).toOption = some (.lfoPeek 1) := by decide +kernel
theorem test_decode_lfoReset : (decode ⟨0x38100000#32, operand⟩).toOption = some (.lfoReset 1) := by decide +kernel
theorem test_decode_filtSetMode : (decode ⟨0x40100001#32, operand⟩).toOption = some (.filtSetMode 1 1) := by decide +kernel
theorem test_decode_filtSetCutoff : (decode ⟨0x41100000#32, operand⟩).toOption = some (.filtSetCutoff 1 operand) := by decide +kernel
theorem test_decode_filtSetRes : (decode ⟨0x42100000#32, operand⟩).toOption = some (.filtSetRes 1 operand) := by decide +kernel
theorem test_decode_filtTick : (decode ⟨0x43100000#32, operand⟩).toOption = some (.filtTick 1 0x89ABCDEF#32) := by decide +kernel
theorem test_decode_filtReset : (decode ⟨0x44100000#32, operand⟩).toOption = some (.filtReset 1) := by decide +kernel

/-- The encoder writes the same words: R202's example, P3's row 3, and a word with the greatest instance number. -/
theorem test_encode_words :
    encode (.oscSetWave 0 1) = ⟨0x11000001#32, 0⟩ ∧ encode (.lfoSetRateMode 1 1) = ⟨0x32100001#32, 0⟩ ∧
    encode (.oscTick 15) = ⟨0x13F00000#32, 0⟩ ∧ encode (.filtTick 0 0x7FC00000#32) = ⟨0x43000000#32, 0x7FC00000#64⟩ := by
  decide

/-- The opcode table's numbering: P3's row 4 with the operand in bits 95:32, and the row's command word alone. -/
theorem test_decodeTableWord :
    decodeTableWord 96 0x405E00000000000034100000 = some (.lfoSetBpm 1 0x405E000000000000#64) ∧
    decodeTableWord 32 0x34100000 = some (.lfoSetBpm 1 0) ∧ decodeTableWord 32 0x50000000 = none := by
  decide +kernel

/-- R105: byte 0 holds bits 7:0. -/
theorem test_portBytes :
    bytesOfCommand ⟨0x11000001#32, 0x40E7700000000000#64⟩ = [1, 0, 0, 0x11, 0, 0, 0, 0, 0, 0x70, 0xE7, 0x40] := by
  decide +kernel

/-! ### Numbers: the constants of R8 against their decimals, and IEEE arithmetic (R16) -/

theorem test_constants_1 :
    SR_MIN = Fp.ofRatio 1 1 ∧
    FREQ_MIN = Fp.ofRatio 20 1 ∧
    FREQ_MAX = Fp.ofRatio 20000 1 ∧
    PW_MIN = Fp.ofRatio 1 100 ∧
    PW_MAX = Fp.ofRatio 99 100 ∧
    ATTACK_MIN = Fp.ofRatio 1 1000 ∧
    ATTACK_MAX = Fp.ofRatio 2 1 ∧
    DECAY_MIN = Fp.ofRatio 1 1000 ∧
    DECAY_MAX = Fp.ofRatio 2 1 ∧
    SUSTAIN_MIN = Fp.ofRatio 0 1 ∧
    SUSTAIN_MAX = Fp.ofRatio 1 1 ∧
    RELEASE_MIN = Fp.ofRatio 1 1000 ∧
    RELEASE_MAX = Fp.ofRatio 5 1 := by
  decide +kernel
theorem test_constants_2 :
    ATTACK_FLOOR = Fp.ofRatio 5 1000 ∧
    LFO_RATE_MIN = Fp.ofRatio 1 100 ∧
    LFO_RATE_MAX = Fp.ofRatio 20 1 ∧
    BPM_MIN = Fp.ofRatio 20 1 ∧
    BPM_MAX = Fp.ofRatio 300 1 ∧
    DEPTH_MIN = Fp.ofRatio 0 1 ∧
    DEPTH_MAX = Fp.ofRatio 1 1 ∧
    CUTOFF_MIN = Fp.ofRatio 20 1 ∧
    CUTOFF_MAX = Fp.ofRatio 12000 1 ∧
    RES_MIN = Fp.ofRatio 0 1 ∧
    RES_MAX = Fp.ofRatio 1 1 ∧
    FC_MAX_RATIO = Fp.ofRatio 45 100 ∧
    FB_SCALE = Fp.ofRatio 35 10 := by
  decide +kernel
theorem test_constants_3 :
    VELOCITY_MIN = Fp.ofRatio 0 1 ∧
    VELOCITY_MAX = Fp.ofRatio 1 1 ∧
    CLAMP_BOUND_DEFAULT = Fp.ofRatio 10 1 ∧
    F.ZERO = Fp.ofRatio 0 1 ∧
    F.QUARTER = Fp.ofRatio 1 4 ∧
    F.HALF = Fp.ofRatio 1 2 ∧
    F.ONE = Fp.ofRatio 1 1 ∧
    F.TWO = Fp.ofRatio 2 1 ∧
    F.THREE = Fp.ofRatio 3 1 ∧
    F.FOUR = Fp.ofRatio 4 1 ∧
    F.SIXTY = Fp.ofRatio 60 1 := by
  decide +kernel

/-- The nearest numbers to pi and two pi (R16), between ratios of whole numbers that bound pi to 30 digits. -/
theorem test_pi :
    PI = Fp.ofRatio 3141592653589793238462643383279 1000000000000000000000000000000 ∧
    TWO_PI = Fp.ofRatio 6283185307179586476925286766559 1000000000000000000000000000000 := by
  decide +kernel

/-- Rounding, ties to even, subnormals, overflow and signed zeros: values of IEEE 754 binary64, worked by hand. -/
theorem test_arithmetic :
    Fp.add F.ONE 0x3CA0000000000000#64 = F.ONE ∧
    Fp.add F.ONE 0x3CA0000000000001#64 = 0x3FF0000000000001#64 ∧
    Fp.add 0x7FEFFFFFFFFFFFFF#64 0x7FEFFFFFFFFFFFFF#64 = 0x7FF0000000000000#64 ∧
    Fp.add 1#64 1#64 = 2#64 ∧
    Fp.sub F.ONE F.ONE = F.ZERO ∧
    Fp.mul F.MINUS_ONE F.ZERO = 0x8000000000000000#64 ∧
    Fp.mul 1#64 F.HALF = F.ZERO ∧
    Fp.div F.ONE F.THREE = 0x3FD5555555555555#64 ∧
    Fp.floor 0xBFE0000000000000#64 = F.MINUS_ONE ∧
    Fp.lt 0x8000000000000000#64 F.ZERO = false := by
  decide +kernel

/-- Conversions: 0.9999999999999999 rounds to 1.0 in binary32 (vector E3), too large becomes infinity, and a subnormal
sample is converted exactly. -/
theorem test_binary32 :
    Fp.toBinary32 0x3FEFFFFFFFFFFFFF#64 = 0x3F800000#32 ∧ Fp.toBinary32 0x7FEFFFFFFFFFFFFF#64 = 0x7F800000#32 ∧
    Fp.fromBinary32 0x00000001#32 = 0x36A0000000000000#64 ∧ Fp.fromBinary32 0xFF800000#32 = 0xFFF0000000000000#64 := by
  decide +kernel

/-! ### Helper functions (95_test_vectors.md 2.1) -/

theorem test_polyBLEP :
    polyBLEP (Fp.ofRatio 0 1) (Fp.ofRatio 1 8) = 0xBFF0000000000000#64 ∧
    polyBLEP (Fp.ofRatio 1 16) (Fp.ofRatio 1 8) = 0xBFD0000000000000#64 ∧
    polyBLEP (Fp.ofRatio 1 8) (Fp.ofRatio 1 8) = 0x0000000000000000#64 ∧
    polyBLEP (Fp.ofRatio 1 2) (Fp.ofRatio 1 8) = 0x0000000000000000#64 ∧
    polyBLEP (Fp.ofRatio 15 16) (Fp.ofRatio 1 8) = 0x3FD0000000000000#64 ∧
    polyBLEP (Fp.ofRatio 99 100) (Fp.ofRatio 1 10) = 0x3FE9EB851EB851EA#64 ∧
    polyBLEP (Fp.ofRatio 5 100) (Fp.ofRatio 1 10) = 0xBFD0000000000000#64 ∧
    polyBLEP (Fp.ofRatio 3 10) (Fp.ofRatio 6 10) = 0xBFD0000000000000#64 ∧
    polyBLEP (Fp.ofRatio 0 1) (Fp.ofRatio 3 2) = 0xBFF0000000000000#64 := by
  decide +kernel
theorem test_wrap :
    wrap 0x3FEC000000000000#64 = 0x3FEC000000000000#64 ∧
    wrap 0x3FF0000000000000#64 = 0x0000000000000000#64 ∧
    wrap 0x4006000000000000#64 = 0x3FE8000000000000#64 := by
  decide +kernel
theorem test_clamp :
    clamp 0x7FF0000000000000#64 FREQ_MIN FREQ_MAX = FREQ_MAX ∧
    clamp 0xFFF0000000000000#64 FREQ_MIN FREQ_MAX = FREQ_MIN ∧
    clamp 0x4014000000000000#64 FREQ_MIN FREQ_MAX = FREQ_MIN ∧
    clamp 0x8000000000000000#64 SUSTAIN_MIN SUSTAIN_MAX = 0x8000000000000000#64 := by
  decide +kernel

/-! ### Decode order and faults (95_test_vectors.md 2.2)

`statusAfter s c` is `STATUS` and `STATUS_CMD` after the command `c` in the state `s`. -/

def statusAfter (s : State) (c : Command) : Option (BitVec 32 × CmdWord) :=
  match perform c s with
  | .next t => some (t.status, t.statusCmd)
  | .fault _ => none
  | .refused _ => none

/-- Power-on followed by `SYS.SETSR`. -/
def configured (sr : F64) : State := { State.reset with sr := sr, status := 2 }

def setUp : State := configured 0x40E7700000000000#64

/-- V1, V2, V34. -/
theorem test_status_notConfigured :
    statusAfter State.reset ⟨0x13000000#32, 0⟩ = some (0x21#32, 0x13000000#32) ∧
    statusAfter State.reset ⟨0x25000000#32, 0⟩ = some (0x21#32, 0x25000000#32) ∧
    statusAfter State.reset ⟨0x43000000#32, 0x000000007FC00000#64⟩ = some (0x21#32, 0x43000000#32) := by
  decide +kernel
/-- V3, V9, V14, V17. -/
theorem test_status_legal :
    statusAfter State.reset ⟨0x24000000#32, 0x3FF0000000000000#64⟩ = some (0x00#32, 0x00000000#32) ∧
    statusAfter State.reset ⟨0x01000000#32, 0x3FF0000000000000#64⟩ = some (0x02#32, 0x00000000#32) ∧
    statusAfter State.reset ⟨0x10000000#32, 0x7FF0000000000000#64⟩ = some (0x00#32, 0x00000000#32) ∧
    statusAfter State.reset ⟨0x11000003#32, 0⟩ = some (0x00#32, 0x00000000#32) := by
  decide +kernel
/-- V5, V30, V31, V33. -/
theorem test_status_missing :
    statusAfter setUp ⟨0x13500000#32, 0⟩ = some (0x02#32, 0x00000000#32) ∧
    statusAfter State.reset ⟨0x13F00000#32, 0⟩ = some (0x00#32, 0x00000000#32) ∧
    statusAfter State.reset ⟨0x10F00000#32, 0x7FF8000000000000#64⟩ = some (0x00#32, 0x00000000#32) ∧
    statusAfter State.reset ⟨0x01100000#32, 0x40E7700000000000#64⟩ = some (0x00#32, 0x00000000#32) := by
  decide +kernel
/-- V6, V7, V10, V12, V13. -/
theorem test_status_badOperand :
    statusAfter State.reset ⟨0x01000000#32, 0x3FE0000000000000#64⟩ = some (0x31#32, 0x01000000#32) ∧
    statusAfter State.reset ⟨0x01000000#32, 0x7FF0000000000000#64⟩ = some (0x31#32, 0x01000000#32) ∧
    statusAfter State.reset ⟨0x01000000#32, 0x3FEFFFFFFFFFFFFF#64⟩ = some (0x31#32, 0x01000000#32) ∧
    statusAfter State.reset ⟨0x01000000#32, 0xFFF8000000000001#64⟩ = some (0x31#32, 0x01000000#32) ∧
    statusAfter State.reset ⟨0x10000000#32, 0x7FF8000000000000#64⟩ = some (0x31#32, 0x10000000#32) := by
  decide +kernel
/-- V4, V16, V18, V19, V20, V21, V22, V23, V24, V25, V26, V27, V28, V29, V32. -/
theorem test_status_illegal :
    statusAfter setUp ⟨0x00000000#32, 0⟩ = some (0x13#32, 0x00000000#32) ∧
    statusAfter State.reset ⟨0x11000004#32, 0⟩ = some (0x11#32, 0x11000004#32) ∧
    statusAfter State.reset ⟨0x13000001#32, 0⟩ = some (0x11#32, 0x13000001#32) ∧
    statusAfter State.reset ⟨0x13000010#32, 0⟩ = some (0x11#32, 0x13000010#32) ∧
    statusAfter State.reset ⟨0x17000000#32, 0⟩ = some (0x11#32, 0x17000000#32) ∧
    statusAfter State.reset ⟨0x50000000#32, 0⟩ = some (0x11#32, 0x50000000#32) ∧
    statusAfter State.reset ⟨0x02000000#32, 0⟩ = some (0x11#32, 0x02000000#32) ∧
    statusAfter State.reset ⟨0x2B000000#32, 0⟩ = some (0x11#32, 0x2B000000#32) ∧
    statusAfter State.reset ⟨0x39000000#32, 0⟩ = some (0x11#32, 0x39000000#32) ∧
    statusAfter State.reset ⟨0x45000000#32, 0⟩ = some (0x11#32, 0x45000000#32) ∧
    statusAfter State.reset ⟨0x30000005#32, 0⟩ = some (0x11#32, 0x30000005#32) ∧
    statusAfter State.reset ⟨0x32000002#32, 0⟩ = some (0x11#32, 0x32000002#32) ∧
    statusAfter State.reset ⟨0x33000007#32, 0⟩ = some (0x11#32, 0x33000007#32) ∧
    statusAfter State.reset ⟨0x40000003#32, 0⟩ = some (0x11#32, 0x40000003#32) ∧
    statusAfter State.reset ⟨0x13F00001#32, 0⟩ = some (0x11#32, 0x13F00001#32) := by
  decide +kernel

/-- V36's last command: the stuck block keeps everything. -/
theorem test_stuck :
    perform ⟨0x01000000#32, 0x40BF400000000000#64⟩ (setUp.raise .illegalCommand 0x17000000#32) =
      .next (setUp.raise .illegalCommand 0x17000000#32) := rfl

/-! ### One command on a small state

`result s i` is the result `i` produces in `s`; `field f s i` a part of the state after it. -/

def result (s : State) (i : Instr) : Option (BitVec 64) :=
  match exec i s with
  | .next t => if t.resValid then some t.res else none
  | .fault _ => none
  | .refused _ => none

def field {α : Type} (f : State → α) (s : State) (i : Instr) : Option α :=
  match exec i s with
  | .next t => some (f t)
  | .fault _ => none
  | .refused _ => none

def withOsc (sr : F64) (r : OscRegs) : State := (configured sr).setOsc 0 r

def withEnv (sr : F64) (r : EnvRegs) : State := (configured sr).setEnv 0 r

def withLfo (sr : F64) (r : LfoRegs) : State := (configured sr).setLfo 0 r

def withFilt (sr : F64) (r : FiltRegs) : State := (configured sr).setFilt 0 r

/-! #### The oscillator: vectors OA to OK -/

/-- OA, saw tick 2 and R204's example: -0.75, and the phase goes to 0.25. -/
theorem test_oscTick_saw : result (withOsc 0x40E7700000000000#64 ⟨0x40B7700000000000#64, .saw, 0x3FE0000000000000#64, 0x3FC0000000000000#64⟩) (.oscTick 0) = some 0xBF400000#64 ∧
    field (fun t => (t.oscAt 0).phase) (withOsc 0x40E7700000000000#64 ⟨0x40B7700000000000#64, .saw, 0x3FE0000000000000#64, 0x3FC0000000000000#64⟩) (.oscTick 0) = some 0x3FD0000000000000#64 := by
  decide +kernel
/-- OB, square tick 3, past the falling edge: -0.639999986; OC, square tick 1, overlapping windows. -/
theorem test_oscTick_square : result (withOsc 0x40E0000000000000#64 ⟨0x40B4000000000000#64, .square, 0x3FD0000000000000#64, 0x3FD4000000000000#64⟩) (.oscTick 0) = some 0xBF23D70A#64 ∧
    result (withOsc 0x40BF400000000000#64 ⟨0x40B7700000000000#64, .square, 0x3FE0000000000000#64, 0x0000000000000000#64⟩) (.oscTick 0) = some 0x3DE38E39#64 := by
  decide +kernel
/-- S6: the first sine tick after a reset is +0. -/
theorem test_oscTick_sine : result (withOsc 0x40E5888000000000#64 ⟨0x407B800000000000#64, .sine, 0x3FE0000000000000#64, 0x0000000000000000#64⟩) (.oscTick 0) = some 0 := by
  decide +kernel
/-- OD: the increment 2.5 takes phase 0.5 to 0.0, and the saw at phase 0.5 gives 0.639999986. -/
theorem test_oscTick_wraps : result (withOsc 0x408F400000000000#64 ⟨0x40A3880000000000#64, .saw, 0x3FE0000000000000#64, 0x3FE0000000000000#64⟩) (.oscTick 0) = some 0x3F23D70A#64 ∧
    field (fun t => (t.oscAt 0).phase) (withOsc 0x408F400000000000#64 ⟨0x40A3880000000000#64, .saw, 0x3FE0000000000000#64, 0x3FE0000000000000#64⟩) (.oscTick 0) = some 0x0000000000000000#64 := by
  decide +kernel
/-- OA and OB, triangle with the default sign: ticks 1 and 5 of OA, tick 4 of OB; OA tick 1 with the sign +1. -/
theorem test_triangle : Fp.toBinary32 (triangleValue F.MINUS_ONE 0x0000000000000000#64 0x3FC0000000000000#64) = 0xBF000000#32 ∧
    Fp.toBinary32 (triangleValue F.MINUS_ONE 0x3FE0000000000000#64 0x3FC0000000000000#64) = 0x3F000000#32 ∧
    Fp.toBinary32 (triangleValue F.MINUS_ONE 0x3FDE000000000000#64 0x3FC4000000000000#64) = 0x3FA33333#32 ∧
    Fp.toBinary32 (triangleValue F.ONE 0x0000000000000000#64 0x3FC0000000000000#64) = 0xBFC00000#32 := by
  decide +kernel
/-- OE and OK: 5.0 is stored as 20.0; instance 1 is set and instance 2 is not. -/
theorem test_oscSetFreq : field (fun t => (t.oscAt 0).freq) State.reset (.oscSetFreq 0 0x4014000000000000#64) = some FREQ_MIN ∧
    field (fun t => (t.oscAt 1).freq) State.reset (.oscSetFreq 1 0x40B7700000000000#64) = some 0x40B7700000000000#64 ∧
    field (fun t => (t.oscAt 0).freq) (withOsc 0x40E7700000000000#64 ⟨0x407B800000000000#64, .saw, 0x3FE0000000000000#64, 0x0000000000000000#64⟩) (.oscSetFreq 1 0x40B7700000000000#64) = some 0x407B800000000000#64 := by
  decide +kernel
/-- OG. -/
theorem test_oscSetPw : field (fun t => (t.oscAt 0).pw) State.reset (.oscSetPw 0 F.ZERO) = some PW_MIN ∧
    field (fun t => (t.oscAt 0).pw) State.reset (.oscSetPw 0 F.ONE) = some PW_MAX := by
  decide +kernel
/-- V17. -/
theorem test_oscSetWave : field (fun t => (t.oscAt 0).wave) State.reset (.oscSetWave 0 3) = some .triangle := by
  decide +kernel
/-- R210's example. -/
theorem test_oscReset : field (fun t => (t.oscAt 0).phase) (withOsc 0x40E7700000000000#64 ⟨0x40B7700000000000#64, .saw, 0x3FE0000000000000#64, 0x3FC0000000000000#64⟩) (.oscReset 0) = some F.ZERO := by
  decide +kernel
/-- OI. -/
theorem test_oscGetPhase : result (withOsc 0x40E7700000000000#64 ⟨0x40B7700000000000#64, .saw, 0x3FE0000000000000#64, 0x3FC0000000000000#64⟩) (.oscGetPhase 0) = some 0x3FC0000000000000#64 := by
  decide +kernel
/-- OH: the phase read after `OSC.RANDPHASE` is the draw. -/
theorem test_oscRandPhase : field (fun t => (t.oscAt 2).phase) State.reset (.oscRandPhase 2) = some (phaseDraw 2) := rfl
/-- R175's example, and the filter's cache marked. -/
theorem test_sysSetSr : field (·.sr) State.reset (.sysSetSr 0 0x40E7700000000000#64) = some 0x40E7700000000000#64 ∧
    field (fun t => (t.filtAt 0).dirty) State.reset (.sysSetSr 0 0x40E7700000000000#64) = some true := by
  decide +kernel

/-! #### The envelope: vectors E1 to E15 -/

/-- E1, tick 4: the attack ends at 1.0. -/
theorem test_envTick_attack : result (withEnv 0x4030000000000000#64 ⟨0x3FD0000000000000#64, 0x3FD0000000000000#64, 0x3FE0000000000000#64, 0x3FE0000000000000#64, .attack, 0x3FE8000000000000#64, 0x3FF0000000000000#64, 0x0000000000000000#64⟩) (.envTick 0) = some 0x3F800000#64 ∧
    field (fun t => ((t.envAt 0).state, (t.envAt 0).level)) (withEnv 0x4030000000000000#64 ⟨0x3FD0000000000000#64, 0x3FD0000000000000#64, 0x3FE0000000000000#64, 0x3FE0000000000000#64, .attack, 0x3FE8000000000000#64, 0x3FF0000000000000#64, 0x0000000000000000#64⟩)
      (.envTick 0) = some (.decay, 0x3FF0000000000000#64) := by
  decide +kernel
/-- E4, tick 3: the 5 ms floor gives the rate 0.2. -/
theorem test_envTick_attackFloor : result (withEnv 0x408F400000000000#64 ⟨0x3F50624DD2F1A9FC#64, 0x3FB999999999999A#64, 0x3FE6666666666666#64, 0x3FD3333333333333#64, .attack, 0x3FD999999999999A#64, 0x3FF0000000000000#64, 0x0000000000000000#64⟩) (.envTick 0) = some 0x3F19999A#64 ∧
    field (fun t => ((t.envAt 0).state, (t.envAt 0).level)) (withEnv 0x408F400000000000#64 ⟨0x3F50624DD2F1A9FC#64, 0x3FB999999999999A#64, 0x3FE6666666666666#64, 0x3FD3333333333333#64, .attack, 0x3FD999999999999A#64, 0x3FF0000000000000#64, 0x0000000000000000#64⟩)
      (.envTick 0) = some (.attack, 0x3FE3333333333334#64) := by
  decide +kernel
/-- E9: the level steps up to a raised sustain. -/
theorem test_envTick_decay : result (withEnv 0x4030000000000000#64 ⟨0x3FD0000000000000#64, 0x3FD0000000000000#64, 0x3FEE666666666666#64, 0x3FE0000000000000#64, .decay, 0x3FEC000000000000#64, 0x3FF0000000000000#64, 0x0000000000000000#64⟩) (.envTick 0) = some 0x3F733333#64 ∧
    field (fun t => ((t.envAt 0).state, (t.envAt 0).level)) (withEnv 0x4030000000000000#64 ⟨0x3FD0000000000000#64, 0x3FD0000000000000#64, 0x3FEE666666666666#64, 0x3FE0000000000000#64, .decay, 0x3FEC000000000000#64, 0x3FF0000000000000#64, 0x0000000000000000#64⟩)
      (.envTick 0) = some (.sustain, 0x3FEE666666666666#64) := by
  decide +kernel
/-- E10. -/
theorem test_envTick_sustain : result (withEnv 0x4030000000000000#64 ⟨0x3FD0000000000000#64, 0x3FD0000000000000#64, 0x3FD0000000000000#64, 0x3FE0000000000000#64, .sustain, 0x3FE0000000000000#64, 0x3FF0000000000000#64, 0x0000000000000000#64⟩) (.envTick 0) = some 0x3E800000#64 ∧
    field (fun t => ((t.envAt 0).state, (t.envAt 0).level)) (withEnv 0x4030000000000000#64 ⟨0x3FD0000000000000#64, 0x3FD0000000000000#64, 0x3FD0000000000000#64, 0x3FE0000000000000#64, .sustain, 0x3FE0000000000000#64, 0x3FF0000000000000#64, 0x0000000000000000#64⟩)
      (.envTick 0) = some (.sustain, 0x3FD0000000000000#64) := by
  decide +kernel
/-- R262's example: the release ends at +0.0. -/
theorem test_envTick_release : result (withEnv 0x4030000000000000#64 ⟨0x3FD0000000000000#64, 0x3FD0000000000000#64, 0x3FE0000000000000#64, 0x3FE0000000000000#64, .release, 0x3FB0000000000000#64, 0x3FF0000000000000#64, 0x3FB0000000000000#64⟩) (.envTick 0) = some 0x00000000#64 ∧
    field (fun t => ((t.envAt 0).state, (t.envAt 0).level)) (withEnv 0x4030000000000000#64 ⟨0x3FD0000000000000#64, 0x3FD0000000000000#64, 0x3FE0000000000000#64, 0x3FE0000000000000#64, .release, 0x3FB0000000000000#64, 0x3FF0000000000000#64, 0x3FB0000000000000#64⟩)
      (.envTick 0) = some (.idle, 0x0000000000000000#64) := by
  decide +kernel
/-- R256's example: the rate is 0.0625. -/
theorem test_envNoteOff : field (fun t => ((t.envAt 0).state, (t.envAt 0).releaseRate)) (withEnv 0x4030000000000000#64 ⟨0x3FD0000000000000#64, 0x3FD0000000000000#64, 0x3FE0000000000000#64, 0x3FE0000000000000#64, .sustain, 0x3FE0000000000000#64, 0x3FF0000000000000#64, 0x0000000000000000#64⟩)
      (.envNoteOff 0) = some (.release, 0x3FB0000000000000#64) := by
  decide +kernel
/-- E14, and R255: the level is kept. -/
theorem test_envNoteOn : field (fun t => ((t.envAt 0).velocity, (t.envAt 0).state, (t.envAt 0).level))
      (withEnv 0x4030000000000000#64 ⟨0x3FD0000000000000#64, 0x3FD0000000000000#64, 0x3FE0000000000000#64, 0x3FE0000000000000#64, .release, 0x3FD0000000000000#64, 0x3FF0000000000000#64, 0x3FB0000000000000#64⟩) (.envNoteOn 0 0x4000000000000000#64) = some (F.ONE, .attack, 0x3FD0000000000000#64) ∧
    field (fun t => (t.envAt 0).velocity) State.reset (.envNoteOn 0 F.MINUS_ONE) = some F.ZERO := by
  decide +kernel
/-- R264: idle at level 0, the velocity kept. -/
theorem test_envReset : field (fun t => ((t.envAt 0).state, (t.envAt 0).level, (t.envAt 0).velocity))
      (withEnv 0x4030000000000000#64 ⟨0x3FD0000000000000#64, 0x3FD0000000000000#64, 0x3FE0000000000000#64, 0x3FE0000000000000#64, .sustain, 0x3FE0000000000000#64, 0x3FE0000000000000#64, 0x0000000000000000#64⟩) (.envReset 0) = some (.idle, F.ZERO, F.HALF) := by
  decide +kernel
/-- E8: level 0.5, state 1, active; V39 at power-on. -/
theorem test_envReads : result (withEnv 0x4030000000000000#64 ⟨0x3FD0000000000000#64, 0x3FD0000000000000#64, 0x3FE0000000000000#64, 0x3FE0000000000000#64, .attack, 0x3FE0000000000000#64, 0x3FE0000000000000#64, 0x0000000000000000#64⟩) (.envGetLevel 0) = some 0x3FE0000000000000#64 ∧
    result (withEnv 0x4030000000000000#64 ⟨0x3FD0000000000000#64, 0x3FD0000000000000#64, 0x3FE0000000000000#64, 0x3FE0000000000000#64, .attack, 0x3FE0000000000000#64, 0x3FE0000000000000#64, 0x0000000000000000#64⟩) (.envGetState 0) = some 1 ∧
    result (withEnv 0x4030000000000000#64 ⟨0x3FD0000000000000#64, 0x3FD0000000000000#64, 0x3FE0000000000000#64, 0x3FE0000000000000#64, .attack, 0x3FE0000000000000#64, 0x3FE0000000000000#64, 0x0000000000000000#64⟩) (.envIsActive 0) = some 1 ∧
    result State.reset (.envGetState 0) = some 0 ∧ result State.reset (.envIsActive 0) = some 0 := by
  decide +kernel
/-- The examples of R250 to R253. -/
theorem test_envSetters : field (fun t => (t.envAt 0).attack) State.reset (.envSetAttack 0 0x3FD0000000000000#64) = some 0x3FD0000000000000#64 ∧
    field (fun t => (t.envAt 0).decay) State.reset (.envSetDecay 0 0x4014000000000000#64) = some 0x4000000000000000#64 ∧
    field (fun t => (t.envAt 0).sustain) State.reset (.envSetSustain 0 0x3FE0000000000000#64) = some 0x3FE0000000000000#64 ∧
    field (fun t => (t.envAt 0).release) State.reset (.envSetRelease 0 0x3FE0000000000000#64) = some 0x3FE0000000000000#64 := by
  decide +kernel

/-! #### The LFO: vectors L1 to L10 -/

/-- L1 tick 4 and R308's example: the value is that of the phase after the advance. -/
theorem test_lfoTick_square : result (withLfo 0x4020000000000000#64 ⟨.square, 0x3FF0000000000000#64, .free, 0, 0x405E000000000000#64, 0x3FE0000000000000#64, 0x3FD8000000000000#64, 0x3FD0000000000000#64, 0x0000000000000000#64⟩) (.lfoTick 0) = some 0xBF000000#64 ∧
    field (fun t => ((t.lfoAt 0).phase, (t.lfoAt 0).lastPhase)) (withLfo 0x4020000000000000#64 ⟨.square, 0x3FF0000000000000#64, .free, 0, 0x405E000000000000#64, 0x3FE0000000000000#64, 0x3FD8000000000000#64, 0x3FD0000000000000#64, 0x0000000000000000#64⟩) (.lfoTick 0) = some (F.HALF, 0x3FD8000000000000#64) := by
  decide +kernel
/-- L2 tick 4: the tempo-synced triangle at its peak. -/
theorem test_lfoTick_sync : result (withLfo 0x4030000000000000#64 ⟨.triangle, 0x3FF0000000000000#64, .sync, 2, 0x405E000000000000#64, 0x3FF0000000000000#64, 0x3FD8000000000000#64, 0x3FD0000000000000#64, 0x0000000000000000#64⟩) (.lfoTick 0) = some 0x3F800000#64 := by
  decide +kernel
/-- L3 tick 3, past a wraparound, and L7: -0.0 at depth 0. -/
theorem test_lfoTick_sawtooth : result (withLfo 0x4020000000000000#64 ⟨.sawtooth, 0x4008000000000000#64, .free, 0, 0x405E000000000000#64, 0x3FF0000000000000#64, 0x3FE8000000000000#64, 0x3FD8000000000000#64, 0x0000000000000000#64⟩) (.lfoTick 0) = some 0xBF400000#64 ∧
    result (withLfo 0x4020000000000000#64 ⟨.sawtooth, 0x3FF0000000000000#64, .free, 0, 0x405E000000000000#64, 0x0000000000000000#64, 0x0000000000000000#64, 0x0000000000000000#64, 0x0000000000000000#64⟩) (.lfoTick 0) = some 0x80000000#64 := by
  decide +kernel
/-- L4 ticks 3 and 4: the held value is kept until the wraparound and is then the next draw. -/
theorem test_lfoTick_held :
    field (fun t => (t.lfoAt 0).held) (withLfo 0x4020000000000000#64 ⟨.sampleAndHold, 0x4000000000000000#64, .free, 0, 0x405E000000000000#64, 0x3FF0000000000000#64, 0x3FE0000000000000#64, 0x3FD0000000000000#64, 0x3FE0000000000000#64⟩)
      (.lfoTick 0) = some F.HALF ∧
    field (fun t => t.draws) (withLfo 0x4020000000000000#64 ⟨.sampleAndHold, 0x4000000000000000#64, .free, 0, 0x405E000000000000#64, 0x3FF0000000000000#64, 0x3FE8000000000000#64, 0x3FE0000000000000#64, 0x3FE0000000000000#64⟩)
      (.lfoTick 0) = some 3 := by
  decide +kernel
/-- L6: a whole-number increment is no detected wraparound. -/
theorem test_lfoTick_wholeIncrement : field (fun t => (t.draws, (t.lfoAt 0).phase)) (withLfo 0x4024000000000000#64 ⟨.sampleAndHold, 0x4034000000000000#64, .free, 0, 0x405E000000000000#64, 0x3FF0000000000000#64, 0x0000000000000000#64, 0x0000000000000000#64, 0x3FE0000000000000#64⟩) (.lfoTick 0) = some (2, F.ZERO) := by
  decide +kernel
/-- R309's example: -0.5 at phase 0.5, with no advance. -/
theorem test_lfoPeek : result (withLfo 0x4020000000000000#64 ⟨.square, 0x3FF0000000000000#64, .free, 0, 0x405E000000000000#64, 0x3FE0000000000000#64, 0x3FE0000000000000#64, 0x3FD8000000000000#64, 0x0000000000000000#64⟩) (.lfoPeek 0) = some 0xBF000000#64 := by
  decide +kernel
/-- R310: the phases are zeroed and `held` is the next draw. -/
theorem test_lfoReset :
    field (fun t => ((t.lfoAt 0).phase, (t.lfoAt 0).lastPhase, (t.lfoAt 0).held)) (withLfo 0x4020000000000000#64 ⟨.square, 0x3FF0000000000000#64, .free, 0, 0x405E000000000000#64, 0x3FE0000000000000#64, 0x3FD8000000000000#64, 0x3FD0000000000000#64, 0x0000000000000000#64⟩)
      (.lfoReset 0) = some (F.ZERO, F.ZERO, heldDraw 2) := rfl
/-- 95_test_vectors.md 2.5: the setter clamps, and R300, R302 and R303's examples. -/
theorem test_lfoSetters : field (fun t => (t.lfoAt 1).rate) State.reset (.lfoSetRate 1 0x4059000000000000#64) = some LFO_RATE_MAX ∧
    field (fun t => (t.lfoAt 1).rate) State.reset (.lfoSetRate 1 F.ZERO) = some LFO_RATE_MIN ∧
    field (fun t => (t.lfoAt 1).bpm) State.reset (.lfoSetBpm 1 0x408F400000000000#64) = some BPM_MAX ∧
    field (fun t => (t.lfoAt 1).depth) State.reset (.lfoSetDepth 1 F.TWO) = some F.ONE ∧
    field (fun t => (t.lfoAt 1).wave) State.reset (.lfoSetWave 1 2) = some .square ∧
    field (fun t => (t.lfoAt 1).rateMode) State.reset (.lfoSetRateMode 1 1) = some .sync ∧
    field (fun t => (t.lfoAt 1).syncDiv) State.reset (.lfoSetSyncDiv 1 2) = some 2 := by
  decide +kernel

/-! #### The filter: vectors F1 to F11 -/

/-- F2 tick 1, with its `g` and drive: the cascade, the stage clamp at 10, and the three outputs. -/
theorem test_cascade : let u : F64 := 0x3FE85EFAB514F394#64
    let s := (Stages.cascade Stages.zero 0x4019414813BA6629#64 u).clampTo CLAMP_BOUND_DEFAULT
    s.s0 = 0x40133BEBAF72A304#64 ∧ s.s1 = CLAMP_BOUND_DEFAULT ∧ s.s3 = CLAMP_BOUND_DEFAULT ∧
    Fp.toBinary32 (filtSelect .s1MinusS4 .v .bandPass s F.ONE u) = 0xC0A620A3#32 ∧
    Fp.toBinary32 (filtSelect .s1MinusS4 .v .highPass s F.ONE u) = 0xC1100000#32 ∧
    Fp.toBinary32 (filtSelect .s1MinusS4 .v .lowPass s F.ONE u) = 0x41200000#32 := by
  decide +kernel
/-- F2 tick 2: 11 clamps to 10; F5: an infinite value clamps to the bound. -/
theorem test_filtOutput : filtOutput CLAMP_BOUND_DEFAULT F.ONE 0x4026000000000000#64 = CLAMP_BOUND_DEFAULT ∧
    filtOutput CLAMP_BOUND_DEFAULT F.ONE 0xFFF0000000000000#64 = Fp.negate CLAMP_BOUND_DEFAULT := by
  decide +kernel
/-- R364 item 1 leaves as bounds those that binary32 does not round up: 10.0 and the binary32 number below 0.1 are, 1e300
(an infinity in binary32) and 0.1 (0x3DCCCCCD, which is greater) are not. -/
theorem test_isClampBound :
    isClampBound CLAMP_BOUND_DEFAULT = true ∧ isClampBound (Fp.fromBinary32 0x3DCCCCCC#32) = true ∧
    isClampBound 0x7E37E43C8800759C#64 = false ∧ isClampBound 0x3FB999999999999A#64 = false := by
  decide +kernel
/-- S3: 100/200 clamps to 0.45; `k` at `res` 0.5 is 1.75. -/
theorem test_filtRatio : filtRatio 0x4059000000000000#64 0x4069000000000000#64 = FC_MAX_RATIO ∧ filtK F.HALF = 0x3FFC000000000000#64 := by
  decide +kernel
/-- F11: the stages are zeroed and the rest is kept. -/
theorem test_filtReset : field (fun t => ((t.filtAt 0).s, (t.filtAt 0).g, (t.filtAt 0).dirty)) (withFilt 0x40E7700000000000#64 ⟨.lowPass, 0x40C7700000000000#64, 0x0000000000000000#64, ⟨0x3FF0000000000000#64, 0x3FF0000000000000#64, 0x3FF0000000000000#64, 0x3FF0000000000000#64⟩, 0x3FF0000000000000#64, 0x0000000000000000#64, false⟩)
      (.filtReset 0) = some (Stages.zero, F.ONE, false) := by
  decide +kernel
/-- F9 and R350's example: the clamps, and the cache marked by a cutoff and not by a mode. -/
theorem test_filtSetters : field (fun t => ((t.filtAt 0).cutoff, (t.filtAt 0).dirty)) (withFilt 0x40E7700000000000#64 ⟨.lowPass, 0x40C7700000000000#64, 0x0000000000000000#64, ⟨0x3FF0000000000000#64, 0x3FF0000000000000#64, 0x3FF0000000000000#64, 0x3FF0000000000000#64⟩, 0x3FF0000000000000#64, 0x0000000000000000#64, false⟩)
      (.filtSetCutoff 0 0x4014000000000000#64) = some (CUTOFF_MIN, true) ∧
    field (fun t => ((t.filtAt 0).res, (t.filtAt 0).dirty)) (withFilt 0x40E7700000000000#64 ⟨.lowPass, 0x40C7700000000000#64, 0x0000000000000000#64, ⟨0x3FF0000000000000#64, 0x3FF0000000000000#64, 0x3FF0000000000000#64, 0x3FF0000000000000#64⟩, 0x3FF0000000000000#64, 0x0000000000000000#64, false⟩)
      (.filtSetRes 0 F.TWO) = some (F.ONE, true) ∧
    field (fun t => ((t.filtAt 0).mode, (t.filtAt 0).dirty)) (withFilt 0x40E7700000000000#64 ⟨.lowPass, 0x40C7700000000000#64, 0x0000000000000000#64, ⟨0x3FF0000000000000#64, 0x3FF0000000000000#64, 0x3FF0000000000000#64, 0x3FF0000000000000#64⟩, 0x3FF0000000000000#64, 0x0000000000000000#64, false⟩)
      (.filtSetMode 0 2) = some (.highPass, false) := by
  decide +kernel
/-- R356: a refresh stores the coefficients and clears `dirty`; `k` at `res` 1 is 3.5. -/
theorem test_refresh : let r : FiltRegs := ⟨.lowPass, 0x40C7700000000000#64, F.ONE, Stages.zero, F.ZERO, F.ZERO, true⟩
    (r.refresh 0x40E7700000000000#64).k = 0x400C000000000000#64 ∧ (r.refresh 0x40E7700000000000#64).dirty = false := by
  decide +kernel

/-! ### Host notation (30_encoding.md R145, R146) -/

/-- R145's example, and a line of each operand form. -/
theorem test_assemble :
    (Asm.assemble "OSC.SETWAVE[2] square").map encode = some ⟨0x11200002#32, 0⟩ ∧
    Asm.assemble "SYS.SETSR 48000.0 ; the rate" = some (.sysSetSr 0 0x40E7700000000000#64) ∧
    Asm.assemble "LFO.SETSYNCDIV 1/4" = some (.lfoSetSyncDiv 0 2) ∧
    Asm.assemble "FILT.TICK 0x1.8p1" = some (.filtTick 0 0x40400000#32) ∧
    Asm.assemble "OSC.TICK 1.0" = none := by
  decide +kernel

/-- P3's rows 3 to 5. -/
theorem test_pseudo : (Pseudo.lfoSync 1 0x405E000000000000#64 2).commands =
    [⟨0x32100001#32, 0⟩, ⟨0x34100000#32, 0x405E000000000000#64⟩, ⟨0x33100002#32, 0⟩] := by
  decide


/-! ### Witnesses: for each statement with hypotheses, a state and operands that meet them

`live` is a configured block with every register at a legal value written out, its cache stale. -/

def live : State where
  sr := 0x40E7700000000000#64
  status := 2
  statusCmd := 0
  res := 0
  resValid := false
  osc := Vector.replicate 3 ⟨0x407B800000000000#64, .sine, F.HALF, F.ZERO⟩
  env := Vector.replicate 1 ⟨F.QUARTER, F.QUARTER, F.HALF, F.HALF, .idle, F.ZERO, F.ZERO, F.ZERO⟩
  lfo := Vector.replicate 2 ⟨.sampleAndHold, F.ONE, .free, 2, 0x405E000000000000#64, F.ONE, F.HALF, F.QUARTER, F.HALF⟩
  filt := Vector.replicate 1 ⟨.lowPass, 0x40C7700000000000#64, F.ONE, Stages.zero, F.ZERO, F.ZERO, true⟩
  draws := 2
  run := 0
  host := []

/-- `live` with its one fault recorded. -/
def stuck : State := live.raise .notConfigured 0x13000000#32

/-- `live` before its rate is set. -/
def unset : State := { live with status := 0 }

/-- `live` with the envelope in Sustain. -/
def playing : State :=
  live.setEnv 0 ⟨F.QUARTER, F.QUARTER, F.HALF, F.HALF, .sustain, F.HALF, F.ONE, F.ZERO⟩

theorem legal_filt {c r g k : F64} {m : FiltMode} {d : Bool} (hc : inRange CUTOFF_MIN CUTOFF_MAX c = true)
    (hr : inRange RES_MIN RES_MAX r = true) : (⟨m, c, r, Stages.zero, g, k, d⟩ : FiltRegs).legal = true := by
  simp [FiltRegs.legal, Stages.zero, stageLegal_zero, hc, hr]

theorem live_inv : live.Inv where
  status := by decide +kernel
  noResult := by decide +kernel
  sr := by decide +kernel
  osc := by decide +kernel
  env := by decide +kernel
  lfo := by decide +kernel
  filt := fun i => by
    have h : live.filtAt i = ⟨.lowPass, 0x40C7700000000000#64, F.ONE, Stages.zero, F.ZERO, F.ZERO, true⟩ := by
      fin_cases i; rfl
    rw [h]; exact legal_filt (by decide +kernel) (by decide +kernel)
  cache := fun i => by fin_cases i; rfl

/-- StepKeepsInvariant, CacheInvisible, EnvOutputInUnit and FiltOutputBounded. -/
theorem witness_inv : live.Inv ∧ live.srValid = true := ⟨live_inv, by decide⟩

/-- DecodeOfEncode and DecodedIsWellFormed, at the largest enumerators. -/
theorem witness_encoding :
    (Instr.oscSetWave 2 3).WellFormed = true ∧ (Instr.lfoSetSyncDiv 15 6).WellFormed = true ∧
    (decode ⟨0x33F00006#32, 0⟩).toOption = some (.lfoSetSyncDiv 15 6) := by
  decide +kernel

/-- IllegalEncodings: a word for each clause of the list, at its boundary, and the legal words beside them. -/
theorem witness_illegal :
    unset.faulted = false ∧ listedIllegal 0x50000000#32 ∧ listedIllegal 0x00000000#32 ∧ listedIllegal 0x02000000#32 ∧
    listedIllegal 0x17000000#32 ∧ listedIllegal 0x2B000000#32 ∧ listedIllegal 0x39000000#32 ∧
    listedIllegal 0x45000000#32 ∧ listedIllegal 0x13000010#32 ∧ listedIllegal 0x13080000#32 ∧
    listedIllegal 0x13000001#32 ∧ listedIllegal 0x11000004#32 ∧ ¬listedIllegal 0x11000003#32 ∧
    ¬listedIllegal 0x44000000#32 ∧ ¬listedIllegal 0x16F00000#32 := by
  simp [listedIllegal, selMaxOf]; decide

/-- StepRunsCommand: a legal and an illegal word at the head of the host's list, and no word. -/
theorem witness_step :
    (live.send ⟨0x13000000#32, 0⟩).host = .command ⟨0x13000000#32, 0⟩ :: [] ∧
    (live.send ⟨0x13000000#32, 0⟩).faulted = false ∧
    (decode ⟨0x13000000#32, 0⟩).toOption = some (.oscTick 0) ∧ (decode ⟨0x17000000#32, 0⟩).toOption = none ∧
    live.host = [] := by
  decide +kernel

/-- StuckBlock: a stuck block, and one whose host power-cycles it; PowerCycle. -/
theorem witness_stuck :
    stuck.faulted = true ∧ step stuck = .next stuck ∧
    ({ stuck with host := [.powerOn] } : State).host = .powerOn :: [] := by
  exact ⟨by decide, rfl, rfl⟩

/-- RunEndsAfterItsCommands. -/
theorem witness_run : (live.send ⟨0x13000000#32, 0⟩).host = commands [⟨0x13000000#32, 0⟩] := rfl

/-- FaultRecording's clause for bits other than the recorded ones, at their boundaries. -/
theorem witness_recording : (3 ≠ 0 ∧ ¬(4 ≤ 3 ∧ 3 < 8)) ∧ (8 ≠ 0 ∧ ¬(4 ≤ 8 ∧ 8 < 8)) := by decide

/-- SilentNoOp: the first missing instance of each unit. -/
theorem witness_missing :
    (Instr.sysSetSr 1 0).present = false ∧ (Instr.oscSetWave 3 3).present = false ∧
    (Instr.envTick 1).present = false ∧ (Instr.lfoTick 2).present = false ∧ (Instr.filtReset 1).present = false ∧
    (Instr.oscSetWave 3 3).WellFormed = true ∧ (Instr.oscTick 2).present = true ∧ (Instr.lfoPeek 1).present = true := by
  decide

/-- NotConfigured, and the unconfigured clause of the commands that need `SR`. -/
theorem witness_notConfigured :
    (Instr.envNoteOff 0).present = true ∧ (Instr.envNoteOff 0).needsSr = true ∧ unset.srValid = false ∧
    (Instr.lfoPeek 0).needsSr = false ∧ unset.faulted = false := by
  decide

/-- BadOperand and the NaN clause of the setters; the rate's clause at its boundary. -/
theorem witness_badOperand :
    (Instr.oscSetPw 2 0x7FF8000000000000#64).present = true ∧
    (Instr.oscSetPw 2 0x7FF8000000000000#64).setterOperand = some 0x7FF8000000000000#64 ∧
    Fp.isNaN 0x7FF8000000000000#64 = true ∧ Fp.isNaN 0x7FF0000000000001#64 = true ∧
    Fp.isNaN 0x7FF0000000000000#64 = false ∧ Fp.lt 0x3FEFFFFFFFFFFFFF#64 SR_MIN = true ∧
    Fp.lt 0x3FF0000000000000#64 SR_MIN = false ∧ Fp.isFinite 0x7FF0000000000000#64 = false ∧
    (Instr.filtTick 0 0x7FC00000#32).badOperand = false ∧ unset.faulted = false := by
  decide +kernel

/-- FaultsArePrecise. -/
theorem witness_fault :
    unset.faulted = false ∧
    field (·.faulted) unset (.oscTick 0) = some true ∧ (decode ⟨0x13000000#32, 0⟩).toOption = some (.oscTick 0) := by
  decide +kernel

/-- OtherInstancesUnchanged and CommandSeesItsInstance: two states that differ in another instance. -/
theorem witness_instances :
    (Instr.oscTick 0).target = some (.osc 0) ∧ (Instr.oscTick 0).target ≠ some (.osc 1) ∧
    State.agreeOn (.osc 0) live playing ∧ live ≠ playing := by
  refine ⟨by decide, by decide, ⟨rfl, rfl, rfl, rfl⟩, by decide +kernel⟩

/-- Idempotence. -/
theorem witness_idempotence :
    (decode ⟨0x10000000#32, 0x7FF8000000000000#64⟩).toOption = some (.oscSetFreq 0 0x7FF8000000000000#64) ∧
    (Instr.oscSetFreq 0 0x7FF8000000000000#64).isSetter = true ∧ (Instr.envGetLevel 0).returnsWord = true := by
  decide +kernel

/-- A sample keeps the coefficients. -/
theorem sample_k (r : FiltRegs) (sr x : F64) : (r.sample sr x).1.k = r.k := by
  unfold FiltRegs.sample; simp only []; split <;> rfl

/-- SpecialRegisterWriters: each register changes by its writer. -/
theorem witness_writers :
    field (·.sr) live (.sysSetSr 0 F.ONE) = some F.ONE ∧ live.sr ≠ F.ONE ∧
    field (·.srValid) unset (.sysSetSr 0 F.ONE) = some true ∧
    field (·.statusCmd) unset (.envTick 0) = some 0x26000000#32 ∧
    field (fun t => (t.envAt 0).releaseRate) playing (.envNoteOff 0) ≠ some (playing.envAt 0).releaseRate ∧
    (((live.filtAt 0).refresh live.sr).sample live.sr F.ZERO).1.k ≠ (live.filtAt 0).k ∧
    (live.filtAt 0).dirty = true := by
  refine ⟨by decide +kernel, by decide +kernel, by decide +kernel, by decide +kernel, by decide +kernel, ?_, rfl⟩
  rw [sample_k]; decide +kernel

/-- OscPhaseWriters, EnvelopeLeavesIdle and HeldChangesAtWraps: each change happens. -/
theorem witness_running :
    field (fun t => (t.oscAt 2).phase) live (.oscTick 2) ≠ some (live.oscAt 2).phase ∧
    (live.envAt 0).state = .idle ∧ field (fun t => (t.envAt 0).state) live (.envNoteOn 0 F.ONE) = some .attack ∧
    field (fun t => (t.envAt 0).state) live (.envNoteOff 0) = some .release ∧
    live.srValid = true ∧ (live.lfoAt 1).wave = .sampleAndHold ∧
    field (fun t => Fp.lt (t.lfoAt 1).phase (t.lfoAt 1).lastPhase) live (.lfoTick 1) = some false := by
  decide +kernel

/-- BlockReset, SetsEnumerator's perform clause, and the clauses of the commands that need `SR`, configured and not. -/
theorem witness_configured :
    live.faulted = false ∧ live.srValid = true ∧ unset.srValid = false ∧
    (Fp.isFinite SR_MIN = true ∧ Fp.le 0x3FF0000000000000#64 SR_MIN = true) ∧
    ¬(Fp.isFinite 0x3FEFFFFFFFFFFFFF#64 = true ∧ Fp.le 0x3FF0000000000000#64 0x3FEFFFFFFFFFFFFF#64 = true) := by
  decide +kernel

/-- SetsNumber's clamps at their boundaries, and SetsEnumerator's last and first missing enumerators. -/
theorem witness_setters :
    Fp.isNaN FREQ_MIN = false ∧ Fp.lt 0x4033FFFFFFFFFFFF#64 FREQ_MIN = true ∧ Fp.lt FREQ_MIN FREQ_MIN = false ∧
    Fp.lt FREQ_MAX 0x40D3880000000001#64 = true ∧
    [OscWave.sine, .saw, .square, .triangle][(3 : BitVec 4).toNat]? = some .triangle ∧
    [OscWave.sine, .saw, .square, .triangle][(4 : BitVec 4).toNat]? = none := by
  decide +kernel

/-- LfoPeek's clause on a tick, FirstSineTick and FiltHealsNaN. -/
theorem witness_ticks :
    live.srValid = true ∧ (field (·.resValid) live (.lfoTick 1)) = some true ∧ (live.oscAt 1).wave = .sine ∧
    Fp.isNaN32 0x7FC00000#32 = true ∧ Fp.isNaN32 0x7F800000#32 = false := by
  decide +kernel

/-- OperationsRoundToNearest, at a tie, an overflow, an exact zero sum and difference, and a zero divisor's neighbour. -/
theorem witness_rounding :
    Fp.isFinite F.ONE = true ∧ Fp.isFinite 0x3CA0000000000000#64 = true ∧ Fp.isFinite 0x7FEFFFFFFFFFFFFF#64 = true ∧
    Fp.value F.ONE + Fp.value F.MINUS_ONE = 0 ∧ Fp.value F.ONE + Fp.value F.ONE ≠ 0 ∧
    Fp.value F.ONE - Fp.value F.ONE = 0 ∧ Fp.value F.ONE - Fp.value F.MINUS_ONE ≠ 0 ∧ Fp.isZero 1#64 = false := by
  decide +kernel

/-- Binary32RoundTrip, WrapIsFractionalPart and PolyBlepAtTheEdge, at boundaries. -/
theorem witness_numbers :
    Fp.isNaN32 0x80000000#32 = false ∧ Fp.isNaN32 0x7F800000#32 = false ∧
    Fp.isFinite 0x8000000000000000#64 = true ∧ Fp.le F.ZERO 0x8000000000000000#64 = true ∧
    Fp.isFinite F.ONE = true ∧ Fp.le F.ZERO F.ONE = true ∧ Fp.isFinite 1#64 = true ∧ Fp.lt F.ZERO 1#64 = true := by
  decide +kernel

/-- ConfigurationFunctions, each clause at a boundary of its range. -/
theorem witness_configuration :
    Fp.isFinite TWO_PI = true ∧ Fp.isFinite 0x7FF0000000000000#64 = false ∧ Fp.lt F.ZERO TAN_ARG_MAX = true ∧
    Fp.le TAN_ARG_MAX TAN_ARG_MAX = true ∧ Fp.isZero 0x8000000000000000#64 = true ∧
    Fp.isNaN 0x7FF8000000000000#64 = true ∧ inRange RES_MIN RES_MAX RES_MAX = true ∧
    Fp.lt F.ZERO FC_MAX_RATIO = true ∧ Fp.le FC_MAX_RATIO FC_MAX_RATIO = true := by
  decide +kernel

end Sys2Proof.Tests

end
end

/-! ### Rounding an exact conversion to binary32 -/

namespace Sys2Proof.Fp

theorem pack32_parts (x : F32) : pack32 (neg32? x) (mag32 x) = x := by
  apply BitVec.eq_of_toNat_eq
  have := x.isLt
  unfold pack32 neg32? mag32
  rw [BitVec.toNat_ofNat]
  by_cases h : 2 ^ 31 ≤ x.toNat
  · rw [if_pos (decide_eq_true h)]; omega
  · rw [if_neg (by simpa using h)]; omega

/-- A format with at least as many fraction bits has every value of the narrower one, scaled by any power of two. -/
theorem exists_code_of_narrower {fb fb' : Nat} (hfb : fb ≤ fb') (m j : Nat) :
    ∃ m', magValue fb' m' = magValue fb m * 2 ^ j := by
  have hwide : 2 ^ (fb + 1) ≤ 2 ^ (fb' + 1) := Nat.pow_le_pow_right (by norm_num) (by omega)
  rw [pow_succ] at hwide
  rcases code_cases fb m with h | ⟨e, f, hf, rfl⟩
  · rw [magValue_of_field_zero h]
    exact exists_code fb' m j (by omega)
  · rw [magValue_of_field hf, Nat.mul_assoc, ← pow_add]
    exact exists_code fb' (2 ^ fb + f) (e + j) (by omega)

/-- The exponents of binary64 reach beyond those of binary32. -/
theorem magValue_infMag32_lt : magValue 23 infMag32 * tiny32 < magValue 52 infMag := by decide +kernel

/-- A finite binary32 value is a finite value of binary64, so its conversion rounds nothing away. -/
theorem fromBinary32_exact {x : F32} (hx : mag32 x < infMag32) :
    ∃ m, m < infMag ∧ magValue 52 m = magValue 23 (mag32 x) * tiny32 ∧ fromBinary32 x = pack (neg32? x) m := by
  obtain ⟨m, hm⟩ := exists_code_of_narrower (fb := 23) (fb' := 52) (by norm_num) (mag32 x) 925
  have hv : magValue 52 m = magValue 23 (mag32 x) * tiny32 := by
    unfold tiny32; exact hm
  have hlt : m < infMag := magValue_lt_iff.1 <| by
    calc magValue 52 m = magValue 23 (mag32 x) * tiny32 := hv
      _ ≤ magValue 23 infMag32 * tiny32 := Nat.mul_le_mul_right _ (magValue_le_iff.2 hx.le)
      _ < magValue 52 infMag := magValue_infMag32_lt
  have hn : isNaN32 x = false := by simpa [isNaN32] using hx.le
  have hi : isInf32 x = false := by simpa [isInf32] using hx.ne
  have hr := round_exact (neg32? x) hlt.le one_pos
  rw [hv, Nat.mul_one] at hr
  exact ⟨m, hlt, hv, by simp only [fromBinary32, hn, hi, Bool.false_eq_true, if_false, hr]⟩

theorem fromBinary32_inf {x : F32} (hx : mag32 x = infMag32) : fromBinary32 x = pack (neg32? x) infMag := by
  simp [fromBinary32, isNaN32, isInf32, hx]

theorem toBinary32_pack_inf (b : Bool) : toBinary32 (pack b infMag) = pack32 b infMag32 := by
  simp [toBinary32, isNaN, isInf, mag_pack infMag_lt, neg?_pack infMag_lt]

/-- Rounding to binary32 is exact on binary32's finite values. -/
theorem toBinary32_pack_exact (b : Bool) {m n : Nat} (hm : m < infMag) (hn : n ≤ infMag32)
    (h : magValue 52 m = magValue 23 n * tiny32) : toBinary32 (pack b m) = pack32 b n := by
  have hm' : m < 2 ^ 63 := hm.trans infMag_lt
  have hr : roundMag 23 (magValue 52 m) tiny32 = n := by rw [h, roundMag_exact 23 n tiny32_pos]
  simp [toBinary32, isNaN, isInf, mag_pack hm', neg?_pack hm', hr, hm.le, hm.ne, hn]

end Sys2Proof.Fp

namespace Sys2Proof
open Fp

/-- Settles O53: an infinity comes back as the infinity of its sign, and both conversions of a finite value are exact. -/
theorem binary32RoundTrip : Obligations.Binary32RoundTrip := by
  intro x hx
  have hle : mag32 x ≤ infMag32 := by simpa [isNaN32] using hx
  rcases hle.eq_or_lt with hinf | hfin
  · rw [fromBinary32_inf hinf, toBinary32_pack_inf, ← hinf, pack32_parts]
  · obtain ⟨m, hm, hv, hx'⟩ := fromBinary32_exact hfin
    rw [hx', toBinary32_pack_exact _ hm hle hv, pack32_parts]

end Sys2Proof

/-! ### What a command can do

One relation says what every command writes and on what condition; the statements about who may change a register, about
the result port and about the invariant follow from it by cases. -/

namespace Sys2Proof.Machine

/-- The outcome `r` is a next state, one that satisfies `P`. -/
def Ends (r : Result) (P : State → Prop) : Prop := ∃ t, r = .next t ∧ P t

section
variable {s : State} {P : State → Prop}

theorem ends_next (h : P s) : Ends (.next s) P := ⟨s, rfl, h⟩

theorem instIdx_mk {n : Nat} (idx : BitVec 4) (h : idx.toNat < n) : instIdx (⟨idx.toNat, h⟩ : Fin n) = idx := by
  simp [instIdx]

theorem toNat_instIdx {n : Nat} (hn : n ≤ 16) (j : Fin n) : (instIdx j).toNat = j.val := by
  have := j.isLt
  rw [instIdx, BitVec.toNat_ofNat, Nat.mod_eq_of_lt (by omega)]

/-! One rule per check of R137: the command ends there, or the rest of it runs. -/

theorem ends_onInstance {n : Nat} {idx : BitVec 4} {rest : Fin n → Result}
    (missing : decide (idx.toNat < n) = false → P s.noResult)
    (present : ∀ j : Fin n, instIdx j = idx → Ends (rest j) P) : Ends (onInstance n idx s rest) P := by
  by_cases h : idx.toNat < n
  · rw [onInstance_present h]; exact present _ (instIdx_mk idx h)
  · rw [onInstance_missing (Nat.not_lt.1 h)]; exact ends_next (missing (by simpa using h))

theorem ends_numberOperand {cmd : CmdWord} {v : F64} {rest : Result}
    (nan : Fp.isNaN v = true → P (s.raise .badOperand cmd)) (number : Fp.isNaN v = false → Ends rest P) :
    Ends (numberOperand cmd v s rest) P := by
  cases h : Fp.isNaN v
  · rw [numberOperand_number h]; exact number h
  · rw [numberOperand_nan h]; exact ends_next (nan h)

theorem ends_requireSr {cmd : CmdWord} {rest : Result}
    (unconfigured : s.srValid = false → P (s.raise .notConfigured cmd)) (configured : s.srValid = true → Ends rest P) :
    Ends (requireSr cmd s rest) P := by
  cases h : s.srValid
  · rw [requireSr_unconfigured h]; exact ends_next (unconfigured h)
  · rw [requireSr_configured h]; exact configured h

theorem ends_selOperand {α : Type} {cmd : CmdWord} {meaning : Option α} {rest : α → Result}
    (illegal : meaning = none → P (s.raise .illegalCommand cmd)) (legal : ∀ a, meaning = some a → Ends (rest a) P) :
    Ends (selOperand cmd meaning s rest) P := by
  cases h : meaning with
  | none => exact ends_next (illegal h)
  | some a => exact legal a h

end

/-- The ways a command faults in a state (R137, R403, R404). -/
def FaultsWith (s : State) (i : Instr) : FaultCode → Prop
  | .illegalCommand => i.WellFormed = false
  | .badOperand => i.badOperand = true
  | .notConfigured => i.needsSr = true ∧ s.srValid = false

/-- `UnitEffect s u i t`: the command `i` to register file `u` completes in `s`, with next state `t`. Each constructor
is one command, `LFO.TICK` two: what it needs, and everything it writes. -/
inductive UnitEffect (s : State) : RegFile → Instr → State → Prop
  | oscSetFreq (j : Fin 3) (v : F64) (hv : Fp.isNaN v = false) : UnitEffect s (.osc j) (.oscSetFreq (instIdx j) v)
      (s.setOsc j { s.oscAt j with freq := clamp v FREQ_MIN FREQ_MAX }).noResult
  | oscSetWave (j : Fin 3) {sel : BitVec 4} {w : OscWave} (hw : oscWaveOfSel sel = some w) :
      UnitEffect s (.osc j) (.oscSetWave (instIdx j) sel) (s.setOsc j { s.oscAt j with wave := w }).noResult
  | oscSetPw (j : Fin 3) (v : F64) (hv : Fp.isNaN v = false) : UnitEffect s (.osc j) (.oscSetPw (instIdx j) v)
      (s.setOsc j { s.oscAt j with pw := clamp v PW_MIN PW_MAX }).noResult
  | oscTick (j : Fin 3) (hs : s.srValid = true) : UnitEffect s (.osc j) (.oscTick (instIdx j))
      ((s.setOsc j ((s.oscAt j).advance (oscIncrement s.sr (s.oscAt j)))).returnsSample
        (oscSample (s.oscAt j) (oscIncrement s.sr (s.oscAt j))))
  | oscReset (j : Fin 3) : UnitEffect s (.osc j) (.oscReset (instIdx j))
      (s.setOsc j { s.oscAt j with phase := F.ZERO }).noResult
  | oscRandPhase (j : Fin 3) : UnitEffect s (.osc j) (.oscRandPhase (instIdx j))
      (s.setOsc j { s.oscAt j with phase := s.nextPhaseDraw }).drawn.noResult
  | oscGetPhase (j : Fin 3) : UnitEffect s (.osc j) (.oscGetPhase (instIdx j)) (s.returns (s.oscAt j).phase)
  | envSetAttack (j : Fin 1) (v : F64) (hv : Fp.isNaN v = false) : UnitEffect s (.env j) (.envSetAttack (instIdx j) v)
      (s.setEnv j { s.envAt j with attack := clamp v ATTACK_MIN ATTACK_MAX }).noResult
  | envSetDecay (j : Fin 1) (v : F64) (hv : Fp.isNaN v = false) : UnitEffect s (.env j) (.envSetDecay (instIdx j) v)
      (s.setEnv j { s.envAt j with decay := clamp v DECAY_MIN DECAY_MAX }).noResult
  | envSetSustain (j : Fin 1) (v : F64) (hv : Fp.isNaN v = false) : UnitEffect s (.env j) (.envSetSustain (instIdx j) v)
      (s.setEnv j { s.envAt j with sustain := clamp v SUSTAIN_MIN SUSTAIN_MAX }).noResult
  | envSetRelease (j : Fin 1) (v : F64) (hv : Fp.isNaN v = false) : UnitEffect s (.env j) (.envSetRelease (instIdx j) v)
      (s.setEnv j { s.envAt j with release := clamp v RELEASE_MIN RELEASE_MAX }).noResult
  | envNoteOn (j : Fin 1) (v : F64) (hv : Fp.isNaN v = false) : UnitEffect s (.env j) (.envNoteOn (instIdx j) v)
      (s.setEnv j { s.envAt j with velocity := clamp v VELOCITY_MIN VELOCITY_MAX, state := .attack }).noResult
  | envNoteOff (j : Fin 1) (hs : s.srValid = true) : UnitEffect s (.env j) (.envNoteOff (instIdx j))
      (s.setEnv j
        { s.envAt j with releaseRate := latchedReleaseRate s.sr (s.envAt j), state := .release }).noResult
  | envTick (j : Fin 1) (hs : s.srValid = true) : UnitEffect s (.env j) (.envTick (instIdx j))
      ((s.setEnv j ((s.envAt j).tick s.sr)).returnsSample ((s.envAt j).tick s.sr).output)
  | envReset (j : Fin 1) : UnitEffect s (.env j) (.envReset (instIdx j))
      (s.setEnv j { s.envAt j with state := .idle, level := F.ZERO }).noResult
  | envGetState (j : Fin 1) : UnitEffect s (.env j) (.envGetState (instIdx j))
      (s.returns (envStateNumber (s.envAt j).state))
  | envIsActive (j : Fin 1) : UnitEffect s (.env j) (.envIsActive (instIdx j))
      (s.returns (if (s.envAt j).state = .idle then 0 else 1))
  | envGetLevel (j : Fin 1) : UnitEffect s (.env j) (.envGetLevel (instIdx j)) (s.returns (s.envAt j).level)
  | lfoSetWave (j : Fin 2) {sel : BitVec 4} {w : LfoWave} (hw : lfoWaveOfSel sel = some w) :
      UnitEffect s (.lfo j) (.lfoSetWave (instIdx j) sel) (s.setLfo j { s.lfoAt j with wave := w }).noResult
  | lfoSetRate (j : Fin 2) (v : F64) (hv : Fp.isNaN v = false) : UnitEffect s (.lfo j) (.lfoSetRate (instIdx j) v)
      (s.setLfo j { s.lfoAt j with rate := clamp v LFO_RATE_MIN LFO_RATE_MAX }).noResult
  | lfoSetRateMode (j : Fin 2) {sel : BitVec 4} {m : RateMode} (hm : rateModeOfSel sel = some m) :
      UnitEffect s (.lfo j) (.lfoSetRateMode (instIdx j) sel) (s.setLfo j { s.lfoAt j with rateMode := m }).noResult
  | lfoSetSyncDiv (j : Fin 2) {sel : BitVec 4} {d : SyncDiv} (hd : syncDivOfSel sel = some d) :
      UnitEffect s (.lfo j) (.lfoSetSyncDiv (instIdx j) sel) (s.setLfo j { s.lfoAt j with syncDiv := d }).noResult
  | lfoSetBpm (j : Fin 2) (v : F64) (hv : Fp.isNaN v = false) : UnitEffect s (.lfo j) (.lfoSetBpm (instIdx j) v)
      (s.setLfo j { s.lfoAt j with bpm := clamp v BPM_MIN BPM_MAX }).noResult
  | lfoSetDepth (j : Fin 2) (v : F64) (hv : Fp.isNaN v = false) : UnitEffect s (.lfo j) (.lfoSetDepth (instIdx j) v)
      (s.setLfo j { s.lfoAt j with depth := clamp v DEPTH_MIN DEPTH_MAX }).noResult
  | lfoTick (j : Fin 2) {r : LfoRegs} (hs : s.srValid = true)
      (hr : r = (s.lfoAt j).advance (lfoIncrement s.sr (s.lfoAt j))) (hw : r.wrapped = false) :
      UnitEffect s (.lfo j) (.lfoTick (instIdx j)) ((s.setLfo j r).returnsSample r.output)
  | lfoTickWraps (j : Fin 2) {r : LfoRegs} (hs : s.srValid = true)
      (hr : r = (s.lfoAt j).advance (lfoIncrement s.sr (s.lfoAt j))) (hw : r.wrapped = true) :
      UnitEffect s (.lfo j) (.lfoTick (instIdx j))
        ((s.setLfo j { r with held := s.nextHeldDraw }).drawn.returnsSample
          ({ r with held := s.nextHeldDraw } : LfoRegs).output)
  | lfoPeek (j : Fin 2) : UnitEffect s (.lfo j) (.lfoPeek (instIdx j)) (s.returnsSample (s.lfoAt j).output)
  | lfoReset (j : Fin 2) : UnitEffect s (.lfo j) (.lfoReset (instIdx j))
      (s.setLfo j { s.lfoAt j with phase := F.ZERO, lastPhase := F.ZERO, held := s.nextHeldDraw }).drawn.noResult
  | filtSetMode (j : Fin 1) {sel : BitVec 4} {m : FiltMode} (hm : filtModeOfSel sel = some m) :
      UnitEffect s (.filt j) (.filtSetMode (instIdx j) sel) (s.setFilt j { s.filtAt j with mode := m }).noResult
  | filtSetCutoff (j : Fin 1) (v : F64) (hv : Fp.isNaN v = false) :
      UnitEffect s (.filt j) (.filtSetCutoff (instIdx j) v)
        (s.setFilt j { s.filtAt j with cutoff := clamp v CUTOFF_MIN CUTOFF_MAX, dirty := true }).noResult
  | filtSetRes (j : Fin 1) (v : F64) (hv : Fp.isNaN v = false) : UnitEffect s (.filt j) (.filtSetRes (instIdx j) v)
      (s.setFilt j { s.filtAt j with res := clamp v RES_MIN RES_MAX, dirty := true }).noResult
  | filtTick (j : Fin 1) (x : F32) {out : FiltRegs × F64} (hs : s.srValid = true)
      (ho : out = ((s.filtAt j).refresh s.sr).sample s.sr (Fp.fromBinary32 x)) :
      UnitEffect s (.filt j) (.filtTick (instIdx j) x) ((s.setFilt j out.1).returnsSample out.2)
  | filtReset (j : Fin 1) : UnitEffect s (.filt j) (.filtReset (instIdx j))
      (s.setFilt j { s.filtAt j with s := Stages.zero }).noResult

/-- All that the command `i` can do in `s`: nothing, if its unit has no register file of that number (R136); a fault;
`SYS.SETSR`'s writes; or its rule's writes to one register file. -/
inductive Effect (s : State) (i : Instr) : State → Prop
  | missing (h : i.present = false) : Effect s i s.noResult
  | fault (code : FaultCode) (h : FaultsWith s i code) : Effect s i (s.raise code i.cmdWord)
  | sampleRate (v : F64) (hi : i = .sysSetSr (instIdx (0 : Fin 1)) v) (hv : isSampleRate v = true) :
      Effect s i (s.setSr v).noResult
  | unit {u : RegFile} {t : State} (h : UnitEffect s u i t) : Effect s i t

/-! A `SEL` that numbers no enumerator is past the last one (R135, R141). -/

theorem oscWaveOfSel_none {sel : BitVec 4} (h : oscWaveOfSel sel = none) : decide (sel.toNat ≤ 3) = false := by
  revert sel; decide

theorem lfoWaveOfSel_none {sel : BitVec 4} (h : lfoWaveOfSel sel = none) : decide (sel.toNat ≤ 4) = false := by
  revert sel; decide

theorem rateModeOfSel_none {sel : BitVec 4} (h : rateModeOfSel sel = none) : decide (sel.toNat ≤ 1) = false := by
  revert sel; decide

theorem syncDivOfSel_none {sel : BitVec 4} (h : syncDivOfSel sel = none) : decide (sel.toNat ≤ 6) = false := by
  revert sel; decide

theorem filtModeOfSel_none {sel : BitVec 4} (h : filtModeOfSel sel = none) : decide (sel.toNat ≤ 2) = false := by
  revert sel; decide

/-- Every command ends in a next state, which is one of its effects. -/
theorem exec_ends_in_effect (i : Instr) (s : State) : Ends (exec i s) (Effect s i) := by
  have missing (h : i.present = false) : Effect s i s.noResult := .missing h
  unfold exec
  cases i with
  | sysSetSr idx v =>
    refine ends_onInstance missing fun j hj => ?_
    obtain rfl : j = 0 := Subsingleton.elim _ _
    subst hj
    cases h : isSampleRate v
    · exact ends_next (.fault .badOperand (by simp [FaultsWith, Instr.badOperand, h]))
    · exact ends_next (.sampleRate v rfl h)
  | oscSetFreq idx v =>
    exact ends_onInstance missing fun
      | j, rfl => ends_numberOperand (fun h => .fault .badOperand h) fun hv => ends_next (.unit (.oscSetFreq j v hv))
  | oscSetWave idx sel =>
    exact ends_selOperand (fun h => .fault .illegalCommand (oscWaveOfSel_none h)) fun _ h =>
      ends_onInstance missing fun | j, rfl => ends_next (.unit (.oscSetWave j h))
  | oscSetPw idx v =>
    exact ends_onInstance missing fun
      | j, rfl => ends_numberOperand (fun h => .fault .badOperand h) fun hv => ends_next (.unit (.oscSetPw j v hv))
  | oscTick idx =>
    exact ends_onInstance missing fun
      | j, rfl => ends_requireSr (fun h => .fault .notConfigured ⟨rfl, h⟩) fun hs => ends_next (.unit (.oscTick j hs))
  | oscReset idx => exact ends_onInstance missing fun | j, rfl => ends_next (.unit (.oscReset j))
  | oscRandPhase idx => exact ends_onInstance missing fun | j, rfl => ends_next (.unit (.oscRandPhase j))
  | oscGetPhase idx => exact ends_onInstance missing fun | j, rfl => ends_next (.unit (.oscGetPhase j))
  | envSetAttack idx v =>
    exact ends_onInstance missing fun
      | j, rfl => ends_numberOperand (fun h => .fault .badOperand h) fun hv => ends_next (.unit (.envSetAttack j v hv))
  | envSetDecay idx v =>
    exact ends_onInstance missing fun
      | j, rfl => ends_numberOperand (fun h => .fault .badOperand h) fun hv => ends_next (.unit (.envSetDecay j v hv))
  | envSetSustain idx v =>
    exact ends_onInstance missing fun
      | j, rfl => ends_numberOperand (fun h => .fault .badOperand h) fun hv => ends_next (.unit (.envSetSustain j v hv))
  | envSetRelease idx v =>
    exact ends_onInstance missing fun
      | j, rfl => ends_numberOperand (fun h => .fault .badOperand h) fun hv => ends_next (.unit (.envSetRelease j v hv))
  | envNoteOn idx v =>
    exact ends_onInstance missing fun
      | j, rfl => ends_numberOperand (fun h => .fault .badOperand h) fun hv => ends_next (.unit (.envNoteOn j v hv))
  | envNoteOff idx =>
    exact ends_onInstance missing fun
      | j, rfl =>
        ends_requireSr (fun h => .fault .notConfigured ⟨rfl, h⟩) fun hs => ends_next (.unit (.envNoteOff j hs))
  | envTick idx =>
    exact ends_onInstance missing fun
      | j, rfl => ends_requireSr (fun h => .fault .notConfigured ⟨rfl, h⟩) fun hs => ends_next (.unit (.envTick j hs))
  | envReset idx => exact ends_onInstance missing fun | j, rfl => ends_next (.unit (.envReset j))
  | envGetState idx => exact ends_onInstance missing fun | j, rfl => ends_next (.unit (.envGetState j))
  | envIsActive idx => exact ends_onInstance missing fun | j, rfl => ends_next (.unit (.envIsActive j))
  | envGetLevel idx => exact ends_onInstance missing fun | j, rfl => ends_next (.unit (.envGetLevel j))
  | lfoSetWave idx sel =>
    exact ends_selOperand (fun h => .fault .illegalCommand (lfoWaveOfSel_none h)) fun _ h =>
      ends_onInstance missing fun | j, rfl => ends_next (.unit (.lfoSetWave j h))
  | lfoSetRate idx v =>
    exact ends_onInstance missing fun
      | j, rfl => ends_numberOperand (fun h => .fault .badOperand h) fun hv => ends_next (.unit (.lfoSetRate j v hv))
  | lfoSetRateMode idx sel =>
    exact ends_selOperand (fun h => .fault .illegalCommand (rateModeOfSel_none h)) fun _ h =>
      ends_onInstance missing fun | j, rfl => ends_next (.unit (.lfoSetRateMode j h))
  | lfoSetSyncDiv idx sel =>
    exact ends_selOperand (fun h => .fault .illegalCommand (syncDivOfSel_none h)) fun _ h =>
      ends_onInstance missing fun | j, rfl => ends_next (.unit (.lfoSetSyncDiv j h))
  | lfoSetBpm idx v =>
    exact ends_onInstance missing fun
      | j, rfl => ends_numberOperand (fun h => .fault .badOperand h) fun hv => ends_next (.unit (.lfoSetBpm j v hv))
  | lfoSetDepth idx v =>
    exact ends_onInstance missing fun
      | j, rfl => ends_numberOperand (fun h => .fault .badOperand h) fun hv => ends_next (.unit (.lfoSetDepth j v hv))
  | lfoTick idx =>
    refine ends_onInstance missing fun
      | j, rfl => ends_requireSr (fun h => .fault .notConfigured ⟨rfl, h⟩) fun hs => ?_
    dsimp only
    split
    · rename_i hw; exact ends_next (.unit (.lfoTickWraps j hs rfl hw))
    · rename_i hw; exact ends_next (.unit (.lfoTick j hs rfl (by simpa using hw)))
  | lfoPeek idx => exact ends_onInstance missing fun | j, rfl => ends_next (.unit (.lfoPeek j))
  | lfoReset idx => exact ends_onInstance missing fun | j, rfl => ends_next (.unit (.lfoReset j))
  | filtSetMode idx sel =>
    exact ends_selOperand (fun h => .fault .illegalCommand (filtModeOfSel_none h)) fun _ h =>
      ends_onInstance missing fun | j, rfl => ends_next (.unit (.filtSetMode j h))
  | filtSetCutoff idx v =>
    exact ends_onInstance missing fun
      | j, rfl => ends_numberOperand (fun h => .fault .badOperand h) fun hv => ends_next (.unit (.filtSetCutoff j v hv))
  | filtSetRes idx v =>
    exact ends_onInstance missing fun
      | j, rfl => ends_numberOperand (fun h => .fault .badOperand h) fun hv => ends_next (.unit (.filtSetRes j v hv))
  | filtTick idx x =>
    exact ends_onInstance missing fun
      | j, rfl =>
        ends_requireSr (fun h => .fault .notConfigured ⟨rfl, h⟩) fun hs => ends_next (.unit (.filtTick j x hs rfl))
  | filtReset idx => exact ends_onInstance missing fun | j, rfl => ends_next (.unit (.filtReset j))

/-- The next state of a command is one of its effects. -/
theorem effect_of_exec {s t : State} {i : Instr} (h : exec i s = .next t) : Effect s i t := by
  obtain ⟨t', ht, he⟩ := exec_ends_in_effect i s
  rwa [next_inj (h.symm.trans ht)] at he

section
variable {s t : State} {i : Instr} {u : RegFile}

/-! ### What a command to a register file leaves unchanged (R109) -/

/-- `SR`, `STATUS` and `STATUS_CMD` are no unit's to write. -/
theorem UnitEffect.control (h : UnitEffect s u i t) :
    t.sr = s.sr ∧ t.status = s.status ∧ t.statusCmd = s.statusCmd := by
  cases h <;> exact ⟨rfl, rfl, rfl⟩

/-! A write to one register file leaves the others. -/

theorem sameAt_rfl (u : RegFile) (s : State) : State.sameAt u s s := by cases u <;> rfl

theorem sameAt_setOsc {j : Fin 3} (h : u ≠ .osc j) (r : OscRegs) : State.sameAt u s (s.setOsc j r) := by
  cases u with
  | osc k => exact (s.setOsc_oscAt_ne (fun e => h (congrArg RegFile.osc e)) r).symm
  | env k | lfo k | filt k => rfl

theorem sameAt_setEnv {j : Fin 1} (h : u ≠ .env j) (r : EnvRegs) : State.sameAt u s (s.setEnv j r) := by
  cases u with
  | env k => exact absurd (congrArg RegFile.env (Subsingleton.elim k j)) h
  | osc k | lfo k | filt k => rfl

theorem sameAt_setLfo {j : Fin 2} (h : u ≠ .lfo j) (r : LfoRegs) : State.sameAt u s (s.setLfo j r) := by
  cases u with
  | lfo k => exact (s.setLfo_lfoAt_ne (fun e => h (congrArg RegFile.lfo e)) r).symm
  | osc k | env k | filt k => rfl

theorem sameAt_setFilt {j : Fin 1} (h : u ≠ .filt j) (r : FiltRegs) : State.sameAt u s (s.setFilt j r) := by
  cases u with
  | filt k => exact absurd (congrArg RegFile.filt (Subsingleton.elim k j)) h
  | osc k | env k | lfo k => rfl

/-- A command to one register file leaves every other as it was. -/
theorem UnitEffect.sameAt {u' : RegFile} (h : UnitEffect s u i t) (hu : u' ≠ u) : State.sameAt u' s t := by
  cases h
  case oscGetPhase | envGetState | envIsActive | envGetLevel | lfoPeek => exact sameAt_rfl u' s
  case oscSetFreq | oscSetWave | oscSetPw | oscTick | oscReset | oscRandPhase => exact sameAt_setOsc hu _
  case lfoSetWave | lfoSetRate | lfoSetRateMode | lfoSetSyncDiv | lfoSetBpm | lfoSetDepth | lfoTick | lfoTickWraps |
      lfoReset => exact sameAt_setLfo hu _
  case filtSetMode | filtSetCutoff | filtSetRes | filtTick | filtReset => exact sameAt_setFilt hu _
  all_goals exact sameAt_setEnv hu _

/-- What became of register file `u`: the command is to it, or kept it, or is `SYS.SETSR`. -/
theorem Effect.at (h : Effect s i t) (u : RegFile) :
    UnitEffect s u i t ∨ State.sameAt u s t ∨
      ∃ v, i = .sysSetSr (instIdx (0 : Fin 1)) v ∧ t = (s.setSr v).noResult := by
  cases h with
  | missing _ | fault _ _ => exact .inr (.inl (sameAt_rfl u s))
  | sampleRate v hi _ => exact .inr (.inr ⟨v, hi, rfl⟩)
  | @unit u' _ h =>
    by_cases hu : u = u'
    · exact .inl (hu ▸ h)
    · exact .inr (.inl (h.sameAt hu))

/-! ### The result port (R140) -/

theorem present_of {n : Nat} (hn : n ≤ 16) (j : Fin n) (hx : i.idx = instIdx j) (hi : i.instances = n) :
    i.present = true := by
  simp [Instr.present, hx, hi, toNat_instIdx hn]

theorem UnitEffect.present (h : UnitEffect s u i t) : i.present = true := by
  cases h <;> exact present_of (by decide) _ rfl rfl

theorem UnitEffect.configured (h : UnitEffect s u i t) : i.needsSr = false ∨ s.srValid = true := by
  cases h
  case oscTick hs | envNoteOff hs | envTick hs | lfoTick hs _ _ | lfoTickWraps hs _ _ | filtTick hs _ => exact .inr hs
  all_goals exact .inl rfl

/-- The high half of a sample's word is 0 (R44). -/
theorem extractLsb'_sample (y : F32) : (y.setWidth 64).extractLsb' 32 32 = 0 := by
  apply BitVec.eq_of_getLsbD_eq
  intro b hb
  simp

theorem UnitEffect.result (h : UnitEffect s u i t) :
    t.resValid = (i.returnsSample || i.returnsWord) ∧ (t.resValid = false → t.res = s.res) ∧
      (i.returnsSample = true → t.res.extractLsb' 32 32 = 0) := by
  cases h <;> simp [Instr.returnsSample, Instr.returnsWord, extractLsb'_sample]

/-- A command with a result has no operand to refuse. -/
theorem accepts_of_returns (h : (i.returnsSample || i.returnsWord) = true) :
    i.WellFormed = true ∧ i.badOperand = false := by
  cases i
  case oscTick | oscGetPhase | envTick | envGetState | envIsActive | envGetLevel | lfoTick | lfoPeek | filtTick =>
    exact ⟨rfl, rfl⟩
  all_goals exact absurd h Bool.false_ne_true

/-- A command with a result faults for want of `SR` alone. -/
theorem FaultsWith.unconfigured {code : FaultCode} (h : FaultsWith s i code)
    (hr : (i.returnsSample || i.returnsWord) = true) : i.needsSr = true ∧ s.srValid = false := by
  obtain ⟨hw, hb⟩ := accepts_of_returns hr
  cases code with
  | illegalCommand => exact absurd (h.symm.trans hw) Bool.false_ne_true
  | badOperand => exact absurd (hb.symm.trans h) Bool.false_ne_true
  | notConfigured => exact h

/-! ### Who writes a register -/

/-- What a configured `LFO.TICK` does to LFO `j` (R308). -/
theorem exec_lfoTick (j : Fin 2) (hs : s.srValid = true) :
    exec (.lfoTick (instIdx j)) s =
      let r := (s.lfoAt j).advance (lfoIncrement s.sr (s.lfoAt j))
      if r.wrapped then
        let r' := { r with held := s.nextHeldDraw }
        .next ((s.setLfo j r').drawn.returnsSample r'.output)
      else .next ((s.setLfo j r).returnsSample r.output) := by
  rw [exec, execLfoTick, onInstance_instIdx (by decide), requireSr_configured hs]

/-- A sample writes the stages alone. -/
theorem FiltRegs.sample_fst (r : FiltRegs) (sr x : F64) : (r.sample sr x).1 = { r with s := (r.sample sr x).1.s } := by
  unfold FiltRegs.sample
  dsimp only
  split <;> rfl

theorem FiltRegs.refresh_clean {r : FiltRegs} (h : r.dirty = false) (sr : F64) : r.refresh sr = r := by
  simp [FiltRegs.refresh, h]

theorem EnvRegs.tick_releaseRate (r : EnvRegs) (sr : F64) : (r.tick sr).releaseRate = r.releaseRate := by
  unfold EnvRegs.tick
  split
  · rfl
  · unfold EnvRegs.attackStep; dsimp only; split <;> rfl
  · unfold EnvRegs.decayStep; dsimp only; split <;> rfl
  · rfl
  · unfold EnvRegs.releaseStep; dsimp only; split <;> rfl

theorem Effect.sr_kept (h : Effect s i t) (hi : ∀ idx v, i ≠ .sysSetSr idx v) :
    t.sr = s.sr ∧ t.srValid = s.srValid := by
  cases h with
  | missing _ => exact ⟨rfl, rfl⟩
  | fault code _ => exact ⟨rfl, s.raise_srValid code _⟩
  | sampleRate v he _ => exact absurd he (hi _ v)
  | unit h =>
    obtain ⟨hsr, hst, -⟩ := h.control
    exact ⟨hsr, congrArg statusSrValid hst⟩

theorem getLsbD_setSrValid {b : Nat} (hb : b ≠ 1) (w : BitVec 32) : (statusSetSrValid w).getLsbD b = w.getLsbD b := by
  have h2 : (0x2#32).getLsbD b = false := by
    rw [show 0x2#32 = BitVec.twoPow 32 1 from rfl, BitVec.getLsbD_twoPow]
    simp [hb.symm]
  rw [statusSetSrValid, BitVec.getLsbD_or, h2, Bool.or_false]

theorem Effect.status_kept (h : Effect s i t) (hf : t.faulted = false) :
    t.statusCmd = s.statusCmd ∧ ∀ b, b ≠ 1 → t.status.getLsbD b = s.status.getLsbD b := by
  cases h with
  | missing _ => exact ⟨rfl, fun _ _ => rfl⟩
  | fault code _ => rw [State.raise_faulted] at hf; cases hf
  | sampleRate v _ _ => exact ⟨rfl, fun b hb => getLsbD_setSrValid hb s.status⟩
  | unit h =>
    obtain ⟨-, hst, hcmd⟩ := h.control
    exact ⟨hcmd, fun b _ => by rw [hst]⟩

theorem Effect.envNoteOff_of_releaseRate {j : Fin 1} (h : Effect s i t)
    (hne : (t.envAt j).releaseRate ≠ (s.envAt j).releaseRate) : i = .envNoteOff (instIdx j) := by
  rcases h.at (.env j) with hu | hsame | ⟨v, rfl, rfl⟩
  · cases hu
    case envNoteOff => rfl
    case envTick => exact absurd (by simp [EnvRegs.tick_releaseRate]) hne
    all_goals exact absurd (by simp) hne
  · exact absurd (congrArg EnvRegs.releaseRate hsame).symm hne
  · exact absurd rfl hne

theorem Effect.filtTick_of_coefficients {j : Fin 1} (h : Effect s i t)
    (hne : (t.filtAt j).g ≠ (s.filtAt j).g ∨ (t.filtAt j).k ≠ (s.filtAt j).k) :
    (s.filtAt j).dirty = true ∧ ∃ x, i = .filtTick (instIdx j) x := by
  rcases h.at (.filt j) with hu | hsame | ⟨v, rfl, rfl⟩
  · cases hu
    case filtTick x out hs ho =>
      refine ⟨?_, x, rfl⟩
      by_contra hd
      rw [Bool.not_eq_true] at hd
      rw [FiltRegs.refresh_clean hd, Prod.ext_iff, FiltRegs.sample_fst] at ho
      simp [ho.1] at hne
    all_goals simp at hne
  · have hsame : s.filtAt j = t.filtAt j := hsame
    simp [hsame] at hne
  · simp at hne

end

/-- Settles O19: a unit's command that completes writes the port as R140 says, and every other outcome clears
`RES_VALID`. -/
theorem resultPort : Obligations.ResultPort := by
  intro i s
  obtain ⟨t, ht, he⟩ := exec_ends_in_effect i s
  refine ⟨t, ht, ?_⟩
  cases he with
  | missing h => simp [h]
  | fault code h =>
    refine ⟨⟨nofun, fun ⟨_, hr, hs⟩ => ?_⟩, fun _ => rfl, nofun⟩
    obtain ⟨hn, hv⟩ := h.unconfigured hr
    simp [hn, hv] at hs
  | sampleRate v hi _ => subst hi; simp [Instr.returnsSample, Instr.returnsWord]
  | unit h =>
    obtain ⟨hv, hk, hh⟩ := h.result
    exact ⟨by simp [hv, h.present, h.configured], hk, fun hs _ => hh hs⟩

/-- Settles O25: of the commands to oscillator `j`, four keep its phase. -/
theorem oscPhaseWriters : Obligations.OscPhaseWriters := by
  intro i s t j h hne
  rcases (effect_of_exec h).at (.osc j) with hu | hsame | ⟨v, rfl, rfl⟩
  · cases hu
    case oscTick => exact .inl rfl
    case oscReset => exact .inr (.inl rfl)
    case oscRandPhase => exact .inr (.inr rfl)
    all_goals exact absurd (by simp) hne
  · exact absurd (congrArg OscRegs.phase hsame).symm hne
  · exact absurd rfl hne

/-- Settles O27: `held` is drawn by a tick that wraps and by the reset; a tick that does not wrap returns the value it
kept. -/
theorem heldChangesAtWraps : Obligations.HeldChangesAtWraps := by
  refine ⟨fun i s t j h hne => ?_, fun s j hs hw => ?_⟩
  · rcases (effect_of_exec h).at (.lfo j) with hu | hsame | ⟨v, rfl, rfl⟩
    · cases hu
      case lfoReset => exact .inl rfl
      case lfoTickWraps r hs hw hr => exact .inr ⟨rfl, by simpa [LfoRegs.wrapped] using hw⟩
      case lfoTick r hs hw hr => exact absurd (by simp [hr, LfoRegs.advance]) hne
      all_goals exact absurd (by simp) hne
    · exact absurd (congrArg LfoRegs.held hsame).symm hne
    · exact absurd rfl hne
  · rw [exec_lfoTick j hs]
    dsimp only
    split
    · rename_i hwrap
      exact ⟨_, rfl, fun h => absurd (by simpa [LfoRegs.wrapped] using hwrap) (ne_true_of_eq_false h)⟩
    · exact ⟨_, rfl, fun _ => by simp [LfoRegs.output, LfoRegs.advance, hw, lfoShape]⟩

/-- Settles O24: a lemma per register says what a change of it means. -/
theorem specialRegisterWriters : Obligations.SpecialRegisterWriters := by
  intro i s t h
  have he := effect_of_exec h
  refine ⟨fun hne => ?_, fun hne => ?_, fun ⟨j, hne⟩ => ⟨_, he.envNoteOff_of_releaseRate hne⟩, fun j hne => ?_⟩
  · by_contra hi
    push Not at hi
    obtain ⟨hsr, hv⟩ := he.sr_kept hi
    simp [hsr, hv] at hne
  · by_contra hf
    rw [Bool.not_eq_true] at hf
    obtain ⟨hcmd, hb⟩ := he.status_kept hf
    rcases hne with hne | ⟨b, hb1, hne⟩
    · exact hne hcmd
    · exact hne (hb b hb1)
  · obtain ⟨hd, x, hi⟩ := he.filtTick_of_coefficients hne
    exact ⟨hd, _, x, hi⟩

end Sys2Proof.Machine

/-! ### Legal registers, field by field (R42 to R78) -/

namespace Sys2Proof.Machine
open Fp

theorem OscRegs.legal_iff {r : OscRegs} : r.legal = true ↔
    inRange FREQ_MIN FREQ_MAX r.freq = true ∧ inRange PW_MIN PW_MAX r.pw = true ∧ isPhase r.phase = true := by
  simp [OscRegs.legal, and_assoc]

theorem EnvRegs.legal_iff {r : EnvRegs} : r.legal = true ↔
    inRange ATTACK_MIN ATTACK_MAX r.attack = true ∧ inRange DECAY_MIN DECAY_MAX r.decay = true ∧
    inRange SUSTAIN_MIN SUSTAIN_MAX r.sustain = true ∧ inRange RELEASE_MIN RELEASE_MAX r.release = true ∧
    inRange F.ZERO F.ONE r.level = true ∧ inRange VELOCITY_MIN VELOCITY_MAX r.velocity = true ∧
    le F.ZERO r.releaseRate = true ∧ (r.state ≠ .idle ∨ r.level = F.ZERO) := by
  simp [EnvRegs.legal, and_assoc]

theorem LfoRegs.legal_iff {r : LfoRegs} : r.legal = true ↔
    inRange LFO_RATE_MIN LFO_RATE_MAX r.rate = true ∧ inRange BPM_MIN BPM_MAX r.bpm = true ∧
    inRange DEPTH_MIN DEPTH_MAX r.depth = true ∧ isPhase r.phase = true ∧ isPhase r.lastPhase = true ∧
    inRange F.MINUS_ONE F.ONE r.held = true := by
  simp [LfoRegs.legal, and_assoc]

theorem FiltRegs.legal_iff {r : FiltRegs} : r.legal = true ↔
    inRange CUTOFF_MIN CUTOFF_MAX r.cutoff = true ∧ inRange RES_MIN RES_MAX r.res = true ∧
    stageLegal r.s.s0 = true ∧ stageLegal r.s.s1 = true ∧ stageLegal r.s.s2 = true ∧ stageLegal r.s.s3 = true := by
  simp [FiltRegs.legal, and_assoc]

end Sys2Proof.Machine

/-! ### The envelope's output (R263) -/

namespace Sys2Proof
open Fp

/-- A number of [0, 1]: its magnitude is at most that of 1, and only a zero has its sign bit set. -/
theorem inRange_unit_iff {x : F64} :
    inRange F.ZERO F.ONE x = true ↔ isNaN x = false ∧ mag x ≤ mag F.ONE ∧ (neg? x = true → mag x = 0) := by
  have h0 : isNaN F.ZERO = false ∧ ordKey F.ZERO = 0 := by decide +kernel
  have h1 : isNaN F.ONE = false ∧ ordKey F.ONE = mag F.ONE := by decide +kernel
  rw [inRange_iff, le_iff, le_iff, h0.1, h0.2, h1.1, h1.2]
  unfold ordKey
  cases hn : neg? x <;> simp only [if_true, Bool.false_eq_true, if_false, true_and]
  · exact ⟨fun ⟨⟨h, _⟩, _, hm⟩ => ⟨h, by omega, nofun⟩, fun ⟨h, hm, _⟩ => ⟨⟨h, by omega⟩, h, by omega⟩⟩
  · exact ⟨fun ⟨⟨h, hm⟩, _⟩ => ⟨h, by omega, fun _ => by omega⟩,
      fun ⟨h, _, hm⟩ => ⟨⟨h, by have := hm trivial; omega⟩, h, by omega⟩⟩

/-- A product of finite numbers is rounded once. -/
theorem mul_finite {x y : F64} (hx : isFinite x = true) (hy : isFinite y = true) :
    mul x y = round (neg? x != neg? y) (magValue 52 (mag x) * magValue 52 (mag y)) one64 := by
  simp [mul, isNaN_of_isFinite, isInf_of_isFinite, hx, hy]

/-- The product of two numbers of [0, 1] is one (R263): it is at most 1, and negative only where a factor is -0. -/
theorem mul_inRange_unit {x y : F64} (hx : inRange F.ZERO F.ONE x = true) (hy : inRange F.ZERO F.ONE y = true) :
    inRange F.ZERO F.ONE (mul x y) = true := by
  have hxf := (Machine.unit_facts hx).1
  have hyf := (Machine.unit_facts hy).1
  obtain ⟨-, hx1, hx0⟩ := inRange_unit_iff.1 hx
  obtain ⟨-, hy1, hy0⟩ := inRange_unit_iff.1 hy
  rw [mul_finite hxf hyf, inRange_unit_iff, mag_round, neg?_round]
  refine ⟨isNaN_round _ _ _, ?_, fun hn => ?_⟩
  · have h1 : magValue 52 (mag F.ONE) = one64 := by decide +kernel
    have := roundMag_le (fb := 52) one64_pos
      (Nat.mul_le_mul (magValue_le_iff.2 hx1) ((magValue_le_iff.2 hy1).trans h1.le))
    omega
  · have hz : mag x = 0 ∨ mag y = 0 := by
      cases h : neg? x
      · exact .inr (hy0 (by simpa [h] using hn))
      · exact .inl (hx0 h)
    rcases hz with hz | hz <;> simp [hz, one64_pos]

/-- Rounding to binary32 keeps a number in [0, 1]. -/
theorem returned_inRange_unit {x : F64} (hx : inRange F.ZERO F.ONE x = true) :
    inRange F.ZERO F.ONE (fromBinary32 (toBinary32 x)) = true := by
  obtain ⟨hN, h1, h0⟩ := inRange_unit_iff.1 hx
  have hle := mag32_toBinary32_le hN
  have mono {y : F64} (hy : isNaN y = false) (h : mag x ≤ mag y) :
      mag (fromBinary32 (toBinary32 x)) ≤ mag (fromBinary32 (toBinary32 y)) :=
    mag_fromBinary32_mono (mag32_toBinary32_le hy) (mag32_toBinary32_mono hN hy h)
  refine inRange_unit_iff.2
    ⟨isNaN_fromBinary32 hle, (mono (by decide +kernel) h1).trans (by decide +kernel), fun hn => ?_⟩
  rw [neg?_fromBinary32 (by simpa [isNaN32] using hle), neg32?_toBinary32 hN] at hn
  have := (mono (y := F.ZERO) (by decide +kernel) (h0 hn).le).trans (by decide +kernel : _ ≤ 0)
  omega

namespace Machine

theorem EnvRegs.output_inRange {r : EnvRegs} (h : r.legal = true) : inRange F.ZERO F.ONE r.output = true := by
  obtain ⟨-, -, -, -, hl, hv, -, -⟩ := EnvRegs.legal_iff.1 h
  exact mul_inRange_unit hl hv

/-- What a configured `ENV.TICK` does to envelope `j` (R257). -/
theorem exec_envTick {s : State} (j : Fin 1) (hs : s.srValid = true) :
    exec (.envTick (instIdx j)) s =
      let r := (s.envAt j).tick s.sr
      .next ((s.setEnv j r).returnsSample r.output) := by
  rw [exec, execEnvTick, onInstance_instIdx (by decide), requireSr_configured hs]

/-- Settles O58: level and velocity are numbers of [0, 1] after every step, so their product is one and rounds to
one. -/
theorem envOutputInUnit : Obligations.EnvOutputInUnit := by
  intro j s hi hs
  refine ⟨_, exec_envTick j hs, rfl, ?_⟩
  rw [State.returnsSample_res, BitVec.setWidth_setWidth_of_le _ (by decide), BitVec.setWidth_eq]
  exact returned_inRange_unit (EnvRegs.output_inRange (EnvRegs.legal_tick (hi.env j) (hi.sr hs)))

end Machine
end Sys2Proof

/-! ### The status word keeps its form (R43) -/

namespace Sys2Proof.Machine
open Fp


/-- A legal status word lies in its low byte. -/
theorem toNat_lt_of_statusLegal {w : BitVec 32} (h : statusLegal w = true) : w.toNat < 256 := by
  simp only [statusLegal, Bool.and_eq_true, decide_eq_true_eq] at h
  obtain ⟨⟨h, -⟩, -⟩ := h
  have hw : w = w &&& 0xF3#32 := by
    calc w = (w &&& 0xF3#32) ||| (w &&& 0xFFFFFF0C#32) := by
          rw [← BitVec.and_or_distrib_left]
          exact (BitVec.and_allOnes).symm
      _ = w &&& 0xF3#32 := by rw [h]; simp
  rw [hw, BitVec.toNat_and]
  exact Nat.lt_of_le_of_lt Nat.and_le_right (by decide)

/-- The writers of `STATUS` keep its form: what R400 records and what R175 sets, for each of its 256 low bytes. -/
theorem statusLegal_writes : ∀ n : Fin 256, statusLegal (BitVec.ofNat 32 n) = true →
    (∀ code ∈ [FaultCode.illegalCommand, .notConfigured, .badOperand],
      statusLegal (statusRecordFault code (BitVec.ofNat 32 n)) = true) ∧
    statusLegal (statusSetSrValid (BitVec.ofNat 32 n)) = true := by
  decide +kernel

theorem statusLegal_recordFault {w : BitVec 32} (h : statusLegal w = true) (code : FaultCode) :
    statusLegal (statusRecordFault code w) = true := by
  have := (statusLegal_writes ⟨w.toNat, toNat_lt_of_statusLegal h⟩ (by simpa using h)).1 code (by cases code <;> simp)
  simpa using this

theorem statusLegal_setSrValid {w : BitVec 32} (h : statusLegal w = true) :
    statusLegal (statusSetSrValid w) = true := by
  have := (statusLegal_writes ⟨w.toNat, toNat_lt_of_statusLegal h⟩ (by simpa using h)).2
  simpa using this

/-! ### Every command keeps its registers legal -/

theorem inRange_unit_zero : inRange F.ZERO F.ONE F.ZERO = true := by decide +kernel

theorem isPhase_zero : isPhase F.ZERO = true := by decide +kernel

section
variable {s t : State} {i : Instr}

theorem UnitEffect.osc_legal {j : Fin 3} (h : UnitEffect s (.osc j) i t) (hr : (s.oscAt j).legal = true)
    (hs : s.srValid = true → isSampleRate s.sr = true) : (t.oscAt j).legal = true := by
  obtain ⟨hf, hw, hp⟩ := OscRegs.legal_iff.1 hr
  cases h with
  | oscSetFreq _ v hv =>
    simp [OscRegs.legal_iff, hw, hp, clamp_inRange hv (by decide +kernel : le FREQ_MIN FREQ_MAX = true)]
  | oscSetWave => simp [OscRegs.legal_iff, hf, hw, hp]
  | oscSetPw _ v hv =>
    simp [OscRegs.legal_iff, hf, hp, clamp_inRange hv (by decide +kernel : le PW_MIN PW_MAX = true)]
  | oscTick _ hsr => simpa using OscRegs.legal_advance hr (hs hsr)
  | oscReset => simp [OscRegs.legal_iff, hf, hw, isPhase_zero]
  | oscRandPhase => simp [OscRegs.legal_iff, hf, hw, State.nextPhaseDraw, phaseDraw_isPhase]
  | oscGetPhase => exact hr

theorem UnitEffect.env_legal {j : Fin 1} (h : UnitEffect s (.env j) i t) (hr : (s.envAt j).legal = true)
    (hs : s.srValid = true → isSampleRate s.sr = true) : (t.envAt j).legal = true := by
  obtain ⟨ha, hd, hu, hrel, hl, hv, hrr, hi⟩ := EnvRegs.legal_iff.1 hr
  cases h with
  | envSetAttack _ v hn =>
    simp [EnvRegs.legal_iff, *, clamp_inRange hn (by decide +kernel : le ATTACK_MIN ATTACK_MAX = true)]
  | envSetDecay _ v hn =>
    simp [EnvRegs.legal_iff, *, clamp_inRange hn (by decide +kernel : le DECAY_MIN DECAY_MAX = true)]
  | envSetSustain _ v hn =>
    simp [EnvRegs.legal_iff, *, clamp_inRange hn (by decide +kernel : le SUSTAIN_MIN SUSTAIN_MAX = true)]
  | envSetRelease _ v hn =>
    simp [EnvRegs.legal_iff, *, clamp_inRange hn (by decide +kernel : le RELEASE_MIN RELEASE_MAX = true)]
  | envNoteOn _ v hn =>
    simp [EnvRegs.legal_iff, *, clamp_inRange hn (by decide +kernel : le VELOCITY_MIN VELOCITY_MAX = true)]
  | envNoteOff _ hsr => simp [EnvRegs.legal_iff, *, latchedReleaseRate_nonneg hrel hl (hs hsr)]
  | envTick _ hsr => simpa using EnvRegs.legal_tick hr (hs hsr)
  | envReset => simpa using EnvRegs.legal_of_level hr (by decide +kernel) (.inr rfl)
  | envGetState | envIsActive | envGetLevel => exact hr

theorem UnitEffect.lfo_legal {j : Fin 2} (h : UnitEffect s (.lfo j) i t) (hr : (s.lfoAt j).legal = true)
    (hs : s.srValid = true → isSampleRate s.sr = true) : (t.lfoAt j).legal = true := by
  obtain ⟨hrate, hb, hd, hp, hl, hh⟩ := LfoRegs.legal_iff.1 hr
  cases h with
  | lfoSetRate _ v hn =>
    simp [LfoRegs.legal_iff, *, clamp_inRange hn (by decide +kernel : le LFO_RATE_MIN LFO_RATE_MAX = true)]
  | lfoSetBpm _ v hn =>
    simp [LfoRegs.legal_iff, *, clamp_inRange hn (by decide +kernel : le BPM_MIN BPM_MAX = true)]
  | lfoSetDepth _ v hn =>
    simp [LfoRegs.legal_iff, *, clamp_inRange hn (by decide +kernel : le DEPTH_MIN DEPTH_MAX = true)]
  | lfoSetWave | lfoSetRateMode | lfoSetSyncDiv => simp [LfoRegs.legal_iff, *]
  | lfoTick _ hsr ha => subst ha; simpa using LfoRegs.legal_advance hr (hs hsr)
  | lfoTickWraps _ hsr ha =>
    subst ha
    obtain ⟨h1, h2, h3, h4, h5, -⟩ := LfoRegs.legal_iff.1 (LfoRegs.legal_advance hr (hs hsr))
    simp [LfoRegs.legal_iff, *, State.nextHeldDraw, heldDraw_inRange]
  | lfoPeek => exact hr
  | lfoReset => simp [LfoRegs.legal_iff, *, isPhase_zero, State.nextHeldDraw, heldDraw_inRange]

theorem UnitEffect.filt_legal {j : Fin 1} (h : UnitEffect s (.filt j) i t) (hr : (s.filtAt j).legal = true) :
    (t.filtAt j).legal = true := by
  obtain ⟨hc, hres, h0, h1, h2, h3⟩ := FiltRegs.legal_iff.1 hr
  cases h with
  | filtSetMode => simp [FiltRegs.legal_iff, *]
  | filtSetCutoff _ v hn =>
    simp [FiltRegs.legal_iff, *, clamp_inRange hn (by decide +kernel : le CUTOFF_MIN CUTOFF_MAX = true)]
  | filtSetRes _ v hn =>
    simp [FiltRegs.legal_iff, *, clamp_inRange hn (by decide +kernel : le RES_MIN RES_MAX = true)]
  | filtTick _ x _ ho =>
    subst ho
    simpa using FiltRegs.legal_sample (FiltRegs.legal_refresh hr s.sr) s.sr (fromBinary32 x)
  | filtReset => simp [FiltRegs.legal_iff, *, Stages.zero, stageLegal_zero]

/-- A filter command leaves the cache fresh or stale (R354). -/
theorem UnitEffect.filt_cacheFresh {j : Fin 1} (h : UnitEffect s (.filt j) i t)
    (hc : (s.filtAt j).cacheFresh s.sr = true) : (t.filtAt j).cacheFresh s.sr = true := by
  cases h with
  | filtSetMode | filtReset => simpa [FiltRegs.cacheFresh] using hc
  | filtSetCutoff | filtSetRes => simp [FiltRegs.cacheFresh]
  | filtTick _ x _ ho =>
    subst ho
    simpa using FiltRegs.cacheFresh_sample (FiltRegs.cacheFresh_refresh hc) (fromBinary32 x)

/-! ### The invariant (R42 to R78, R354, R401) -/

theorem UnitEffect.inv {u : RegFile} (h : UnitEffect s u i t) (hi : s.Inv) (hf : s.faulted = false) : t.Inv := by
  obtain ⟨hsr, hst, -⟩ := h.control
  have hv : t.srValid = s.srValid := congrArg statusSrValid hst
  refine ⟨hst ▸ hi.status, fun hft => ?_, hv ▸ hsr ▸ hi.sr,
    fun j => ?_, fun j => ?_, fun j => ?_, fun j => ?_, fun j => ?_⟩
  · rw [State.faulted, hst] at hft
    exact absurd (hf.symm.trans hft) Bool.false_ne_true
  · rcases eq_or_ne (RegFile.osc j) u with rfl | hj
    · exact h.osc_legal (hi.osc j) hi.sr
    · exact (h.sameAt hj : s.oscAt j = t.oscAt j) ▸ hi.osc j
  · rcases eq_or_ne (RegFile.env j) u with rfl | hj
    · exact h.env_legal (hi.env j) hi.sr
    · exact (h.sameAt hj : s.envAt j = t.envAt j) ▸ hi.env j
  · rcases eq_or_ne (RegFile.lfo j) u with rfl | hj
    · exact h.lfo_legal (hi.lfo j) hi.sr
    · exact (h.sameAt hj : s.lfoAt j = t.lfoAt j) ▸ hi.lfo j
  · rcases eq_or_ne (RegFile.filt j) u with rfl | hj
    · exact h.filt_legal (hi.filt j)
    · exact (h.sameAt hj : s.filtAt j = t.filtAt j) ▸ hi.filt j
  · rw [hsr]
    rcases eq_or_ne (RegFile.filt j) u with rfl | hj
    · exact h.filt_cacheFresh (hi.cache j)
    · exact (h.sameAt hj : s.filtAt j = t.filtAt j) ▸ hi.cache j

theorem State.noResult_inv (hi : s.Inv) : s.noResult.Inv :=
  { hi with noResult := fun _ => rfl }

theorem State.raise_inv (hi : s.Inv) (code : FaultCode) (cmd : CmdWord) : (s.raise code cmd).Inv :=
  { hi with
    status := statusLegal_recordFault hi.status code
    noResult := fun _ => rfl
    sr := fun h => hi.sr ((s.raise_srValid code cmd).symm.trans h) }

theorem State.setSr_inv (hi : s.Inv) {v : F64} (hv : isSampleRate v = true) : (s.setSr v).Inv :=
  { hi with
    status := statusLegal_setSrValid hi.status
    noResult := fun h => hi.noResult ((s.setSr_faulted v).symm.trans h)
    sr := fun _ => hv
    filt := fun j => by rw [State.setSr_filtAt]; exact hi.filt j
    cache := fun j => by simp [FiltRegs.cacheFresh] }

theorem State.inv_of_host (hi : s.Inv) (rest : List HostInput) : State.Inv { s with host := rest } :=
  { hi with }

theorem Effect.inv (h : Effect s i t) (hi : s.Inv) (hf : s.faulted = false) : t.Inv := by
  cases h with
  | missing _ => exact State.noResult_inv hi
  | fault code _ => exact State.raise_inv hi code _
  | sampleRate v _ hv => exact State.noResult_inv (State.setSr_inv hi hv)
  | unit h => exact h.inv hi hf

/-- Every command on the ports, legal or not, keeps the invariant. -/
theorem perform_inv (hi : s.Inv) (c : Command) : ∃ t, perform c s = .next t ∧ t.Inv := by
  cases hf : s.faulted
  · cases hd : decode c with
    | error e => exact ⟨_, perform_illegal hf hd, State.raise_inv hi _ _⟩
    | ok i =>
      obtain ⟨t, ht, he⟩ := exec_ends_in_effect i s
      exact ⟨t, (perform_legal hf hd).trans ht, he.inv hi hf⟩
  · exact ⟨s, perform_stuck hf c, hi⟩

end

/-! ### Power-on -/

theorem OscRegs.legal_powerOn (run i : Nat) : (OscRegs.powerOn run i).legal = true :=
  OscRegs.legal_iff.2 ⟨resetParam_inRange (by decide +kernel) _, resetParam_inRange (by decide +kernel) _, isPhase_zero⟩

theorem EnvRegs.legal_powerOn (run i : Nat) : (EnvRegs.powerOn run i).legal = true :=
  EnvRegs.legal_iff.2 ⟨resetParam_inRange (by decide +kernel) _, resetParam_inRange (by decide +kernel) _,
    resetParam_inRange (by decide +kernel) _, resetParam_inRange (by decide +kernel) _,
    inRange_unit_zero, inRange_unit_zero, (inRange_iff.1 inRange_unit_zero).1, .inr rfl⟩

theorem LfoRegs.legal_powerOn (run i draw : Nat) : (LfoRegs.powerOn run i draw).legal = true :=
  LfoRegs.legal_iff.2 ⟨resetParam_inRange (by decide +kernel) _, resetParam_inRange (by decide +kernel) _,
    resetParam_inRange (by decide +kernel) _, isPhase_zero, isPhase_zero, heldDraw_inRange draw⟩

theorem FiltRegs.legal_powerOn (run i : Nat) : (FiltRegs.powerOn run i).legal = true :=
  FiltRegs.legal_iff.2 ⟨resetParam_inRange (by decide +kernel) _, resetParam_inRange (by decide +kernel) _,
    stageLegal_zero, stageLegal_zero, stageLegal_zero, stageLegal_zero⟩

theorem State.powerOn_inv (run draws : Nat) (host : List HostInput) : (State.powerOn run draws host).Inv where
  status := (by decide : statusLegal 0 = true)
  noResult _ := rfl
  sr h := absurd h (by decide : ¬ statusSrValid 0 = true)
  osc j := match j with | 0 | 1 | 2 => OscRegs.legal_powerOn run _
  env j := match j with | 0 => EnvRegs.legal_powerOn run _
  lfo j := match j with | 0 | 1 => LfoRegs.legal_powerOn run _ _
  filt j := match j with | 0 => FiltRegs.legal_powerOn run _
  cache j := match j with | 0 => rfl

/-- Settles O11, by what the host does next: a command keeps the invariant by its effect, a power cycle starts from
it. -/
theorem stepKeepsInvariant : Obligations.StepKeepsInvariant := by
  intro s hi
  match hh : s.host with
  | [] => exact ⟨s, step_idle hh, hi⟩
  | .powerOn :: rest => exact ⟨_, step_powerOn hh, State.powerOn_inv _ _ _⟩
  | .command c :: rest => exact step_command hh ▸ perform_inv (State.inv_of_host hi rest) c

end Sys2Proof.Machine

/-! ### A command touches the register file it names (R109) -/

namespace Sys2Proof.Machine

/-- The number of register file `j` of a unit finds that file (R133). -/
theorem file_instIdx {n : Nat} (hn : n ≤ 16) (file : Fin n → RegFile) (j : Fin n) :
    (if h : (instIdx j).toNat < n then some (file ⟨(instIdx j).toNat, h⟩) else none) = some (file j) := by
  simp [toNat_instIdx hn]

theorem UnitEffect.target {s t : State} {u : RegFile} {i : Instr} (h : UnitEffect s u i t) : i.target = some u := by
  cases h <;> exact file_instIdx (by decide) _ _

/-- Settles O20: a command that completes is to the register file it names, and of the other outcomes only `SYS.SETSR`'s
writes to a register file. -/
theorem otherInstancesUnchanged : Obligations.OtherInstancesUnchanged := by
  refine ⟨fun i s t u h hu hi => ?_, fun idx v s t h => ?_⟩
  · rcases (effect_of_exec h).at u with hunit | hsame | ⟨v, hsys, -⟩
    · exact absurd hunit.target hu
    · exact hsame
    · exact absurd hsys (hi _ v)
  · cases effect_of_exec h with
    | missing _ | fault _ _ => exact ⟨rfl, rfl, rfl, .inl rfl⟩
    | sampleRate v' _ _ => exact ⟨rfl, rfl, rfl, .inr rfl⟩
    | unit hunit => cases hunit

end Sys2Proof.Machine

/-! ### The coefficient cache cannot be observed (R113, R354)

Every command runs in a state whose caches are fresh or stale as it does with all caches cleared: only `FILT.TICK` reads
a cache, and a stale one it computes again. -/

namespace Sys2Proof.Machine

def FiltRegs.cacheCleared (r : FiltRegs) : FiltRegs := { r with g := F.ZERO, k := F.ZERO, dirty := true }

/-- A fresh cache holds what the refresh would compute (R354, R356). -/
theorem FiltRegs.refresh_cacheCleared {r : FiltRegs} {sr : F64} (h : r.cacheFresh sr = true) :
    r.cacheCleared.refresh sr = r.refresh sr := by
  cases hd : r.dirty
  · simp only [FiltRegs.cacheFresh, hd, Bool.false_or, Bool.and_eq_true, decide_eq_true_eq] at h
    obtain ⟨hg, hk⟩ := h
    calc r.cacheCleared.refresh sr
      _ = { r with g := filtG r.cutoff sr, k := filtK r.res, dirty := false } := rfl
      _ = r := by rw [← hg, ← hk, ← hd]
      _ = r.refresh sr := (r.refresh_clean hd sr).symm
  · simp [FiltRegs.refresh, FiltRegs.cacheCleared, hd]

section
variable (s : State)

/-! The clearing commutes with every named operation on the state, and leaves what they read. -/

@[simp] theorem State.cacheCleared_cacheCleared : s.cacheCleared.cacheCleared = s.cacheCleared := by
  simp [State.cacheCleared]

@[simp] theorem State.cacheCleared_sr : s.cacheCleared.sr = s.sr := rfl
@[simp] theorem State.cacheCleared_res : s.cacheCleared.res = s.res := rfl
@[simp] theorem State.cacheCleared_resValid : s.cacheCleared.resValid = s.resValid := rfl
@[simp] theorem State.cacheCleared_faulted : s.cacheCleared.faulted = s.faulted := rfl
@[simp] theorem State.cacheCleared_srValid : s.cacheCleared.srValid = s.srValid := rfl
@[simp] theorem State.cacheCleared_nextPhaseDraw : s.cacheCleared.nextPhaseDraw = s.nextPhaseDraw := rfl
@[simp] theorem State.cacheCleared_nextHeldDraw : s.cacheCleared.nextHeldDraw = s.nextHeldDraw := rfl
@[simp] theorem State.cacheCleared_oscAt (j : Fin 3) : s.cacheCleared.oscAt j = s.oscAt j := rfl
@[simp] theorem State.cacheCleared_envAt (j : Fin 1) : s.cacheCleared.envAt j = s.envAt j := rfl
@[simp] theorem State.cacheCleared_lfoAt (j : Fin 2) : s.cacheCleared.lfoAt j = s.lfoAt j := rfl
@[simp] theorem State.cacheCleared_filtAt (j : Fin 1) : s.cacheCleared.filtAt j = (s.filtAt j).cacheCleared := by
  simp [State.cacheCleared, State.filtAt, FiltRegs.cacheCleared]

@[simp] theorem State.noResult_cacheCleared : s.noResult.cacheCleared = s.cacheCleared.noResult := rfl
@[simp] theorem State.returns_cacheCleared (v : BitVec 64) :
    (s.returns v).cacheCleared = s.cacheCleared.returns v := rfl
@[simp] theorem State.returnsSample_cacheCleared (y : F64) :
    (s.returnsSample y).cacheCleared = s.cacheCleared.returnsSample y := rfl
@[simp] theorem State.raise_cacheCleared (code : FaultCode) (cmd : CmdWord) :
    (s.raise code cmd).cacheCleared = s.cacheCleared.raise code cmd := rfl
@[simp] theorem State.drawn_cacheCleared : s.drawn.cacheCleared = s.cacheCleared.drawn := rfl
@[simp] theorem State.setOsc_cacheCleared (j : Fin 3) (r : OscRegs) :
    (s.setOsc j r).cacheCleared = s.cacheCleared.setOsc j r := rfl
@[simp] theorem State.setEnv_cacheCleared (j : Fin 1) (r : EnvRegs) :
    (s.setEnv j r).cacheCleared = s.cacheCleared.setEnv j r := rfl
@[simp] theorem State.setLfo_cacheCleared (j : Fin 2) (r : LfoRegs) :
    (s.setLfo j r).cacheCleared = s.cacheCleared.setLfo j r := rfl
@[simp] theorem State.setFilt_cacheCleared (j : Fin 1) (r : FiltRegs) :
    (s.setFilt j r).cacheCleared = s.cacheCleared.setFilt j r.cacheCleared := by
  simp [State.cacheCleared, State.setFilt, FiltRegs.cacheCleared, Vector.map_set]
@[simp] theorem State.setSr_cacheCleared (v : F64) : (s.setSr v).cacheCleared = s.cacheCleared.setSr v := by
  simp [State.cacheCleared, State.setSr]
@[simp] theorem State.stale_cacheCleared : s.stale.cacheCleared = s.cacheCleared := by
  simp [State.cacheCleared, State.stale]

end

/-! ### Every command but for the caches -/

/-- An outcome with every cache of its state cleared. -/
def clearCaches : Result → Result
  | .next t => .next t.cacheCleared
  | .fault r => .fault r
  | .refused r => .refused r

section
variable {s : State}

@[simp] theorem clearCaches_next (t : State) : clearCaches (.next t) = .next t.cacheCleared := rfl

@[simp] theorem clearCaches_ite (p : Prop) [Decidable p] (a b : Result) :
    clearCaches (if p then a else b) = if p then clearCaches a else clearCaches b := apply_ite _ _ _ _

@[simp] theorem clearCaches_raiseFault (code : FaultCode) (cmd : CmdWord) :
    clearCaches (raiseFault code cmd s) = raiseFault code cmd s.cacheCleared := rfl

@[simp] theorem clearCaches_onInstance (n : Nat) (idx : BitVec 4) (rest : Fin n → Result) :
    clearCaches (onInstance n idx s rest) = onInstance n idx s.cacheCleared fun j => clearCaches (rest j) := by
  unfold onInstance; split <;> rfl

@[simp] theorem clearCaches_numberOperand (cmd : CmdWord) (v : F64) (rest : Result) :
    clearCaches (numberOperand cmd v s rest) = numberOperand cmd v s.cacheCleared (clearCaches rest) := by
  unfold numberOperand; split <;> rfl

@[simp] theorem clearCaches_requireSr (cmd : CmdWord) (rest : Result) :
    clearCaches (requireSr cmd s rest) = requireSr cmd s.cacheCleared (clearCaches rest) := by
  unfold requireSr; rw [State.cacheCleared_srValid]; split <;> rfl

@[simp] theorem clearCaches_selOperand {α : Type} (cmd : CmdWord) (meaning : Option α) (rest : α → Result) :
    clearCaches (selOperand cmd meaning s rest) =
      selOperand cmd meaning s.cacheCleared fun a => clearCaches (rest a) := by
  cases meaning <;> rfl

/-- Clearing the caches before a command changes its outcome by the caches alone. The commands other than `FILT.TICK` read
no cache; the tick reads a refreshed one. -/
theorem clearCaches_exec (hc : ∀ j, (s.filtAt j).cacheFresh s.sr = true) (i : Instr) :
    clearCaches (exec i s.cacheCleared) = clearCaches (exec i s) := by
  cases i
  case sysSetSr => simp [exec, execSysSetSr]
  case oscSetFreq | oscSetWave | oscSetPw | oscTick | oscReset | oscRandPhase | oscGetPhase =>
    simp [exec, execOscSetFreq, execOscSetWave, execOscSetPw, execOscTick, execOscReset, execOscRandPhase,
      execOscGetPhase]
  case envSetAttack | envSetDecay | envSetSustain | envSetRelease | envNoteOn | envNoteOff | envTick | envReset |
      envGetState | envGetLevel =>
    simp [exec, execEnvSetAttack, execEnvSetDecay, execEnvSetSustain, execEnvSetRelease, execEnvNoteOn, execEnvNoteOff,
      execEnvTick, execEnvReset, execEnvGetState, execEnvGetLevel]
  case envIsActive => simp [exec, execEnvIsActive]; rfl
  case lfoSetWave | lfoSetRate | lfoSetRateMode | lfoSetSyncDiv | lfoSetBpm | lfoSetDepth | lfoPeek | lfoReset =>
    simp [exec, execLfoSetWave, execLfoSetRate, execLfoSetRateMode, execLfoSetSyncDiv, execLfoSetBpm, execLfoSetDepth,
      execLfoPeek, execLfoReset]
  case lfoTick =>
    simp only [exec, execLfoTick, clearCaches_onInstance, clearCaches_requireSr, clearCaches_ite]
    simp
  case filtSetMode | filtSetCutoff | filtSetRes | filtReset =>
    simp [exec, execFiltSetMode, execFiltSetCutoff, execFiltSetRes, execFiltReset, FiltRegs.cacheCleared]
  case filtTick => simp [exec, execFiltTick, FiltRegs.refresh_cacheCleared (hc _)]

theorem clearCaches_perform (hc : ∀ j, (s.filtAt j).cacheFresh s.sr = true) (c : Command) :
    clearCaches (perform c s.cacheCleared) = clearCaches (perform c s) := by
  cases hf : s.faulted
  · cases hd : decode c with
    | error e => simp [perform_illegal, hf, hd]
    | ok i => rw [perform_legal hf hd, perform_legal (s.cacheCleared_faulted.trans hf) hd, clearCaches_exec hc]
  · simp [perform_stuck, hf]

/-- Two states that meet the invariant and differ in the caches alone do so after every command. -/
theorem perform_sameButCache {s' : State} (hi : s.Inv) (hi' : s'.Inv) (h : State.sameButCache s s') (c : Command) :
    ∃ t t', perform c s = .next t ∧ perform c s' = .next t' ∧ t.Inv ∧ t'.Inv ∧ State.sameButCache t t' := by
  obtain ⟨t, ht, hti⟩ := perform_inv hi c
  obtain ⟨t', ht', hti'⟩ := perform_inv hi' c
  refine ⟨t, t', ht, ht', hti, hti', next_inj ?_⟩
  calc clearCaches (.next t')
    _ = clearCaches (perform c s'.cacheCleared) := by rw [clearCaches_perform hi'.cache, ht']
    _ = clearCaches (perform c s.cacheCleared) := by rw [h]
    _ = clearCaches (.next t) := by rw [clearCaches_perform hi.cache, ht]

/-- What does not read the caches is the same in states that differ in them alone. -/
theorem State.sameButCache.read_eq {α : Type} {f : State → α} {s s' : State} (h : State.sameButCache s s')
    (hf : ∀ s, f s.cacheCleared = f s) : f s = f s' :=
  (hf s).symm.trans ((congrArg f h).trans (hf s'))

/-- A command that ends in a next state leaves the rest of the list to it (R13). -/
theorem runCommands_cons {c : Command} {t : State} (h : perform c s = .next t) (cs : List Command) :
    runCommands (c :: cs) s =
      ((if t.resValid && !s.faulted then [t.res] else []) ++ (runCommands cs t).1, (runCommands cs t).2) := by
  simp [runCommands, h]

/-- Of two states that differ in the caches alone, every list of commands gives the same results and leaves two such. -/
theorem runCommands_sameButCache {s' : State} (cs : List Command) (hi : s.Inv) (hi' : s'.Inv)
    (h : State.sameButCache s s') :
    (runCommands cs s).1 = (runCommands cs s').1 ∧ State.sameButCache (runCommands cs s).2 (runCommands cs s').2 := by
  induction cs generalizing s s' with
  | nil => exact ⟨rfl, h⟩
  | cons c cs ih =>
    obtain ⟨t, t', ht, ht', hti, hti', hs⟩ := perform_sameButCache hi hi' h c
    obtain ⟨hres, hend⟩ := ih hti hti' hs
    have hf := h.read_eq State.cacheCleared_faulted
    have hv := hs.read_eq State.cacheCleared_resValid
    have hr := hs.read_eq State.cacheCleared_res
    rw [runCommands_cons ht, runCommands_cons ht', hf, hv, hr, hres]
    exact ⟨rfl, hend⟩

theorem State.stale_filtAt (s : State) (j : Fin 1) : s.stale.filtAt j = { s.filtAt j with dirty := true } := by
  simp [State.stale, State.filtAt]

theorem State.stale_inv (hi : s.Inv) : s.stale.Inv :=
  { hi with
    filt := fun j => by rw [State.stale_filtAt]; exact hi.filt j
    cache := fun j => by rw [State.stale_filtAt]; rfl }

theorem FiltRegs.sample_dirty (r : FiltRegs) (sr x : F64) : (r.sample sr x).1.dirty = r.dirty := by
  rw [FiltRegs.sample_fst]

theorem FiltRegs.refresh_dirty (r : FiltRegs) (sr : F64) : (r.refresh sr).dirty = false := by
  unfold FiltRegs.refresh
  split
  · rfl
  · rename_i h; simpa using h

end

/-- A state with a fresh cache meets the invariant too, so that `CacheInvisible` compares two different states: after
power-on and `SYS.SETSR`, `FILT.TICK` leaves one. -/
theorem exists_inv_stale_ne : ∃ s : State, s.Inv ∧ s.stale ≠ s := by
  have hi := State.setSr_inv (State.powerOn_inv 0 0 []) (by decide +kernel : isSampleRate SR_MIN = true)
  have ht := UnitEffect.filtTick (0 : Fin 1) 0 (State.setSr_srValid (State.powerOn 0 0 []) SR_MIN) rfl
  refine ⟨_, ht.inv hi (State.setSr_faulted _ _), fun h => ?_⟩
  have hd := congrArg (fun s => (s.filtAt 0).dirty) h
  simp [State.stale_filtAt, FiltRegs.sample_dirty, FiltRegs.refresh_dirty] at hd

/-- Settles O22: marking the caches stale keeps the invariant and changes the caches alone, and so no list of commands
tells the two states apart. -/
theorem cacheInvisible : Obligations.CacheInvisible := by
  intro cs s hi
  exact runCommands_sameButCache cs hi (State.stale_inv hi) s.stale_cacheCleared.symm

end Sys2Proof.Machine

/-! ### The decoder, row by row (R130 to R142) -/

namespace Sys2Proof
open Machine

/-- What a word with 0 in its reserved bits stands for, from its fields. -/
def decodeFields (u o : Nat) (idx sel : BitVec 4) (opd : BitVec 64) : Except Illegal Instr :=
  match u with
  | 0 => decodeSys o idx sel opd
  | 1 => decodeOsc o idx sel opd
  | 2 => decodeEnv o idx sel opd
  | 3 => decodeLfo o idx sel opd
  | 4 => decodeFilt o idx sel opd
  | _ => .error .reservedUnit

theorem decode_eq_decodeFields {c : Command} (h : reservedOf c.cmd = 0) :
    decode c = decodeFields (unitOf c.cmd) (opOf c.cmd) (idxOf c.cmd) (selOf c.cmd) c.opd :=
  if_neg (not_not.2 h)

theorem decode_reservedBits {c : Command} (h : reservedOf c.cmd ≠ 0) : decode c = .error .reservedBits :=
  if_pos h

theorem decode_cmdWordOf {u o : Nat} (hu : u < 16) (ho : o < 16) (idx sel : BitVec 4) (opd : BitVec 64) :
    decode ⟨cmdWordOf u o idx sel, opd⟩ = decodeFields u o idx sel opd := by
  rw [decode_eq_decodeFields (reservedOf_cmdWordOf hu ho idx sel), unitOf_cmdWordOf hu ho, opOf_cmdWordOf hu ho,
    idxOf_cmdWordOf hu ho, selOf_cmdWordOf hu ho]

theorem takesNoSel_zero (i : Instr) : takesNoSel 0 i = .ok i := if_pos rfl

theorem takesSel_legal {n : Nat} {sel : BitVec 4} (h : decide (sel.toNat ≤ n) = true) (i : Instr) :
    takesSel n sel i = .ok i := if_pos (of_decide_eq_true h)

/-- Settles O1: each command's word is made of its fields, which select its own row of the decoder; the row reads `SEL`
and the operand back. -/
theorem decodeOfEncode : Obligations.DecodeOfEncode := by
  intro i hw
  have row {u o : Nat} (hu : u < 16) (ho : o < 16) (idx sel : BitVec 4) (opd : BitVec 64)
      (h : decodeFields u o idx sel opd = .ok i) : decode ⟨cmdWordOf u o idx sel, opd⟩ = .ok i :=
    (decode_cmdWordOf hu ho idx sel opd).trans h
  cases i
  case oscSetWave | lfoSetWave | lfoSetRateMode | lfoSetSyncDiv | filtSetMode =>
    exact row (by decide) (by decide) _ _ _ (takesSel_legal hw _)
  case filtTick idx x =>
    refine row (by decide) (by decide) _ _ _ ((takesNoSel_zero _).trans ?_)
    rw [Instr.operand, BitVec.setWidth_setWidth_of_le _ (by decide), BitVec.setWidth_eq]
  all_goals exact row (by decide) (by decide) _ _ _ (takesNoSel_zero _)

/-- A pair `(UNIT, OP)` that R132 gives no command. -/
def reservedPair (u o : Nat) : Bool :=
  decide (5 ≤ u ∨ (u = 0 ∧ o = 0) ∨ (u = 0 ∧ 2 ≤ o) ∨ (u = 1 ∧ 7 ≤ o) ∨ (u = 2 ∧ 11 ≤ o) ∨ (u = 3 ∧ 9 ≤ o) ∨
    (u = 4 ∧ 5 ≤ o))

/-- `Row u o idx sel r`: the three kinds of row the decoder has, each with its answer `r` for the fields. A row that is not
reserved has one command, whose word is made of the same fields. -/
inductive Row (u o : Nat) (idx sel : BitVec 4) : Except Illegal Instr → Prop
  | reserved (e : Illegal) (hr : reservedPair u o = true) : Row u o idx sel (.error e)
  | noSel {i : Instr} (hr : reservedPair u o = false) (hm : selMaxOf u o = none) (hw : i.WellFormed = true)
      (hc : i.cmdWord = cmdWordOf u o idx 0) : Row u o idx sel (takesNoSel sel i)
  | takesSel {i : Instr} {m : Nat} (hr : reservedPair u o = false) (hm : selMaxOf u o = some m)
      (hw : sel.toNat ≤ m → i.WellFormed = true) (hc : i.cmdWord = cmdWordOf u o idx sel) :
      Row u o idx sel (takesSel m sel i)

section
variable (o : Nat) (idx sel : BitVec 4) (opd : BitVec 64)

theorem decodeSys_row : Row 0 o idx sel (decodeSys o idx sel opd) :=
  match o with
  | 1 => .noSel rfl rfl rfl rfl
  | 0 => .reserved _ rfl
  | o + 2 => .reserved _ (by simp [reservedPair])

theorem decodeOsc_row : Row 1 o idx sel (decodeOsc o idx sel opd) :=
  match o with
  | 1 => .takesSel rfl rfl decide_eq_true rfl
  | 0 | 2 | 3 | 4 | 5 | 6 => .noSel rfl rfl rfl rfl
  | o + 7 => .reserved _ (by simp [reservedPair])

theorem decodeEnv_row : Row 2 o idx sel (decodeEnv o idx sel opd) :=
  match o with
  | 0 | 1 | 2 | 3 | 4 | 5 | 6 | 7 | 8 | 9 | 10 => .noSel rfl rfl rfl rfl
  | o + 11 => .reserved _ (by simp [reservedPair])

theorem decodeLfo_row : Row 3 o idx sel (decodeLfo o idx sel opd) :=
  match o with
  | 0 | 2 | 3 => .takesSel rfl rfl decide_eq_true rfl
  | 1 | 4 | 5 | 6 | 7 | 8 => .noSel rfl rfl rfl rfl
  | o + 9 => .reserved _ (by simp [reservedPair])

theorem decodeFilt_row : Row 4 o idx sel (decodeFilt o idx sel opd) :=
  match o with
  | 0 => .takesSel rfl rfl decide_eq_true rfl
  | 1 | 2 | 3 | 4 => .noSel rfl rfl rfl rfl
  | o + 5 => .reserved _ (by simp [reservedPair])

theorem decodeFields_row (u : Nat) : Row u o idx sel (decodeFields u o idx sel opd) :=
  match u with
  | 0 => decodeSys_row o idx sel opd
  | 1 => decodeOsc_row o idx sel opd
  | 2 => decodeEnv_row o idx sel opd
  | 3 => decodeLfo_row o idx sel opd
  | 4 => decodeFilt_row o idx sel opd
  | u + 5 => .reserved _ (by simp [reservedPair])

end

/-- A row that answers a command answers a well-formed one, with its word. -/
theorem Row.of_ok {u o : Nat} {idx sel : BitVec 4} {r : Except Illegal Instr} {i : Instr} (h : Row u o idx sel r)
    (hi : r = .ok i) : i.WellFormed = true ∧ i.cmdWord = cmdWordOf u o idx sel := by
  cases h with
  | reserved => cases hi
  | noSel _ _ hw hc =>
    obtain ⟨rfl, rfl⟩ := takesNoSel_ok hi
    exact ⟨hw, hc⟩
  | takesSel _ _ hw hc =>
    obtain ⟨hs, rfl⟩ := takesSel_ok hi
    exact ⟨hw hs, hc⟩

/-- A word that decodes is the word of the well-formed command it stands for (R130, R135). -/
theorem wellFormed_of_decode {c : Command} {i : Instr} (h : decode c = .ok i) :
    i.WellFormed = true ∧ i.cmdWord = c.cmd := by
  have hr : reservedOf c.cmd = 0 := by
    by_contra hr
    rw [decode_reservedBits hr] at h
    cases h
  obtain ⟨hw, hc⟩ := (decodeFields_row ..).of_ok ((decode_eq_decodeFields hr).symm.trans h)
  exact ⟨hw, hc.trans (cmdWordOf_fields hr)⟩

/-- Settles O2: the row that answers has the command's own fields, and a well-formed command decodes from its encoding
by O1. -/
theorem decodedIsWellFormed : Obligations.DecodedIsWellFormed := by
  intro c i h
  obtain ⟨hw, hc⟩ := wellFormed_of_decode h
  exact ⟨hw, hc, decodeOfEncode i hw⟩

/-! ### The illegal words (R142) -/

theorem exists_takesNoSel_error {sel : BitVec 4} {i : Instr} : (∃ e, takesNoSel sel i = .error e) ↔ sel ≠ 0 := by
  by_cases h : sel = 0
  · simp [takesNoSel, h]
  · exact iff_of_true ⟨_, if_neg h⟩ h

theorem exists_takesSel_error {m : Nat} {sel : BitVec 4} {i : Instr} :
    (∃ e, takesSel m sel i = .error e) ↔ m < sel.toNat := by
  by_cases h : sel.toNat ≤ m
  · simp [takesSel, h]
  · exact iff_of_true ⟨_, if_neg h⟩ (Nat.lt_of_not_le h)

/-- A row refuses fields as R142 says: it is reserved, or its `SEL` is not taken or out of range. -/
theorem Row.error_iff {u o : Nat} {idx sel : BitVec 4} {r : Except Illegal Instr} (h : Row u o idx sel r) :
    (∃ e, r = .error e) ↔ reservedPair u o = true ∨ (selMaxOf u o = none ∧ sel ≠ 0) ∨
      ∃ m, selMaxOf u o = some m ∧ m < sel.toNat := by
  cases h with
  | reserved e hr => simp [hr]
  | noSel hr hm => simp [exists_takesNoSel_error, hr, hm]
  | takesSel hr hm => simp [exists_takesSel_error, hr, hm]

theorem toNat_extract_unit (w : CmdWord) : (w.extractLsb' 28 4).toNat = unitOf w := by
  have := w.isLt
  rw [BitVec.extractLsb'_toNat, Nat.shiftRight_eq_div_pow, unitOf]; omega

theorem toNat_extract_op (w : CmdWord) : (w.extractLsb' 24 4).toNat = opOf w := by
  rw [BitVec.extractLsb'_toNat, Nat.shiftRight_eq_div_pow, opOf]

theorem toNat_extract_sel (w : CmdWord) : (w.extractLsb' 0 4).toNat = (selOf w).toNat := by
  rw [BitVec.extractLsb'_toNat, Nat.shiftRight_zero, selOf, BitVec.toNat_ofNat]

theorem extract_reserved_ne_zero (w : CmdWord) : w.extractLsb' 4 16 ≠ 0 ↔ reservedOf w ≠ 0 := by
  rw [Ne, ← BitVec.toNat_inj, BitVec.extractLsb'_toNat, Nat.shiftRight_eq_div_pow]; rfl

/-- R142's list, in the fields the decoder reads. -/
theorem listedIllegal_iff (w : CmdWord) :
    listedIllegal w ↔ reservedPair (unitOf w) (opOf w) = true ∨ reservedOf w ≠ 0 ∨
      (selMaxOf (unitOf w) (opOf w) = none ∧ selOf w ≠ 0) ∨
      ∃ m, selMaxOf (unitOf w) (opOf w) = some m ∧ m < (selOf w).toNat := by
  have hsel : (selOf w).toNat ≠ 0 ↔ selOf w ≠ 0 := by rw [Ne, Ne, ← BitVec.toNat_inj]; rfl
  simp only [listedIllegal, toNat_extract_unit, toNat_extract_op, toNat_extract_sel, extract_reserved_ne_zero, hsel,
    reservedPair, decide_eq_true_eq, or_assoc]

/-- A word is illegal exactly when R142 lists it. -/
theorem decode_error_iff (c : Command) : (∃ e, decode c = .error e) ↔ listedIllegal c.cmd := by
  rw [listedIllegal_iff]
  by_cases hr : reservedOf c.cmd = 0
  · rw [decode_eq_decodeFields hr, (decodeFields_row ..).error_iff]
    simp [hr]
  · simp [decode_reservedBits hr, hr]

/-- Settles O3: a word the list names does not decode, so performing it records the fault. -/
theorem illegalEncodings : Obligations.IllegalEncodings := by
  refine ⟨decode_error_iff, fun c s hl hf => ?_, .inr (.inl ⟨rfl, rfl⟩)⟩
  obtain ⟨e, he⟩ := (decode_error_iff c).2 hl
  exact perform_illegal hf he

end Sys2Proof

/-! ### The decode order (R136, R137) -/

namespace Sys2Proof.Machine

section
variable {s t : State} {i : Instr} {u : RegFile}

/-- A `SEL` in range leaves a missing `IDX` to decide the outcome; `b` is the check of the range. -/
theorem selOperand_missing {α : Type} {meaning : Option α} {b : Bool} (hb : b = true) (h : meaning = none → b = false)
    {n : Nat} {idx : BitVec 4} (hm : n ≤ idx.toNat) (cmd : CmdWord) (rest : α → Fin n → Result) :
    selOperand cmd meaning s (fun a => onInstance n idx s (rest a)) = .next s.noResult := by
  cases meaning with
  | none => exact absurd hb (ne_true_of_eq_false (h rfl))
  | some a => exact onInstance_missing hm (rest a)

/-- A well-formed command to a missing `IDX` is the silent no-op (R136). -/
theorem exec_missing (hw : i.WellFormed = true) (hp : i.present = false) (s : State) : exec i s = .next s.noResult := by
  have hm : i.instances ≤ i.idx.toNat := Nat.not_lt.1 (of_decide_eq_false hp)
  unfold exec
  cases i
  case oscSetWave => exact selOperand_missing hw oscWaveOfSel_none hm _ _
  case lfoSetWave => exact selOperand_missing hw lfoWaveOfSel_none hm _ _
  case lfoSetRateMode => exact selOperand_missing hw rateModeOfSel_none hm _ _
  case lfoSetSyncDiv => exact selOperand_missing hw syncDivOfSel_none hm _ _
  case filtSetMode => exact selOperand_missing hw filtModeOfSel_none hm _ _
  all_goals exact onInstance_missing hm _

/-- A command that completes was given no operand to refuse. -/
theorem UnitEffect.accepted (h : UnitEffect s u i t) : i.badOperand = false := by
  cases h
  case oscSetFreq hv | oscSetPw hv | envSetAttack hv | envSetDecay hv | envSetSustain hv | envSetRelease hv |
      envNoteOn hv | lfoSetRate hv | lfoSetBpm hv | lfoSetDepth hv | filtSetCutoff hv | filtSetRes hv => exact hv
  all_goals rfl

/-- No command that reads `SR` has an operand to refuse. -/
theorem accepts_of_needsSr (h : i.needsSr = true) : i.badOperand = false := by
  cases i
  case oscTick | envNoteOff | envTick | lfoTick | filtTick => rfl
  all_goals exact absurd h Bool.false_ne_true

/-- A refused operand of a command to an `IDX` that is present is the fault BAD_OPERAND (R404). -/
theorem exec_badOperand (hw : i.WellFormed = true) (hp : i.present = true) (hb : i.badOperand = true) (s : State) :
    exec i s = .next (s.raise .badOperand i.cmdWord) := by
  obtain ⟨t, ht, he⟩ := exec_ends_in_effect i s
  rw [ht]
  cases he with
  | missing h => simp [hp] at h
  | fault code h =>
    cases code with
    | illegalCommand => simp [FaultsWith, hw] at h
    | badOperand => rfl
    | notConfigured => simp [accepts_of_needsSr h.1] at hb
  | sampleRate v hi hv => simp [hi, Instr.badOperand, hv] at hb
  | unit h => simp [h.accepted] at hb

/-- A command to an `IDX` that is present faults with NOT_CONFIGURED if it needs `SR` and `SR` is not valid (R403). -/
theorem exec_notConfigured (hw : i.WellFormed = true) (hp : i.present = true) (hn : i.needsSr = true)
    (hs : s.srValid = false) : exec i s = .next (s.raise .notConfigured i.cmdWord) := by
  obtain ⟨t, ht, he⟩ := exec_ends_in_effect i s
  rw [ht]
  cases he with
  | missing h => simp [hp] at h
  | fault code h =>
    cases code with
    | illegalCommand => simp [FaultsWith, hw] at h
    | badOperand => simp [FaultsWith, accepts_of_needsSr hn] at h
    | notConfigured => rfl
  | sampleRate v hi hv => simp [hi, Instr.needsSr] at hn
  | unit h => simpa [hn, hs] using h.configured

end

/-- Settles O15: `IDX` is looked up before the operand and `SR`, and names nothing. -/
theorem silentNoOp : Obligations.SilentNoOp :=
  fun _ s hw hp => exec_missing hw hp s

/-- Settles O14, check by check: what decodes is well-formed and has the word on the port, so the three checks of a
command's own rule come out in R137's order. -/
theorem decodeOrder : Obligations.DecodeOrder := by
  intro c s
  cases hf : s.faulted
  case true => exact perform_stuck hf c
  cases hd : decode c with
  | error e => exact perform_illegal hf hd
  | ok i =>
    obtain ⟨hw, hc⟩ := wellFormed_of_decode hd
    rw [perform_legal hf hd, if_neg Bool.false_ne_true, ← hc]
    dsimp only
    split_ifs with hp hb hn
    · exact exec_missing hw hp s
    · exact exec_badOperand hw (by simpa using hp) hb s
    · simp only [Bool.and_eq_true, Bool.not_eq_true'] at hn
      exact exec_notConfigured hw (by simpa using hp) hn.1 hn.2
    · rfl

end Sys2Proof.Machine

/-! ### Numbers at the edge of a phase (R174, R179, R206) -/

namespace Sys2Proof.Fp

/-- A value's remainder by a power of two is a value of the same format: it keeps only the low bits of the fraction. -/
theorem exists_code_mod_two_pow (fb m j : Nat) : ∃ m', magValue fb m' = magValue fb m % 2 ^ j := by
  rcases code_cases fb m with h | ⟨e, f, hf, rfl⟩
  · rw [magValue_of_field_zero h]
    exact ⟨m % 2 ^ j, magValue_of_field_zero ((Nat.mod_le _ _).trans_lt h)⟩
  · rw [magValue_of_field hf]
    rcases Nat.le_total j e with hje | hej
    · exact ⟨0, by rw [magValue_zero, Nat.mod_eq_zero_of_dvd (Dvd.dvd.mul_left (pow_dvd_pow 2 hje) _)]⟩
    · obtain ⟨d, rfl⟩ := Nat.exists_eq_add_of_le' hej
      rw [pow_add, Nat.mul_mod_mul_right]
      refine exists_code fb _ e ((Nat.mod_le _ _).trans_lt ?_)
      rw [pow_succ]; omega

theorem value_pack {m : Nat} (h : m < 2 ^ 63) : value (pack false m) = magValue 52 m := by
  simp [value, neg?_pack h, mag_pack h]

/-- A sum of finite numbers that is itself a finite number of at least 0 is exact. -/
theorem value_add_exact {x y : F64} {m : Nat} (hx : isFinite x = true) (hy : isFinite y = true) (hm : m < infMag)
    (h : value x + value y = magValue 52 m) : value (add x y) = magValue 52 m := by
  rw [add_finite hx hy, h]
  split
  · rename_i h0
    simp [value, mag_pack, h0]
  · have hr := round_exact false hm.le one_pos
    rw [Nat.mul_one] at hr
    rw [decide_eq_false (Int.natCast_nonneg _).not_gt, Int.natAbs_natCast, hr, value_pack (hm.trans infMag_lt)]

end Sys2Proof.Fp

namespace Sys2Proof
open Fp

/-- What `wrap` subtracts from a number of at least 1 leaves the value modulo 1. -/
theorem value_sub_floor {p : F64} (hf : isFinite p = true) (h1 : le F.ONE p = true) :
    value p + value (negate (floor p)) = (magValue 52 (mag p) % one64 : Nat) := by
  obtain ⟨-, hfn, hfv⟩ := floor_of_one_le hf h1
  have hp : nonneg p = true := nonneg_of_pos_le (by rw [ordKey_one]; norm_num) h1
  rw [value_negate, value_of_nonneg hp]
  simp only [value, hfn, hfv, Bool.false_eq_true, if_false]
  have := Nat.div_add_mod' (magValue 52 (mag p)) one64
  omega

/-- R174: `wrap` keeps exactly the fractional part. At 1 and above the difference `p - floor(p)` is a number of
binary64, so it is not rounded; below 1 the value is its own fractional part. -/
theorem value_wrap {p : F64} (hf : isFinite p = true) (h0 : le F.ZERO p = true) :
    value (wrap p) = value p % one64 := by
  unfold wrap
  split
  case isTrue h1 =>
    have hp : nonneg p = true := nonneg_of_pos_le (by rw [ordKey_one]; norm_num) h1
    obtain ⟨m, hm⟩ := exists_code_mod_two_pow 52 (mag p) 1074
    rw [← one64_eq] at hm
    have hmp : m ≤ mag p := magValue_le_iff.1 (hm.trans_le (Nat.mod_le _ _))
    have hfin : isFinite (negate (floor p)) = true := by simpa using (floor_of_one_le hf h1).1
    have hlt : m < infMag := hmp.trans_lt (of_decide_eq_true hf)
    rw [sub, value_add_exact hf hfin hlt (by rw [value_sub_floor hf h1, hm]), hm, value_of_nonneg hp]
    exact Int.natCast_emod _ _
  case isFalse h1 =>
    have hlt : lt p F.ONE = true := lt_of_not_le (by decide +kernel) (isNaN_of_isFinite hf) (by simpa using h1)
    have hge := ordKey_le_iff.1 (le_iff.1 h0).2.2
    have hlt' : value p < one64 := by
      rw [← value_one]
      exact Int.not_le.1 fun h => (lt_iff.1 hlt).2.2.not_ge (ordKey_le_iff.2 h)
    exact (Int.emod_eq_of_lt (value_zero ▸ hge) hlt').symm

/-- Settles O54, from the range and the exact value of the wrap. -/
theorem wrapIsFractionalPart : Obligations.WrapIsFractionalPart :=
  fun _ hf h0 => ⟨wrap_isPhase hf h0, value_wrap hf h0⟩

/-- A positive number is not a NaN, has its sign bit clear and is not zero. -/
theorem nonneg_nonzero_of_pos {x : F64} (h : lt F.ZERO x = true) : nonneg x = true ∧ isZero x = false := by
  obtain ⟨-, hN, hk⟩ := lt_iff.1 h
  have h0 : ordKey F.ZERO = 0 := by decide +kernel
  rw [h0] at hk
  have hn : nonneg x = true := nonneg_iff.2 ⟨hN, Machine.neg?_of_ordKey_pos hk⟩
  rw [ordKey_of_nonneg hn] at hk
  exact ⟨hn, Machine.isZero_of_pos (by omega)⟩

/-- Zero divided by a positive finite number is +0. -/
theorem div_zero_pos {x : F64} (hf : isFinite x = true) (hp : lt F.ZERO x = true) : div F.ZERO x = F.ZERO := by
  obtain ⟨hn, hz⟩ := nonneg_nonzero_of_pos hp
  have hzn : nonneg F.ZERO = true := by decide +kernel
  have hzf : isFinite F.ZERO = true := by decide +kernel
  have hzm : mag F.ZERO = 0 := by decide +kernel
  have hm : mag (div F.ZERO x) ≤ mag F.ZERO := mag_div_le hzn hn hzf hf hz (by simp [hzm])
  calc div F.ZERO x = pack (neg? (div F.ZERO x)) (mag (div F.ZERO x)) := (pack_parts _).symm
    _ = pack false 0 := by rw [(nonneg_iff.1 (nonneg_div hzn hn hzf hz)).2, Nat.le_zero.1 (hm.trans_eq hzm)]
    _ = F.ZERO := by decide +kernel

/-- R179: at phase 0 the scaled phase `t / dt` is +0 whatever `dt` is, so the correction is `(0 + 0 - 0 * 0) - 1`. -/
theorem polyBLEP_zero {dt : F64} (hf : isFinite dt = true) (hp : lt F.ZERO dt = true) :
    polyBLEP F.ZERO dt = F.MINUS_ONE := by
  unfold polyBLEP
  rw [if_pos hp, div_zero_pos hf hp]
  decide +kernel

/-- Settles O55: the uncorrected saw at phase 0 is -1 too, and -1 - (-1) is +0. -/
theorem polyBlepAtTheEdge : Obligations.PolyBlepAtTheEdge := by
  intro dt hf hp
  have hblep := polyBLEP_zero hf hp
  refine ⟨hblep, ?_⟩
  rw [Machine.sawValue, hblep]
  decide +kernel

end Sys2Proof

/-! ### SYS.SETSR (R175) -/

namespace Sys2Proof.Machine

theorem isSampleRate_iff {v : F64} : isSampleRate v = true ↔ Fp.isFinite v = true ∧ Fp.le SR_MIN v = true := by
  simp [isSampleRate]

theorem exec_sysSetSr_rate {v : F64} (hv : isSampleRate v = true) (s : State) :
    exec (.sysSetSr 0 v) s = .next (s.setSr v).noResult := by
  rw [exec, execSysSetSr, onInstance_present (by decide), if_pos hv]

/-- Settles O29: the operand check decides between the three writes and the fault. -/
theorem sysSetSr : Obligations.SysSetSr := by
  refine ⟨fun _ => rfl, fun v s hv => exec_sysSetSr_rate (isSampleRate_iff.2 hv) s, fun v s hv => ?_, fun s => ?_⟩
  · have hbad : isSampleRate v = false := by simpa using mt isSampleRate_iff.1 hv
    exact exec_badOperand rfl rfl (by simp [Instr.badOperand, hbad]) s
  · have hv : isSampleRate 0x40E7700000000000#64 = true := by decide +kernel
    exact ⟨_, exec_sysSetSr_rate hv s, rfl, by simp⟩

end Sys2Proof.Machine

/-! ### Command words, clamps and the rules many commands share (R130, R135, R171, R172) -/

namespace Sys2Proof
open Fp Machine

/-- The fields of a word do not overlap, so their sum is the union of their bits (R130). -/
theorem cmdWordOf_instIdx {u o n : Nat} (hu : u < 16) (ho : o < 16) (hn : n ≤ 16) (i : Fin n) (sel : BitVec 4) :
    cmdWordOf u o (instIdx i) sel = BitVec.ofNat 32 (u * 2 ^ 28 + o * 2 ^ 24) ||| idxBits i ||| sel.setWidth 32 := by
  have hi := i.isLt
  have hs := sel.isLt
  have hidx : (idxBits i).toNat = i * 2 ^ 20 := by
    rw [idxBits, BitVec.toNat_shiftLeft, BitVec.toNat_ofNat, Nat.shiftLeft_eq]; omega
  apply BitVec.eq_of_toNat_eq
  rw [toNat_cmdWordOf hu ho, toNat_instIdx hn, BitVec.toNat_or, BitVec.toNat_or, hidx, BitVec.toNat_ofNat,
    BitVec.toNat_setWidth_of_le (by decide), Nat.mod_eq_of_lt (by omega)]
  calc u * 2 ^ 28 + o * 2 ^ 24 + i * 2 ^ 20 + sel.toNat
      = 2 ^ 20 * (2 ^ 4 * (u * 2 ^ 4 + o) + i) + sel.toNat := by ring
    _ = 2 ^ 20 * (2 ^ 4 * (u * 2 ^ 4 + o) + i) ||| sel.toNat := Nat.two_pow_add_eq_or_of_lt (by omega) _
    _ = (2 ^ 24 * (u * 2 ^ 4 + o) + i * 2 ^ 20) ||| sel.toNat := by ring_nf
    _ = 2 ^ 24 * (u * 2 ^ 4 + o) ||| i * 2 ^ 20 ||| sel.toNat := by rw [Nat.two_pow_add_eq_or_of_lt (by omega)]
    _ = (u * 2 ^ 28 + o * 2 ^ 24) ||| i * 2 ^ 20 ||| sel.toNat := by ring_nf

/-- The word of a command that takes no `SEL`; the bounds are checked where it is used. -/
theorem cmdWordOf_instIdx_noSel (u o : Nat) {n : Nat} (i : Fin n) (hu : u < 16 := by decide)
    (ho : o < 16 := by decide) (hn : n ≤ 16 := by decide) :
    cmdWordOf u o (instIdx i) 0 = BitVec.ofNat 32 (u * 2 ^ 28 + o * 2 ^ 24) ||| idxBits i := by
  simp [cmdWordOf_instIdx hu ho hn]

/-- A `SEL` past the last enumerator makes the word illegal, whatever the operand (R135, R142). -/
theorem decode_selPastLast {u o m : Nat} (hu : u < 16) (ho : o < 16) (hm : selMaxOf u o = some m) (idx : BitVec 4)
    {sel : BitVec 4} (hs : m < sel.toNat) (opd : BitVec 64) :
    ∃ e, decode ⟨cmdWordOf u o idx sel, opd⟩ = .error e := by
  rw [decode_cmdWordOf hu ho, (decodeFields_row ..).error_iff]
  exact .inr (.inr ⟨m, hm, hs⟩)

/-! An infinity is clamped to the bound on its side (R172). -/

theorem ordKey_pack_inf (b : Bool) : ordKey (pack b infMag) = if b then -(infMag : Int) else infMag := by
  rw [ordKey, neg?_pack infMag_lt, mag_pack infMag_lt]

theorem isNaN_pack_inf (b : Bool) : isNaN (pack b infMag) = false := by
  simp [isNaN, mag_pack infMag_lt]

theorem clamp_posInf {lo hi : F64} (hlo : isFinite lo = true) (hhi : isFinite hi = true) :
    clamp (pack false infMag) lo hi = hi := by
  have above {x : F64} (hx : isFinite x = true) : lt x (pack false infMag) = true :=
    lt_iff.2 ⟨isNaN_of_isFinite hx, isNaN_pack_inf _, by simpa [ordKey_pack_inf] using (ordKey_bounds hx).2⟩
  have hnot : lt (pack false infMag) lo = false := by
    rw [Bool.eq_false_iff, Ne, lt_iff]
    exact fun h => (lt_iff.1 (above hlo)).2.2.asymm h.2.2
  simp [clamp, hnot, above hhi]

theorem clamp_negInf {lo : F64} (hlo : isFinite lo = true) (hi : F64) : clamp (pack true infMag) lo hi = lo :=
  if_pos (lt_iff.2 ⟨isNaN_pack_inf _, isNaN_of_isFinite hlo, by simpa [ordKey_pack_inf] using (ordKey_bounds hlo).1⟩)

namespace Machine

section
variable {n : Nat} {base : CmdWord}

/-- A command that checks its operand and then stores it clamped between finite bounds follows the rule of a setter. -/
theorem setsNumber_of_exec {make : BitVec 4 → F64 → Instr} {lo hi : F64} {store : Fin n → F64 → State → State}
    (hlo : isFinite lo = true) (hhi : isFinite hi = true)
    (hword : ∀ (i : Fin n) v, (make (instIdx i) v).cmdWord = base ||| idxBits i)
    (hexec : ∀ (i : Fin n) v s, exec (make (instIdx i) v) s =
      numberOperand (make (instIdx i) v).cmdWord v s (.next (store i (clamp v lo hi) s).noResult)) :
    SetsNumber make base lo hi store := by
  have number {v x : F64} (hv : isNaN v = false) (hx : clamp v lo hi = x) : StoresNumber make store v x := by
    intro i s
    rw [hexec, numberOperand_number hv, hx]
    rfl
  refine ⟨hword, fun v hv => number hv rfl, number (isNaN_pack_inf _) (clamp_posInf hlo hhi),
    number (isNaN_pack_inf _) (clamp_negInf hlo hi), fun i v s hv => ?_⟩
  rw [hexec, numberOperand_nan hv, hword]

/-- What a setter does with one operand. -/
theorem SetsNumber.stores {make : BitVec 4 → F64 → Instr} {lo hi : F64} {store : Fin n → F64 → State → State}
    (h : SetsNumber make base lo hi store) {v x : F64} (hv : isNaN v = false) (hx : clamp v lo hi = x) :
    StoresNumber make store v x := by
  obtain ⟨-, hnumber, -⟩ := h
  exact hx ▸ hnumber v hv

/-- A command that looks up what its `SEL` numbers and then stores it follows the rule of a `SEL` command. -/
theorem setsEnumerator_of_exec {α : Type} {make : BitVec 4 → BitVec 4 → Instr} {names : List α}
    {store : Fin n → α → State → State} {u o m : Nat} (hu : u < 16) (ho : o < 16) (hn : n ≤ 16)
    (hbase : base = BitVec.ofNat 32 (u * 2 ^ 28 + o * 2 ^ 24)) (hmax : selMaxOf u o = some m)
    (hlen : names.length = m + 1) (hcmd : ∀ idx sel, (make idx sel).cmdWord = cmdWordOf u o idx sel)
    (hexec : ∀ (i : Fin n) sel s, exec (make (instIdx i) sel) s =
      selOperand (make (instIdx i) sel).cmdWord names[sel.toNat]? s fun a => .next (store i a s).noResult) :
    SetsEnumerator make base names store := by
  intro i sel s
  have hword : cmdWordOf u o (instIdx i) sel = base ||| idxBits i ||| sel.setWidth 32 := by
    rw [hbase, cmdWordOf_instIdx hu ho hn]
  refine ⟨(hcmd _ _).trans hword, fun a ha => ?_, fun hnone => ?_, fun opd hnone hf => ?_⟩
  · rw [hexec, ha]; rfl
  · rw [hexec, hnone]; rfl
  · have hpast : m < sel.toNat := by
      have := List.getElem?_eq_none_iff.1 hnone
      omega
    obtain ⟨e, he⟩ := decode_selPastLast hu ho hmax (instIdx i) hpast opd
    rw [← hword, perform_illegal hf he]

end

/-! ### The oscillator (R201 to R213) -/

section
variable {s : State} (i : Fin 3)

theorem exec_oscSetFreq (v : F64) : exec (.oscSetFreq (instIdx i) v) s =
    numberOperand (Instr.oscSetFreq (instIdx i) v).cmdWord v s
      (.next (s.setOsc i { s.oscAt i with freq := clamp v FREQ_MIN FREQ_MAX }).noResult) := by
  rw [exec, execOscSetFreq, onInstance_instIdx (by decide)]

theorem exec_oscSetPw (v : F64) : exec (.oscSetPw (instIdx i) v) s =
    numberOperand (Instr.oscSetPw (instIdx i) v).cmdWord v s
      (.next (s.setOsc i { s.oscAt i with pw := clamp v PW_MIN PW_MAX }).noResult) := by
  rw [exec, execOscSetPw, onInstance_instIdx (by decide)]

theorem exec_oscSetWave (sel : BitVec 4) : exec (.oscSetWave (instIdx i) sel) s =
    selOperand (Instr.oscSetWave (instIdx i) sel).cmdWord (oscWaveOfSel sel) s fun w =>
      .next (s.setOsc i { s.oscAt i with wave := w }).noResult := by
  simp only [exec, execOscSetWave, onInstance_instIdx (show 3 ≤ 16 by decide)]

/-- What a configured `OSC.TICK` does to oscillator `i` (R204). -/
theorem exec_oscTick (hs : s.srValid = true) : exec (.oscTick (instIdx i)) s =
    let r := s.oscAt i
    let dt := oscIncrement s.sr r
    .next ((s.setOsc i (r.advance dt)).returnsSample (oscSample r dt)) := by
  rw [exec, execOscTick, onInstance_instIdx (by decide), requireSr_configured hs]

theorem exec_oscReset : exec (.oscReset (instIdx i)) s =
    .next (s.setOsc i { s.oscAt i with phase := F.ZERO }).noResult := by
  rw [exec, execOscReset, onInstance_instIdx (by decide)]

theorem exec_oscGetPhase : exec (.oscGetPhase (instIdx i)) s = .next (s.returns (s.oscAt i).phase) := by
  rw [exec, execOscGetPhase, onInstance_instIdx (by decide)]

end

/-- The enumerators of `OSC.SETWAVE` in the order `SEL` numbers them (R141). -/
theorem oscWaveOfSel_eq_getElem? : ∀ sel : BitVec 4,
    oscWaveOfSel sel = [OscWave.sine, .saw, .square, .triangle][sel.toNat]? := by
  decide

/-- A sine at phase 0 is +0, at every increment (R205, R213). -/
theorem oscSample_sine_zero {r : OscRegs} (hw : r.wave = .sine) (hp : r.phase = F.ZERO) (dt : F64) :
    oscSample r dt = F.ZERO := by
  have harg : mul TWO_PI F.ZERO = F.ZERO := by decide +kernel
  simp only [oscSample, hw, hp, sineValue, harg, SIN_zero]

theorem toBinary32_zero : toBinary32 F.ZERO = 0 := by decide +kernel

/-- Settles O30: the command is a setter, and the two examples are its clamp evaluated. -/
theorem oscSetFreq : Obligations.OscSetFreq := by
  unfold Obligations.OscSetFreq
  intro store
  have h : SetsNumber Instr.oscSetFreq 0x10000000#32 FREQ_MIN FREQ_MAX store :=
    setsNumber_of_exec (by decide +kernel) (by decide +kernel)
      (fun i _ => cmdWordOf_instIdx_noSel 1 0 i) (fun i v _ => exec_oscSetFreq i v)
  exact ⟨h, h.stores (by decide +kernel) (by decide +kernel), h.stores (by decide +kernel) (by decide +kernel)⟩

/-- Settles O31: the command looks its `SEL` up among the four waveforms. -/
theorem oscSetWave : Obligations.OscSetWave :=
  setsEnumerator_of_exec (u := 1) (o := 1) (by decide) (by decide) (by decide) rfl rfl rfl (fun _ _ => rfl)
    fun i sel _ => oscWaveOfSel_eq_getElem? sel ▸ exec_oscSetWave i sel

/-- Settles O32: the command is a setter, and the corners and the example are its clamp evaluated. -/
theorem oscSetPw : Obligations.OscSetPw := by
  unfold Obligations.OscSetPw
  intro store
  have h : SetsNumber Instr.oscSetPw 0x12000000#32 PW_MIN PW_MAX store :=
    setsNumber_of_exec (by decide +kernel) (by decide +kernel)
      (fun i _ => cmdWordOf_instIdx_noSel 1 2 i) (fun i v _ => exec_oscSetPw i v)
  exact ⟨h, h.stores (by decide +kernel) (by decide +kernel), h.stores (by decide +kernel) (by decide +kernel),
    h.stores (by decide +kernel) (by decide +kernel)⟩

/-- Settles O33: the model's waveforms are the formulas of R205 to R208. -/
theorem oscTick : Obligations.OscTick := by
  intro i s
  have hword : (Instr.oscTick (instIdx i)).cmdWord = 0x13000000#32 ||| idxBits i := cmdWordOf_instIdx_noSel 1 3 i
  refine ⟨hword, fun hs => exec_oscTick i hs, fun hs => ?_⟩
  rw [← hword]
  exact exec_notConfigured rfl (present_of (by decide) i rfl rfl) rfl hs

/-- Settles O34: each command is one named update of the state. -/
theorem oscResetAndGetPhase : Obligations.OscResetAndGetPhase := fun i _ =>
  ⟨cmdWordOf_instIdx_noSel 1 4 i, cmdWordOf_instIdx_noSel 1 6 i, exec_oscReset i, exec_oscGetPhase i⟩

/-- Settles O56: the reset keeps `SR` and the waveform, so the tick takes the sine at phase 0. -/
theorem firstSineTick : Obligations.FirstSineTick := by
  intro i s hs hw
  refine ⟨_, _, exec_oscReset i, exec_oscTick i (by simpa using hs), ?_, rfl⟩
  rw [State.returnsSample_res, oscSample_sine_zero (by simpa using hw) (by simp), toBinary32_zero]
  rfl

end Machine
end Sys2Proof

/-! ### The envelope's commands (R250 to R268) -/

namespace Sys2Proof.Machine

/-- A command that looks up its instance, checks its operand and stores it clamped follows the rule of a setter; the
bounds are checked where it is used. -/
theorem setsNumber_of_onInstance {n : Nat} {make : BitVec 4 → F64 → Instr} {base : CmdWord} {lo hi : F64}
    {store : Fin n → F64 → State → State}
    (hword : ∀ (i : Fin n) v, (make (instIdx i) v).cmdWord = base ||| idxBits i)
    (hexec : ∀ idx v s, exec (make idx v) s = onInstance n idx s fun i =>
      numberOperand (make idx v).cmdWord v s (.next (store i (clamp v lo hi) s).noResult))
    (hn : n ≤ 16 := by decide) (hlo : Fp.isFinite lo = true := by decide +kernel)
    (hhi : Fp.isFinite hi = true := by decide +kernel) :
    SetsNumber make base lo hi store :=
  setsNumber_of_exec hlo hhi hword fun i v s => (hexec _ v s).trans (onInstance_instIdx hn i _)

section
variable {s : State} (i : Fin 1)

/-- What a configured `ENV.NOTEOFF` does to envelope `i` (R256). -/
theorem exec_envNoteOff (hs : s.srValid = true) : exec (.envNoteOff (instIdx i)) s =
    .next (s.setEnv i
      { s.envAt i with releaseRate := latchedReleaseRate s.sr (s.envAt i), state := .release }).noResult := by
  rw [exec, execEnvNoteOff, onInstance_instIdx (by decide), requireSr_configured hs]

theorem exec_envReset : exec (.envReset (instIdx i)) s =
    .next (s.setEnv i { s.envAt i with state := .idle, level := F.ZERO }).noResult := by
  rw [exec, execEnvReset, onInstance_instIdx (by decide)]

theorem exec_envGetState : exec (.envGetState (instIdx i)) s =
    .next (s.returns (envStateNumber (s.envAt i).state)) := by
  rw [exec, execEnvGetState, onInstance_instIdx (by decide)]

theorem exec_envIsActive : exec (.envIsActive (instIdx i)) s =
    .next (s.returns (if (s.envAt i).state = .idle then 0 else 1)) := by
  rw [exec, execEnvIsActive, onInstance_instIdx (by decide)]

theorem exec_envGetLevel : exec (.envGetLevel (instIdx i)) s = .next (s.returns (s.envAt i).level) := by
  rw [exec, execEnvGetLevel, onInstance_instIdx (by decide)]

end

/-- In Idle a tick changes no register of the envelope (R258). -/
theorem EnvRegs.tick_idle {r : EnvRegs} (h : r.state = .idle) (sr : F64) : r.tick sr = r := by
  simp [EnvRegs.tick, h]

/-- Settles O26: a tick keeps Idle, the reset enters it, and of the other commands to envelope `j` only the two note
commands write the state. -/
theorem envelopeLeavesIdle : Obligations.EnvelopeLeavesIdle := by
  intro i s t j h hidle hne
  rcases (effect_of_exec h).at (.env j) with hu | hsame | ⟨v, rfl, rfl⟩
  · cases hu
    case envNoteOn v _ => exact .inl ⟨v, rfl⟩
    case envNoteOff => exact .inr rfl
    case envTick => exact absurd (by simp [EnvRegs.tick_idle hidle, hidle]) hne
    case envReset => exact absurd (by simp) hne
    all_goals exact absurd (by simpa using hidle) hne
  · exact absurd ((congrArg EnvRegs.state hsame).symm.trans hidle) hne
  · exact absurd hidle hne

/-- Settles O36: the four commands are setters, and each example is its clamp evaluated. -/
theorem envParameterSetters : Obligations.EnvParameterSetters := by
  unfold Obligations.EnvParameterSetters
  intro attack decay sustain release
  have hattack : SetsNumber Instr.envSetAttack 0x20000000#32 ATTACK_MIN ATTACK_MAX attack :=
    setsNumber_of_onInstance (fun i _ => cmdWordOf_instIdx_noSel 2 0 i) fun _ _ _ => rfl
  have hdecay : SetsNumber Instr.envSetDecay 0x21000000#32 DECAY_MIN DECAY_MAX decay :=
    setsNumber_of_onInstance (fun i _ => cmdWordOf_instIdx_noSel 2 1 i) fun _ _ _ => rfl
  have hsustain : SetsNumber Instr.envSetSustain 0x22000000#32 SUSTAIN_MIN SUSTAIN_MAX sustain :=
    setsNumber_of_onInstance (fun i _ => cmdWordOf_instIdx_noSel 2 2 i) fun _ _ _ => rfl
  have hrelease : SetsNumber Instr.envSetRelease 0x23000000#32 RELEASE_MIN RELEASE_MAX release :=
    setsNumber_of_onInstance (fun i _ => cmdWordOf_instIdx_noSel 2 3 i) fun _ _ _ => rfl
  exact ⟨hattack, hattack.stores (by decide +kernel) (by decide +kernel),
    hdecay, hdecay.stores (by decide +kernel) (by decide +kernel),
    hsustain, hsustain.stores (by decide +kernel) (by decide +kernel),
    hrelease, hrelease.stores (by decide +kernel) (by decide +kernel)⟩

/-- Settles O37: the command is a setter of the velocity whose store also enters Attack. -/
theorem envNoteOn : Obligations.EnvNoteOn :=
  setsNumber_of_onInstance (fun i _ => cmdWordOf_instIdx_noSel 2 4 i) fun _ _ _ => rfl

/-- Settles O38: without `SR` the command is refused, and with it the rate is latched in every state. -/
theorem envNoteOff : Obligations.EnvNoteOff := by
  intro i s
  have hword : (Instr.envNoteOff (instIdx i)).cmdWord = 0x25000000#32 ||| idxBits i := cmdWordOf_instIdx_noSel 2 5 i
  refine ⟨hword, fun hs => exec_envNoteOff i hs, fun hs => ?_⟩
  rw [← hword]
  exact exec_notConfigured rfl (present_of (by decide) i rfl rfl) rfl hs

/-- Settles O40: the command is one named update of the state. -/
theorem envReset : Obligations.EnvReset := fun i _ =>
  ⟨cmdWordOf_instIdx_noSel 2 7 i, exec_envReset i⟩

/-- Settles O41: each command returns a value of the registers; that of `ENV.ISACTIVE` is compared state by state. -/
theorem envReads : Obligations.EnvReads := by
  intro i s
  refine ⟨cmdWordOf_instIdx_noSel 2 8 i, cmdWordOf_instIdx_noSel 2 9 i, cmdWordOf_instIdx_noSel 2 10 i, ?_, ?_,
    exec_envGetLevel i⟩
  · exact exec_envGetState i
  · rw [exec_envIsActive, State.envAt]
    cases s.env[i].state <;> rfl

end Sys2Proof.Machine

/-! ### The LFO's commands that set a register (R300 to R305) -/

namespace Sys2Proof.Machine

/-- A command that looks up what its `SEL` numbers, then its instance, and stores the enumerator follows the rule of a
`SEL` command; the bounds are checked where it is used. -/
theorem setsEnumerator_of_onInstance {n m : Nat} {α : Type} {make : BitVec 4 → BitVec 4 → Instr} {base : CmdWord}
    {names : List α} {meaning : BitVec 4 → Option α} {store : Fin n → α → State → State} (u o : Nat)
    (hmeaning : ∀ sel, meaning sel = names[sel.toNat]?)
    (hexec : ∀ idx sel s, exec (make idx sel) s = selOperand (make idx sel).cmdWord (meaning sel) s fun a =>
      onInstance n idx s fun i => .next (store i a s).noResult)
    (hcmd : ∀ idx sel, (make idx sel).cmdWord = cmdWordOf u o idx sel)
    (hmax : selMaxOf u o = some m) (hlen : names.length = m + 1)
    (hbase : base = BitVec.ofNat 32 (u * 2 ^ 28 + o * 2 ^ 24) := by rfl)
    (hu : u < 16 := by decide) (ho : o < 16 := by decide) (hn : n ≤ 16 := by decide) :
    SetsEnumerator make base names store :=
  setsEnumerator_of_exec hu ho hn hbase hmax hlen hcmd fun i sel s => by
    simp only [hexec, hmeaning, onInstance_instIdx hn]

/-! The enumerators in the order `SEL` numbers them (R141). -/

theorem lfoWaveOfSel_eq_getElem? : ∀ sel : BitVec 4,
    lfoWaveOfSel sel = [LfoWave.sine, .triangle, .square, .sawtooth, .sampleAndHold][sel.toNat]? := by
  decide

theorem rateModeOfSel_eq_getElem? : ∀ sel : BitVec 4,
    rateModeOfSel sel = [RateMode.free, .sync][sel.toNat]? := by
  decide

theorem syncDivOfSel_eq_getElem? : ∀ sel : BitVec 4,
    syncDivOfSel sel = [(0 : SyncDiv), 1, 2, 3, 4, 5, 6][sel.toNat]? := by
  decide

/-- The beats of a division double from a quarter beat (R303). -/
theorem SYNC_BEATS_eq : ∀ d : SyncDiv, SYNC_BEATS d = Fp.ofRatio (2 ^ d.val) 4 := by
  decide +kernel

/-- Settles O42: each command looks its `SEL` up among its enumerators before its instance. -/
theorem lfoEnumerators : Obligations.LfoEnumerators :=
  ⟨setsEnumerator_of_onInstance 3 0 lfoWaveOfSel_eq_getElem? (fun _ _ _ => rfl) (fun _ _ => rfl) rfl rfl,
    setsEnumerator_of_onInstance 3 2 rateModeOfSel_eq_getElem? (fun _ _ _ => rfl) (fun _ _ => rfl) rfl rfl,
    setsEnumerator_of_onInstance 3 3 syncDivOfSel_eq_getElem? (fun _ _ _ => rfl) (fun _ _ => rfl) rfl rfl,
    SYNC_BEATS_eq⟩

/-- Settles O43: the three commands are setters, and each example is its clamp evaluated. -/
theorem lfoNumberSetters : Obligations.LfoNumberSetters := by
  unfold Obligations.LfoNumberSetters
  intro rate bpm depth
  have hrate : SetsNumber Instr.lfoSetRate 0x31000000#32 LFO_RATE_MIN LFO_RATE_MAX rate :=
    setsNumber_of_onInstance (fun i _ => cmdWordOf_instIdx_noSel 3 1 i) fun _ _ _ => rfl
  have hbpm : SetsNumber Instr.lfoSetBpm 0x34000000#32 BPM_MIN BPM_MAX bpm :=
    setsNumber_of_onInstance (fun i _ => cmdWordOf_instIdx_noSel 3 4 i) fun _ _ _ => rfl
  have hdepth : SetsNumber Instr.lfoSetDepth 0x35000000#32 DEPTH_MIN DEPTH_MAX depth :=
    setsNumber_of_onInstance (fun i _ => cmdWordOf_instIdx_noSel 3 5 i) fun _ _ _ => rfl
  exact ⟨hrate, hrate.stores (by decide +kernel) (by decide +kernel),
    hbpm, hbpm.stores (by decide +kernel) (by decide +kernel),
    hdepth, hdepth.stores (by decide +kernel) (by decide +kernel)⟩

end Sys2Proof.Machine

/-! ### The filter's commands (R350 to R363) -/

namespace Sys2Proof.Fp

/-! An operation on a NaN gives the one NaN the model makes (R16). -/

theorem fromBinary32_nan {x : F32} (h : isNaN32 x = true) : fromBinary32 x = qNaN := by
  simp [fromBinary32, h]

@[simp] theorem add_qNaN (x : F64) : add x qNaN = qNaN := by
  simp [add, isNaN_qNaN]

@[simp] theorem mul_qNaN (x : F64) : mul x qNaN = qNaN := by
  simp [mul, isNaN_qNaN]

@[simp] theorem qNaN_sub (y : F64) : sub qNaN y = qNaN := by
  simp [sub, add, isNaN_qNaN]

@[simp] theorem isFinite_qNaN : isFinite qNaN = false := by
  simp [isFinite_eq, isNaN_qNaN]

end Sys2Proof.Fp

namespace Sys2Proof

@[simp] theorem TANH_qNaN : TANH Fp.qNaN = Fp.qNaN := by
  simp [TANH, Fp.isNaN_qNaN]

namespace Machine

section
variable (r : FiltRegs)

/-- The refresh, field by field: it leaves the coefficients of a clean cache (R356). -/
theorem FiltRegs.refresh_eq (sr : F64) : r.refresh sr =
    { r with
      g := if r.dirty then filtG r.cutoff sr else r.g
      k := if r.dirty then filtK r.res else r.k
      dirty := false } := by
  rcases r with ⟨_, _, _, _, _, _, _ | _⟩ <;> rfl

/-- A NaN input runs through the drive and the saturation into the cascade (R355, R357, R358). -/
theorem FiltRegs.cascade_nan : (r.s.cascade r.g (TANH (r.drive Fp.qNaN))).isFinite = false := by
  simp [FiltRegs.drive, Stages.cascade, stageStep, Stages.isFinite]

end

section
variable {s : State} (i : Fin 1)

/-- A +0 is returned as the port word 0 (R44, R359). -/
theorem State.returnsSample_zero : s.returnsSample F.ZERO = s.returns 0 := by
  rw [State.returnsSample, toBinary32_zero]
  rfl

/-- What a configured `FILT.TICK` does to filter `i` (R355): with a finite cascade the stages are stored clamped and the
output is selected from them (R360 to R362), and otherwise the ladder is healed and the output is +0 (R359). -/
theorem exec_filtTick (x : F32) (hs : s.srValid = true) : exec (.filtTick (instIdx i) x) s =
    let r := (s.filtAt i).refresh s.sr
    let v := r.drive (Fp.fromBinary32 x)
    let t := r.s.cascade r.g (TANH v)
    let y := filtSelect Config.bpVariant Config.hpSrc r.mode (t.clampTo CLAMP_BOUND) v (TANH v)
    .next (if t.isFinite then
      (s.setFilt i { r with s := t.clampTo CLAMP_BOUND }).returnsSample
        (filtOutput CLAMP_BOUND (RES_COMP r.res (filtRatio r.cutoff s.sr)) y)
    else (s.setFilt i { r with s := Stages.zero }).returns 0) := by
  rw [exec, execFiltTick, onInstance_instIdx (by decide), requireSr_configured hs]
  simp only [FiltRegs.sample, ← State.returnsSample_zero]
  split <;> rfl

theorem exec_filtReset : exec (.filtReset (instIdx i)) s =
    .next (s.setFilt i { s.filtAt i with s := Stages.zero }).noResult := by
  rw [exec, execFiltReset, onInstance_instIdx (by decide)]

end

/-- The enumerators of `FILT.SETMODE` in the order `SEL` numbers them (R141). -/
theorem filtModeOfSel_eq_getElem? : ∀ sel : BitVec 4,
    filtModeOfSel sel = [FiltMode.lowPass, .bandPass, .highPass][sel.toNat]? := by
  decide

/-- Settles O50: the NaN reaches the cascade, so the tick takes the healing branch, from every state of the filter. -/
theorem filtHealsNaN : Obligations.FiltHealsNaN := by
  intro i x s hs hx
  have htick : exec (.filtTick (instIdx i) x) s =
      .next ((s.setFilt i { (s.filtAt i).refresh s.sr with s := Stages.zero }).returns 0) := by
    rw [exec_filtTick i x hs, Fp.fromBinary32_nan hx]
    exact congrArg Host.Outcome.next (if_neg (by simp [FiltRegs.cascade_nan]))
  refine ⟨_, htick, rfl, rfl, rfl, ?_⟩
  rw [State.returns_filtAt, State.setFilt_filtAt]
  rfl

/-- Settles O47: the command looks its `SEL` up among the three modes before its instance. -/
theorem filtSetMode : Obligations.FiltSetMode :=
  setsEnumerator_of_onInstance 4 0 filtModeOfSel_eq_getElem? (fun _ _ _ => rfl) (fun _ _ => rfl) rfl rfl

/-- Settles O48: the two commands are setters whose store also marks the cache, and each example is its clamp
evaluated. -/
theorem filtNumberSetters : Obligations.FiltNumberSetters := by
  unfold Obligations.FiltNumberSetters
  intro cutoff res
  have hcutoff : SetsNumber Instr.filtSetCutoff 0x41000000#32 CUTOFF_MIN CUTOFF_MAX cutoff :=
    setsNumber_of_onInstance (fun i _ => cmdWordOf_instIdx_noSel 4 1 i) fun _ _ _ => rfl
  have hres : SetsNumber Instr.filtSetRes 0x42000000#32 RES_MIN RES_MAX res :=
    setsNumber_of_onInstance (fun i _ => cmdWordOf_instIdx_noSel 4 2 i) fun _ _ _ => rfl
  exact ⟨hcutoff, hcutoff.stores (by decide +kernel) (by decide +kernel),
    hres, hres.stores (by decide +kernel) (by decide +kernel)⟩

/-- Settles O49: the refreshed registers field by field and the tick's two outcomes on them are the rules' formulas. -/
theorem filtTick : Obligations.FiltTick := by
  intro i x s
  have hword : (Instr.filtTick (instIdx i) x).cmdWord = 0x43000000#32 ||| idxBits i := cmdWordOf_instIdx_noSel 4 3 i
  refine ⟨hword, fun hs => ?_, fun hs => ?_⟩
  · rw [exec_filtTick i x hs, FiltRegs.refresh_eq]
    rfl
  · rw [← hword]
    exact exec_notConfigured rfl (present_of (by decide) i rfl rfl) rfl hs

/-- Settles O51: the command is one named update of the state. -/
theorem filtReset : Obligations.FiltReset := fun i _ =>
  ⟨cmdWordOf_instIdx_noSel 4 4 i, exec_filtReset i⟩

end Machine
end Sys2Proof

/-! ### Faults (R400, R403, R404, R408) -/

namespace Sys2Proof

/-! What recording a fault does to `STATUS`, read from bits 7:4 and from the bits outside them and bit 0. -/

theorem statusCode_eq_toNat_extract (w : BitVec 32) : statusCode w = (w.extractLsb' 4 4).toNat := by
  rw [BitVec.extractLsb'_toNat, Nat.shiftRight_eq_div_pow, statusCode]

/-- The mask clears the code there was, and the number shifted in takes its place. -/
theorem statusCode_recordFault (code : FaultCode) (w : BitVec 32) :
    statusCode (statusRecordFault code w) = code.number.toNat := by
  have hmask : (0xFFFFFF0E#32).extractLsb' 4 4 = 0#4 := by decide
  rw [statusCode_eq_toNat_extract, statusRecordFault, BitVec.extractLsb'_or, BitVec.extractLsb'_and, hmask,
    BitVec.and_zero, BitVec.zero_or]
  cases code <;> rfl

theorem getLsbD_recordFault (code : FaultCode) (w : BitVec 32) {b : Nat} (h0 : b ≠ 0) (hcode : ¬(4 ≤ b ∧ b < 8)) :
    (statusRecordFault code w).getLsbD b = w.getLsbD b := by
  have hkept : ∀ b : Fin 32, b.val ≠ 0 → ¬(4 ≤ b.val ∧ b.val < 8) →
      (0xFFFFFF0E#32).getLsbD b = true ∧ (code.number <<< 4 ||| 0x1#32).getLsbD b = false := by
    cases code <;> decide
  by_cases hb : b < 32
  · obtain ⟨hmask, hrecorded⟩ := hkept ⟨b, hb⟩ h0 hcode
    rw [statusRecordFault, BitVec.getLsbD_or, BitVec.getLsbD_and, hmask, hrecorded, Bool.and_true, Bool.or_false]
  · rw [BitVec.getLsbD_of_ge _ _ (Nat.le_of_not_lt hb), BitVec.getLsbD_of_ge _ _ (Nat.le_of_not_lt hb)]

theorem FaultCode.number_injective {a b : FaultCode} (h : a.number.toNat = b.number.toNat) : a = b := by
  revert h
  cases a <;> cases b <;> decide

/-- Only an enumeration immediate can make a word illegal (R135), and no command that reads `SR` takes one. -/
theorem wellFormed_of_needsSr {i : Instr} (h : i.needsSr = true) : i.WellFormed = true := by
  cases i
  case oscTick | envNoteOff | envTick | lfoTick | filtTick => rfl
  all_goals exact absurd h Bool.false_ne_true

/-- An f64 setter is well-formed whatever its operand, and refuses exactly the NaNs (R171, R404). -/
theorem setter_facts {i : Instr} {v : F64} (h : i.setterOperand = some v) :
    i.WellFormed = true ∧ i.badOperand = Fp.isNaN v := by
  cases i
  case oscSetFreq | oscSetPw | envSetAttack | envSetDecay | envSetSustain | envSetRelease | envNoteOn | lfoSetRate |
      lfoSetBpm | lfoSetDepth | filtSetCutoff | filtSetRes =>
    obtain rfl := Option.some.inj h
    exact ⟨rfl, rfl⟩
  all_goals cases h

namespace Machine

section
variable {s t : State} {i : Instr}

/-- A command that faults an unfaulted block takes the state that records one of the faults it may raise, and no other
(R408). -/
theorem Effect.raise_of_faulted (h : Effect s i t) (hs : s.faulted = false) (ht : t.faulted = true) :
    ∃ code, FaultsWith s i code ∧ t = s.raise code i.cmdWord := by
  have hne {u : State} (hu : u.faulted = s.faulted) : u.faulted ≠ true := by rw [hu, hs]; exact Bool.false_ne_true
  cases h with
  | missing _ => exact absurd ht (hne s.noResult_faulted)
  | fault code h => exact ⟨code, h, rfl⟩
  | sampleRate v _ _ => exact absurd ht (hne (s.setSr_faulted v))
  | unit h =>
    obtain ⟨-, hst, -⟩ := h.control
    exact absurd ht (hne (congrArg statusFaulted hst))

/-- A fault whose condition does not hold is not recorded. -/
theorem exec_not_recorded {code : FaultCode} (hs : s.faulted = false) (h : ¬FaultsWith s i code) :
    ∃ t, exec i s = .next t ∧ ¬(t.faulted = true ∧ statusCode t.status = code.number.toNat) := by
  obtain ⟨t, ht, he⟩ := exec_ends_in_effect i s
  refine ⟨t, ht, fun ⟨hf, hcode⟩ => h ?_⟩
  obtain ⟨code', hw, rfl⟩ := he.raise_of_faulted hs hf
  rw [State.raise_status, statusCode_recordFault] at hcode
  exact FaultCode.number_injective hcode ▸ hw

end

/-- Settles O16: the check of `SR` is the first of such a command to a present instance, and the only one that raises
NOT_CONFIGURED. -/
theorem notConfigured : Obligations.NotConfigured := by
  refine ⟨fun i s hp hn hs => exec_notConfigured (wellFormed_of_needsSr hn) hp hn hs, fun i s hn hf => ?_⟩
  refine exec_not_recorded (code := .notConfigured) hf fun ⟨hneeds, hinvalid⟩ => ?_
  simp [hneeds, hinvalid] at hn

/-- Settles O17: the two checks of an operand refuse a NaN and what is no sample rate, and no other check raises
BAD_OPERAND. -/
theorem badOperand : Obligations.BadOperand := by
  obtain ⟨-, -, hrate, -⟩ := sysSetSr
  refine ⟨fun i v s hp hv hnan => ?_, fun v s hv => hrate v s fun ⟨hfin, hle⟩ => ?_, fun i s hb hf => ?_⟩
  · obtain ⟨hw, hbad⟩ := setter_facts hv
    exact exec_badOperand hw hp (hbad.trans hnan) s
  · rcases hv with hinf | hlt
    · exact Bool.false_ne_true (hinf.symm.trans hfin)
    · obtain ⟨-, -, hbelow⟩ := Fp.lt_iff.1 hlt
      obtain ⟨-, -, habove⟩ := Fp.le_iff.1 hle
      exact hbelow.not_ge habove
  · exact exec_not_recorded (code := .badOperand) hf (ne_true_of_eq_false hb)

/-- Settles O18: an illegal word and a command that faults both take `State.raise`, with the word on the port. -/
theorem faultsArePrecise : Obligations.FaultsArePrecise := by
  intro c s t hs hperform ht
  cases hd : decode c with
  | error e => exact ⟨.illegalCommand, next_inj ((perform_illegal hs hd).symm.trans hperform)⟩
  | ok i =>
    obtain ⟨-, hword⟩ := wellFormed_of_decode hd
    rw [perform_legal hs hd] at hperform
    obtain ⟨code, -, hraise⟩ := (effect_of_exec hperform).raise_of_faulted hs ht
    exact ⟨code, hword ▸ hraise⟩

/-- Settles O13: `State.raise` is the update, and its `STATUS` is read field by field. -/
theorem faultRecording : Obligations.FaultRecording := by
  intro s code cmd
  refine ⟨rfl, s.raise_faulted code cmd, ?_, fun b h0 hcode => getLsbD_recordFault code s.status h0 hcode⟩
  exact (statusCode_recordFault code s.status).trans (by cases code <;> rfl)

end Machine
end Sys2Proof

/-! ### A command sees its instance, `SR` and the next draw (R109, R11) -/

namespace Sys2Proof.Machine

section
variable {s s' t t' : State} {i : Instr} {u : RegFile}

/-- Two states hold the same result, if they hold one (R140). -/
def State.sameResult (t t' : State) : Prop := t.resValid = t'.resValid ∧ (t.resValid = true → t.res = t'.res)

/-- Two states agree on what a command to register file `u` may read, and hold the same result. -/
def State.alike (u : RegFile) (t t' : State) : Prop := State.agreeOn u t t' ∧ State.sameResult t t'

/-! The named operations keep agreeing states in agreement. -/

theorem State.agreeOn.setOsc {j : Fin 3} (h : State.agreeOn (.osc j) s s') {r r' : OscRegs} (hr : r = r') :
    State.agreeOn (.osc j) (s.setOsc j r) (s'.setOsc j r') := by
  obtain ⟨hsr, hv, hd, -⟩ := h
  exact ⟨hsr, hv, hd, by simp [State.sameAt, hr]⟩

theorem State.agreeOn.setEnv {j : Fin 1} (h : State.agreeOn (.env j) s s') {r r' : EnvRegs} (hr : r = r') :
    State.agreeOn (.env j) (s.setEnv j r) (s'.setEnv j r') := by
  obtain ⟨hsr, hv, hd, -⟩ := h
  exact ⟨hsr, hv, hd, by simp [State.sameAt, hr]⟩

theorem State.agreeOn.setLfo {j : Fin 2} (h : State.agreeOn (.lfo j) s s') {r r' : LfoRegs} (hr : r = r') :
    State.agreeOn (.lfo j) (s.setLfo j r) (s'.setLfo j r') := by
  obtain ⟨hsr, hv, hd, -⟩ := h
  exact ⟨hsr, hv, hd, by simp [State.sameAt, hr]⟩

theorem State.agreeOn.setFilt {j : Fin 1} (h : State.agreeOn (.filt j) s s') {r r' : FiltRegs} (hr : r = r') :
    State.agreeOn (.filt j) (s.setFilt j r) (s'.setFilt j r') := by
  obtain ⟨hsr, hv, hd, -⟩ := h
  exact ⟨hsr, hv, hd, by simp [State.sameAt, hr]⟩

theorem State.agreeOn.drawn (h : State.agreeOn u s s') : State.agreeOn u s.drawn s'.drawn := by
  obtain ⟨hsr, hv, hd, hu⟩ := h
  exact ⟨hsr, hv, congrArg Nat.succ hd, by cases u <;> exact hu⟩

theorem State.agreeOn.noResult (h : State.agreeOn u s s') : State.alike u s.noResult s'.noResult := by
  obtain ⟨hsr, hv, hd, hu⟩ := h
  exact ⟨⟨hsr, hv, hd, by cases u <;> exact hu⟩, rfl, nofun⟩

theorem State.agreeOn.returns (h : State.agreeOn u s s') {v v' : BitVec 64} (hv : v = v') :
    State.alike u (s.returns v) (s'.returns v') := by
  obtain ⟨hsr, hsv, hd, hu⟩ := h
  exact ⟨⟨hsr, hsv, hd, by cases u <;> exact hu⟩, rfl, fun _ => hv⟩

theorem State.agreeOn.returnsSample (h : State.agreeOn u s s') {y y' : F64} (hy : y = y') :
    State.alike u (s.returnsSample y) (s'.returnsSample y') :=
  h.returns (by rw [hy])

/-- A recorded fault writes nothing that `State.agreeOn` compares but `STATUS`, of which it keeps `SR_VALID` (R400). -/
theorem State.agreeOn.raise (h : State.agreeOn u s s') (code code' : FaultCode) (cmd cmd' : CmdWord) :
    State.alike u (s.raise code cmd) (s'.raise code' cmd') := by
  obtain ⟨hsr, hv, hd, hu⟩ := h
  exact ⟨⟨hsr, by simpa using hv, hd, by cases u <;> exact hu⟩, rfl, nofun⟩

theorem State.agreeOn.oscAt {j : Fin 3} (h : State.agreeOn (.osc j) s s') : s.oscAt j = s'.oscAt j := by
  obtain ⟨-, -, -, hr⟩ := h; exact hr

theorem State.agreeOn.envAt {j : Fin 1} (h : State.agreeOn (.env j) s s') : s.envAt j = s'.envAt j := by
  obtain ⟨-, -, -, hr⟩ := h; exact hr

theorem State.agreeOn.lfoAt {j : Fin 2} (h : State.agreeOn (.lfo j) s s') : s.lfoAt j = s'.lfoAt j := by
  obtain ⟨-, -, -, hr⟩ := h; exact hr

theorem State.agreeOn.filtAt {j : Fin 1} (h : State.agreeOn (.filt j) s s') : s.filtAt j = s'.filtAt j := by
  obtain ⟨-, -, -, hr⟩ := h; exact hr

theorem State.agreeOn.sr_eq (h : State.agreeOn u s s') : s.sr = s'.sr := h.1

theorem State.agreeOn.srValid_eq (h : State.agreeOn u s s') : s.srValid = s'.srValid := h.2.1

theorem State.agreeOn.nextPhaseDraw_eq (h : State.agreeOn u s s') : s.nextPhaseDraw = s'.nextPhaseDraw := by
  obtain ⟨-, -, hd, -⟩ := h; exact congrArg phaseDraw hd

theorem State.agreeOn.nextHeldDraw_eq (h : State.agreeOn u s s') : s.nextHeldDraw = s'.nextHeldDraw := by
  obtain ⟨-, -, hd, -⟩ := h; exact congrArg heldDraw hd

/-- Both outcomes are next states, alike for a command to register file `u`. -/
def Alike (u : RegFile) (r r' : Result) : Prop := ∃ t t', r = .next t ∧ r' = .next t' ∧ State.alike u t t'

theorem alike_next (h : State.alike u t t') : Alike u (.next t) (.next t') := ⟨t, t', rfl, rfl, h⟩

/-! One rule per check of R137: it comes out the same in both states. -/

theorem alike_onInstance {n : Nat} {idx : BitVec 4} {file : Fin n → RegFile} {rest rest' : Fin n → Result}
    (hu : (if h : idx.toNat < n then some (file ⟨idx.toNat, h⟩) else none) = some u) (ha : State.agreeOn u s s')
    (h : ∀ j, State.agreeOn (file j) s s' → Alike (file j) (rest j) (rest' j)) :
    Alike u (onInstance n idx s rest) (onInstance n idx s' rest') := by
  by_cases hn : idx.toNat < n
  · rw [dif_pos hn] at hu
    obtain rfl := Option.some.inj hu
    rw [onInstance_present hn, onInstance_present hn]
    exact h _ ha
  · rw [dif_neg hn] at hu
    cases hu

theorem alike_numberOperand {cmd : CmdWord} {v : F64} {r r' : Result} (ha : State.agreeOn u s s') (h : Alike u r r') :
    Alike u (numberOperand cmd v s r) (numberOperand cmd v s' r') := by
  cases hv : Fp.isNaN v
  · rwa [numberOperand_number hv, numberOperand_number hv]
  · rw [numberOperand_nan hv, numberOperand_nan hv]
    exact alike_next (ha.raise _ _ _ _)

theorem alike_requireSr {cmd : CmdWord} {r r' : Result} (ha : State.agreeOn u s s') (h : Alike u r r') :
    Alike u (requireSr cmd s r) (requireSr cmd s' r') := by
  cases hv : s.srValid
  · rw [requireSr_unconfigured hv, requireSr_unconfigured (ha.srValid_eq ▸ hv)]
    exact alike_next (ha.raise _ _ _ _)
  · rwa [requireSr_configured hv, requireSr_configured (ha.srValid_eq ▸ hv)]

theorem alike_selOperand {α : Type} {cmd : CmdWord} {meaning : Option α} {rest rest' : α → Result}
    (ha : State.agreeOn u s s') (h : ∀ a, Alike u (rest a) (rest' a)) :
    Alike u (selOperand cmd meaning s rest) (selOperand cmd meaning s' rest') := by
  cases meaning with
  | none => exact alike_next (ha.raise _ _ _ _)
  | some a => exact h a

theorem alike_ite {p : Prop} [Decidable p] {a b a' b' : Result} (ha : Alike u a a') (hb : Alike u b b') :
    Alike u (if p then a else b) (if p then a' else b') := by
  split_ifs
  · exact ha
  · exact hb

/-- A command to a register file reads that file, `SR` and the next draw: it ends alike in agreeing states. -/
theorem alike_exec (hu : i.target = some u) (ha : State.agreeOn u s s') : Alike u (exec i s) (exec i s') := by
  cases i <;> dsimp only [exec]
  case sysSetSr => cases hu
  case oscSetFreq | oscSetPw =>
    exact alike_onInstance hu ha fun j ha =>
      alike_numberOperand ha (alike_next (ha.setOsc (by rw [ha.oscAt])).noResult)
  case oscSetWave =>
    exact alike_selOperand ha fun w => alike_onInstance hu ha fun j ha =>
      alike_next (ha.setOsc (by rw [ha.oscAt])).noResult
  case oscTick =>
    exact alike_onInstance hu ha fun j ha => alike_requireSr ha
      (alike_next ((ha.setOsc (by rw [ha.oscAt, ha.sr_eq])).returnsSample (by rw [ha.oscAt, ha.sr_eq])))
  case oscReset =>
    exact alike_onInstance hu ha fun j ha => alike_next (ha.setOsc (by rw [ha.oscAt])).noResult
  case oscRandPhase =>
    exact alike_onInstance hu ha fun j ha =>
      alike_next (ha.setOsc (by rw [ha.oscAt, ha.nextPhaseDraw_eq])).drawn.noResult
  case oscGetPhase =>
    exact alike_onInstance hu ha fun j ha => alike_next (ha.returns (by rw [ha.oscAt]))
  case envSetAttack | envSetDecay | envSetSustain | envSetRelease | envNoteOn =>
    exact alike_onInstance hu ha fun j ha =>
      alike_numberOperand ha (alike_next (ha.setEnv (by rw [ha.envAt])).noResult)
  case envNoteOff =>
    exact alike_onInstance hu ha fun j ha =>
      alike_requireSr ha (alike_next (ha.setEnv (by rw [ha.envAt, ha.sr_eq])).noResult)
  case envTick =>
    exact alike_onInstance hu ha fun j ha => alike_requireSr ha
      (alike_next ((ha.setEnv (by rw [ha.envAt, ha.sr_eq])).returnsSample (by rw [ha.envAt, ha.sr_eq])))
  case envReset =>
    exact alike_onInstance hu ha fun j ha => alike_next (ha.setEnv (by rw [ha.envAt])).noResult
  case envGetState | envIsActive | envGetLevel =>
    exact alike_onInstance hu ha fun j ha => alike_next (ha.returns (by rw [ha.envAt]))
  case lfoSetRate | lfoSetBpm | lfoSetDepth =>
    exact alike_onInstance hu ha fun j ha =>
      alike_numberOperand ha (alike_next (ha.setLfo (by rw [ha.lfoAt])).noResult)
  case lfoSetWave | lfoSetRateMode | lfoSetSyncDiv =>
    exact alike_selOperand ha fun a => alike_onInstance hu ha fun j ha =>
      alike_next (ha.setLfo (by rw [ha.lfoAt])).noResult
  case lfoTick =>
    refine alike_onInstance hu ha fun j ha => alike_requireSr ha ?_
    dsimp only
    rw [ha.lfoAt, ha.sr_eq, ha.nextHeldDraw_eq]
    exact alike_ite (alike_next ((ha.setLfo rfl).drawn.returnsSample rfl))
      (alike_next ((ha.setLfo rfl).returnsSample rfl))
  case lfoPeek =>
    exact alike_onInstance hu ha fun j ha => alike_next (ha.returnsSample (by rw [ha.lfoAt]))
  case lfoReset =>
    exact alike_onInstance hu ha fun j ha =>
      alike_next (ha.setLfo (by rw [ha.lfoAt, ha.nextHeldDraw_eq])).drawn.noResult
  case filtSetCutoff | filtSetRes =>
    exact alike_onInstance hu ha fun j ha =>
      alike_numberOperand ha (alike_next (ha.setFilt (by rw [ha.filtAt])).noResult)
  case filtSetMode =>
    exact alike_selOperand ha fun m => alike_onInstance hu ha fun j ha =>
      alike_next (ha.setFilt (by rw [ha.filtAt])).noResult
  case filtTick =>
    refine alike_onInstance hu ha fun j ha => alike_requireSr ha ?_
    dsimp only
    rw [ha.filtAt, ha.sr_eq]
    exact alike_next ((ha.setFilt rfl).returnsSample rfl)
  case filtReset =>
    exact alike_onInstance hu ha fun j ha => alike_next (ha.setFilt (by rw [ha.filtAt])).noResult

end

/-- Settles O21: every check and every write of a command comes out the same in two agreeing states. -/
theorem commandSeesItsInstance : Obligations.CommandSeesItsInstance := by
  intro i u s s' hu ha
  obtain ⟨t, t', ht, ht', hagree, hresult⟩ := alike_exec hu ha
  exact ⟨t, t', ht, ht', hagree, hresult⟩

end Sys2Proof.Machine

/-! ### Bytes on the ports and words from the table (R105, R132) -/

namespace Sys2Proof

/-- Byte `k` of a little-endian word is its bits from `8 * k` up (R105). -/
theorem getElem?_portBytes {n k : Nat} (w : Nat) (h : k < n) :
    (portBytes n w)[k]? = some (BitVec.ofNat 8 (w / 256 ^ k)) := by
  induction n generalizing k w with
  | zero => exact absurd h (Nat.not_lt_zero k)
  | succ n ih =>
    cases k with
    | zero => simp [portBytes]
    | succ k =>
      rw [portBytes, List.getElem?_cons_succ, ih _ (Nat.lt_of_succ_lt_succ h), Nat.div_div_eq_div_mul, pow_succ']

/-- Digit `k` of a word to the base 256 is its bits from `8 * k` up. -/
theorem ofNat_div_eq_extractLsb' {m : Nat} (w : BitVec m) (k : Nat) :
    BitVec.ofNat 8 (w.toNat / 256 ^ k) = w.extractLsb' (8 * k) 8 := by
  apply BitVec.eq_of_toNat_eq
  rw [BitVec.toNat_ofNat, BitVec.extractLsb'_toNat, Nat.shiftRight_eq_div_pow, pow_mul]
  rfl

/-- Settles O5: the bytes of each port are its word to the base 256, and the two ports' bytes are taken apart by their
number. -/
theorem portBytesLittleEndian : Obligations.PortBytesLittleEndian := by
  intro c
  have hcmd : (portBytes 4 c.cmd.toNat).length = 4 := portBytes_length 4 _
  have hopd : (portBytes 8 c.opd.toNat).length = 8 := portBytes_length 8 _
  refine ⟨?_, fun n hn => ?_, fun n hn => ?_⟩
  · rw [commandOfBytes, bytesOfCommand, if_pos (by simp [hcmd, hopd]), List.take_left' hcmd, List.drop_left' hcmd,
      portWord_portBytes, portWord_portBytes, Nat.mod_eq_of_lt (show c.cmd.toNat < 256 ^ 4 from c.cmd.isLt),
      Nat.mod_eq_of_lt (show c.opd.toNat < 256 ^ 8 from c.opd.isLt),
      BitVec.ofNat_toNat, BitVec.ofNat_toNat, BitVec.setWidth_eq, BitVec.setWidth_eq]
  · rw [bytesOfCommand, List.getElem?_append_left (hcmd.symm ▸ hn), getElem?_portBytes _ hn, ofNat_div_eq_extractLsb']
  · rw [bytesOfCommand, List.getElem?_append_right (hcmd.symm ▸ Nat.le_add_right 4 n), hcmd, Nat.add_sub_cancel_left, getElem?_portBytes _ hn,
      ofNat_div_eq_extractLsb']

/-- Settles O4: each word is made of its fields, and the last has a reserved bit set; the row of a legal one evaluates
to its command whatever the operand. -/
theorem wordsDecode : Obligations.WordsDecode := by
  intro v
  have word {u o : Nat} (idx sel : BitVec 4) {r : Except Illegal Instr} (h : decodeFields u o idx sel v = r)
      (hu : u < 16 := by decide) (ho : o < 16 := by decide) : decode ⟨cmdWordOf u o idx sel, v⟩ = r :=
    (decode_cmdWordOf hu ho idx sel v).trans h
  have sevenOfSix : takesSel 6 7 (.lfoSetSyncDiv 1 7) = .error .selOutOfRange := if_neg (by decide)
  have selOfTick : takesNoSel 1 (.oscTick 0) = .error .selNotTaken := if_neg (by decide)
  have reserved : reservedOf 0x13000010#32 ≠ 0 := by decide
  exact ⟨word (u := 0) (o := 1) 0 0 rfl, word (u := 1) (o := 1) 2 2 rfl, word (u := 1) (o := 3) 1 0 rfl,
    word (u := 2) (o := 4) 0 0 rfl, word (u := 2) (o := 10) 15 0 rfl, word (u := 3) (o := 3) 1 6 rfl,
    word (u := 4) (o := 3) 0 0 rfl, word (u := 3) (o := 3) 1 7 sevenOfSix, word (u := 1) (o := 3) 0 1 selOfTick,
    decode_reservedBits reserved⟩

namespace Machine

/-! ### The host's list (R13, R401, R450) -/

/-- Settles O6, by what the host does next. -/
theorem stepRunsCommand : Obligations.StepRunsCommand := by
  refine ⟨?legal, ?illegal, fun s hh => step_idle hh, fun s nbits w => step_command rfl⟩
  case legal => exact fun s c rest i hh hf hd => (step_command hh).trans (perform_legal hf hd)
  case illegal => exact fun s c rest e hh hf hd => (step_command hh).trans (perform_illegal hf hd)

/-- A list of commands leaves a stuck block as it is and produces no result (R401). -/
theorem runCommands_stuck {s : State} (hf : s.faulted = true) (cs : List Command) : runCommands cs s = ([], s) := by
  induction cs with
  | nil => rfl
  | cons c cs ih => simp [runCommands_cons (perform_stuck hf c), ih, hf]

/-- Settles O7: a stuck block ignores a command, and so a list of them; the host's list may also be empty, or begin with
the power cycle that ends the fault. -/
theorem stuckBlock : Obligations.StuckBlock := by
  refine ⟨fun c s hf => perform_stuck hf c, fun cs s hf => ?_, fun s t hf ht => ?_⟩
  · have hrun := runCommands_stuck hf cs
    exact ⟨hrun, by simp [endsWithoutFault, hrun, hf]⟩
  · match hh : s.host with
    | [] => exact .inl (next_inj ((step_idle hh).symm.trans ht) ▸ hf)
    | .powerOn :: rest => exact .inr ⟨rest, rfl⟩
    | .command c :: rest =>
      rw [step_command hh, perform_stuck (s := { s with host := rest }) hf] at ht
      exact .inl (next_inj ht ▸ hf)

/-- Settles O10: the power-on state meets the invariant in every run. -/
theorem resetMeetsInvariant : Obligations.ResetMeetsInvariant :=
  State.powerOn_inv 0 0 []

section
variable (run draws : Nat) (host : List HostInput)

/-! Each register file has its own power-on values, an LFO its own draw (R450). -/

theorem State.powerOn_oscAt : ∀ i : Fin 3, (State.powerOn run draws host).oscAt i = OscRegs.powerOn run i :=
  Fin.forall_fin_succ.2 ⟨rfl, Fin.forall_fin_two.2 ⟨rfl, rfl⟩⟩

theorem State.powerOn_envAt : ∀ i : Fin 1, (State.powerOn run draws host).envAt i = EnvRegs.powerOn run i :=
  Fin.forall_fin_one.2 rfl

theorem State.powerOn_lfoAt : ∀ i : Fin 2,
    (State.powerOn run draws host).lfoAt i = LfoRegs.powerOn run i (draws + i) :=
  Fin.forall_fin_two.2 ⟨rfl, rfl⟩

theorem State.powerOn_filtAt : ∀ i : Fin 1, (State.powerOn run draws host).filtAt i = FiltRegs.powerOn run i :=
  Fin.forall_fin_one.2 rfl

end

/-- Settles O8: the fixed values are those written in the power-on state, and the ranges are the legal ones. -/
theorem powerOnState : Obligations.PowerOnState := by
  refine ⟨rfl, fun run draws host => ?_⟩
  refine ⟨rfl, (by decide : statusSrValid 0 = false), rfl, rfl, rfl, fun i => ?_, fun i => ?_, fun i => ?_, fun i => ?_⟩
  · rw [State.powerOn_oscAt]
    obtain ⟨hf, hw, -⟩ := OscRegs.legal_iff.1 (OscRegs.legal_powerOn run i)
    exact ⟨rfl, hf, hw⟩
  · rw [State.powerOn_envAt]
    obtain ⟨ha, hd, hs, hr, -⟩ := EnvRegs.legal_iff.1 (EnvRegs.legal_powerOn run i)
    exact ⟨rfl, rfl, rfl, rfl, ha, hd, hs, hr⟩
  · rw [State.powerOn_lfoAt]
    obtain ⟨hr, hb, hd, -, -, hh⟩ := LfoRegs.legal_iff.1 (LfoRegs.legal_powerOn run i (draws + i))
    exact ⟨rfl, rfl, hh, hr, hb, hd⟩
  · rw [State.powerOn_filtAt]
    obtain ⟨hc, hr, -⟩ := FiltRegs.legal_iff.1 (FiltRegs.legal_powerOn run i)
    exact ⟨rfl, rfl, hc, hr⟩

/-! ### A run performs the host's list (R13) -/

/-- The state with `l` as what the host is going to do. -/
def State.withHost (s : State) (l : List HostInput) : State := { s with host := l }

/-- An outcome whose state has `l` as what the host is going to do. -/
def rehost (l : List HostInput) : Result → Result
  | .next t => .next (t.withHost l)
  | .fault r => .fault r
  | .refused r => .refused r

section
variable {s : State} (l : List HostInput)

/-! No check of R137 looks at the host's list. -/

theorem rehost_onInstance {n : Nat} {idx : BitVec 4} {rest rest' : Fin n → Result}
    (h : ∀ j, rest' j = rehost l (rest j)) :
    onInstance n idx (s.withHost l) rest' = rehost l (onInstance n idx s rest) := by
  unfold onInstance; split
  · exact h _
  · rfl

theorem rehost_numberOperand {cmd : CmdWord} {v : F64} {rest rest' : Result} (h : rest' = rehost l rest) :
    numberOperand cmd v (s.withHost l) rest' = rehost l (numberOperand cmd v s rest) := by
  unfold numberOperand; split
  · rfl
  · exact h

theorem rehost_requireSr {cmd : CmdWord} {rest rest' : Result} (h : rest' = rehost l rest) :
    requireSr cmd (s.withHost l) rest' = rehost l (requireSr cmd s rest) := by
  unfold requireSr
  change (if s.srValid then _ else _) = _
  split
  · exact h
  · rfl

theorem rehost_selOperand {α : Type} {cmd : CmdWord} {meaning : Option α} {rest rest' : α → Result}
    (h : ∀ a, rest' a = rehost l (rest a)) :
    selOperand cmd meaning (s.withHost l) rest' = rehost l (selOperand cmd meaning s rest) := by
  cases meaning with
  | none => rfl
  | some a => exact h a

theorem rehost_ite {p : Prop} [Decidable p] {a b a' b' : Result} (ha : a' = rehost l a) (hb : b' = rehost l b) :
    (if p then a' else b') = rehost l (if p then a else b) := by
  rw [ha, hb]; exact (apply_ite (rehost l) p a b).symm

/-- A command does the same whatever the host is going to do next. -/
theorem exec_withHost (i : Instr) : exec i (s.withHost l) = rehost l (exec i s) := by
  cases i <;> dsimp only [exec]
  case sysSetSr idx v => exact rehost_onInstance l fun _ => rehost_ite l rfl rfl
  case oscSetFreq | oscSetPw | envSetAttack | envSetDecay | envSetSustain | envSetRelease | envNoteOn | lfoSetRate |
      lfoSetBpm | lfoSetDepth | filtSetCutoff | filtSetRes =>
    exact rehost_onInstance l fun _ => rehost_numberOperand l rfl
  case oscSetWave | lfoSetWave | lfoSetRateMode | lfoSetSyncDiv | filtSetMode =>
    exact rehost_selOperand l fun _ => rehost_onInstance l fun _ => rfl
  case oscTick | envNoteOff | envTick | filtTick => exact rehost_onInstance l fun _ => rehost_requireSr l rfl
  case lfoTick => exact rehost_onInstance l fun _ => rehost_requireSr l (by exact rehost_ite l rfl rfl)
  all_goals exact rehost_onInstance l fun _ => rfl

theorem perform_withHost (c : Command) : perform c (s.withHost l) = rehost l (perform c s) := by
  cases hf : s.faulted
  · cases hd : decode c with
    | error e => rw [perform_illegal (s := s.withHost l) hf hd, perform_illegal hf hd]; rfl
    | ok i => rw [perform_legal (s := s.withHost l) hf hd, perform_legal hf hd, exec_withHost]
  · rw [perform_stuck (s := s.withHost l) hf, perform_stuck hf]; rfl

theorem perform_total (s : State) (c : Command) : ∃ t, perform c s = .next t := by
  cases hf : s.faulted
  · cases hd : decode c with
    | error e => exact ⟨_, perform_illegal hf hd⟩
    | ok i =>
      obtain ⟨t, ht, -⟩ := exec_ends_in_effect i s
      exact ⟨t, (perform_legal hf hd).trans ht⟩
  · exact ⟨s, perform_stuck hf c⟩

end

/-- A run of one step more goes on from the state of its first step. -/
theorem run_succ (M : Host.Core) {n : Nat} {s t : M.State} (h : M.step s = .next t) : M.run (n + 1) s = M.run n t := by
  change (match M.step s with | .next s' => M.run n s' | .fault r => .fault r | .refused r => .refused r) = _
  rw [h]

/-- Whatever stands in the host's list after the commands of a run, they leave the same state but for it. -/
theorem run_commands (cs : List Command) (s : State) :
    core.run cs.length (s.withHost (commands cs)) = .next (runCommands cs (s.withHost [])).2 := by
  induction cs generalizing s with
  | nil => rfl
  | cons c cs ih =>
    obtain ⟨t, ht⟩ := perform_total s c
    have hstep : core.step (s.withHost (commands (c :: cs))) = .next (t.withHost (commands cs)) := by
      calc step (s.withHost (commands (c :: cs))) = perform c (s.withHost (commands cs)) := step_command rfl
        _ = rehost (commands cs) (perform c s) := perform_withHost _ c
        _ = .next (t.withHost (commands cs)) := congrArg (rehost _) ht
    have hnext : perform c (s.withHost []) = .next (t.withHost []) :=
      (perform_withHost _ c).trans (congrArg (rehost _) ht)
    exact (run_succ core hstep).trans ((ih t).trans (by rw [runCommands_cons hnext]))

/-- Settles O12, by induction on the list of commands, with the state free. -/
theorem runEndsAfterItsCommands : Obligations.RunEndsAfterItsCommands := by
  intro cs s hh
  have hs : s = s.withHost (commands cs) := by rw [← hh]; rfl
  rw [hs]
  exact run_commands cs s

end Machine

/-- Settles O9: the step is the power-on, whose `STATUS` is 0. -/
theorem powerCycle : Obligations.PowerCycle :=
  fun _ _ hh => ⟨_, Machine.step_powerOn hh, rfl, (by decide : statusFaulted 0 = false)⟩

end Sys2Proof

/-! ### Draws, ticks and reads (R211, R257 to R263, R306 to R310) -/

namespace Sys2Proof.Machine

section
variable {s : State}

theorem exec_oscRandPhase (i : Fin 3) : exec (.oscRandPhase (instIdx i)) s =
    .next (s.setOsc i { s.oscAt i with phase := s.nextPhaseDraw }).drawn.noResult := by
  rw [exec, execOscRandPhase, onInstance_instIdx (by decide)]

theorem exec_lfoPeek (i : Fin 2) : exec (.lfoPeek (instIdx i)) s = .next (s.returnsSample (s.lfoAt i).output) := by
  rw [exec, execLfoPeek, onInstance_instIdx (by decide)]

theorem exec_lfoReset (i : Fin 2) : exec (.lfoReset (instIdx i)) s =
    .next (s.setLfo i
      { s.lfoAt i with phase := F.ZERO, lastPhase := F.ZERO, held := s.nextHeldDraw }).drawn.noResult := by
  rw [exec, execLfoReset, onInstance_instIdx (by decide)]

end

/-- Settles O35: the phase is the next draw, whatever it is. -/
theorem oscRandPhase : Obligations.OscRandPhase := fun i s =>
  ⟨cmdWordOf_instIdx_noSel 1 5 i, s.nextPhaseDraw, phaseDraw_isPhase s.draws, exec_oscRandPhase i⟩

/-- Settles O46: the held value is the next draw, whatever it is. -/
theorem lfoReset : Obligations.LfoReset := fun i s =>
  ⟨cmdWordOf_instIdx_noSel 3 8 i, s.nextHeldDraw, heldDraw_inRange s.draws, exec_lfoReset i⟩

/-- Level and state after one step of the envelope, as the rules give them state by state (R258 to R262). -/
def EnvRegs.afterTick (sr : F64) (r : EnvRegs) : F64 × EnvState :=
  match r.state with
  | .idle => (r.level, .idle)
  | .attack =>
    let l := Fp.add r.level (attackRate sr r)
    if Fp.le F.ONE l then (F.ONE, .decay) else (l, .attack)
  | .decay =>
    let l := Fp.sub r.level (decayRate sr r)
    if Fp.le l r.sustain then (r.sustain, .sustain) else (l, .decay)
  | .sustain => (r.sustain, .sustain)
  | .release =>
    let l := Fp.sub r.level r.releaseRate
    if Fp.le l F.ZERO then (F.ZERO, .idle) else (l, .release)

/-- A step writes level and state alone (R257). -/
theorem EnvRegs.tick_eq (sr : F64) (r : EnvRegs) :
    r.tick sr = { r with level := (r.afterTick sr).1, state := (r.afterTick sr).2 } := by
  rcases r with ⟨attack, decay, sustain, release, state, level, velocity, releaseRate⟩
  cases state with
  | idle | sustain => rfl
  | attack => simp only [EnvRegs.tick, EnvRegs.attackStep, EnvRegs.afterTick]; split_ifs <;> rfl
  | decay => simp only [EnvRegs.tick, EnvRegs.decayStep, EnvRegs.afterTick]; split_ifs <;> rfl
  | release => simp only [EnvRegs.tick, EnvRegs.releaseStep, EnvRegs.afterTick]; split_ifs <;> rfl

/-- Settles O39: the level and the state after the step are the rules' formulas. -/
theorem envTick : Obligations.EnvTick := by
  intro i s
  have hword : (Instr.envTick (instIdx i)).cmdWord = 0x26000000#32 ||| idxBits i := cmdWordOf_instIdx_noSel 2 6 i
  refine ⟨hword, fun hs => ?_, fun hs => ?_⟩
  · rw [exec_envTick i hs, EnvRegs.tick_eq]
    rfl
  · rw [← hword]
    exact exec_notConfigured rfl (present_of (by decide) i rfl rfl) rfl hs

/-- A configured tick of LFO `j`, whether it wraps or not: `held` and the draw count change exactly where it does
(R308). -/
theorem exec_lfoTick_eq {s : State} (j : Fin 2) (hs : s.srValid = true) :
    exec (.lfoTick (instIdx j)) s =
      let r := (s.lfoAt j).advance (lfoIncrement s.sr (s.lfoAt j))
      let r' := { r with held := if r.wrapped then s.nextHeldDraw else r.held }
      .next { (s.setLfo j r').returnsSample r'.output with draws := if r.wrapped then s.draws + 1 else s.draws } := by
  rw [exec_lfoTick j hs]
  dsimp only
  split_ifs <;> rfl

/-- Settles O44: the advance, the shape and the draw are the rules' formulas. -/
theorem lfoTick : Obligations.LfoTick := by
  intro i s
  have hword : (Instr.lfoTick (instIdx i)).cmdWord = 0x36000000#32 ||| idxBits i := cmdWordOf_instIdx_noSel 3 6 i
  refine ⟨hword, fun hs => ?_, fun hs => ?_⟩
  · rw [exec_lfoTick_eq i hs]
    rfl
  · rw [← hword]
    exact exec_notConfigured rfl (present_of (by decide) i rfl rfl) rfl hs

/-- Where the result port holds the value of an LFO's registers, a peek changes nothing (R309). -/
theorem exec_lfoPeek_of_output {s : State} {i : Fin 2} {r : LfoRegs} (h : s.lfoAt i = r) :
    exec (.lfoPeek (instIdx i)) (s.returnsSample r.output) = .next (s.returnsSample r.output) := by
  rw [exec_lfoPeek, State.returnsSample_lfoAt, h]
  rfl

/-- Settles O45: a tick, wrapping or not, returns the value of the registers it leaves. -/
theorem lfoPeek : Obligations.LfoPeek := by
  intro i s
  refine ⟨cmdWordOf_instIdx_noSel 3 7 i, exec_lfoPeek i, fun t hs ht => ?_⟩
  rw [exec_lfoTick i hs] at ht
  dsimp only at ht
  split at ht <;> obtain rfl := next_inj ht <;> exact exec_lfoPeek_of_output (by simp)

end Sys2Proof.Machine

namespace Sys2Proof
open Fp

/-! ### The configuration functions (R12, R362) -/

/-- `SIN` of a NaN or an infinity is a NaN (R12). -/
theorem isNaN_SIN {x : F64} (hx : isFinite x = false) : isNaN (SIN x) = true := by
  have h0 : x ≠ F.ZERO := by rintro rfl; exact absurd hx (by decide)
  simp [SIN, h0, hx, isNaN_qNaN]

/-- `TANH` of either zero is that zero (R12). -/
theorem TANH_of_isZero {x : F64} (hx : isZero x = true) : TANH x = x := by
  have hN : isNaN x = false := by
    have hm : mag x = 0 := of_decide_eq_true hx
    simp [isNaN, hm]
  simp [TANH, hN, hx]

theorem TANH_pack_inf (b : Bool) : TANH (pack b infMag) = if b then F.MINUS_ONE else F.ONE := by
  have hmag : mag (pack b infMag) = infMag := mag_pack infMag_lt
  have hz : isZero (pack b infMag) = false := Machine.isZero_of_pos (by rw [hmag]; decide)
  simp [TANH, isNaN_pack_inf, hz, isInf, hmag, neg?_pack infMag_lt]

/-- Settles O57: each clause is a range of the function, or its definition at a special argument. -/
theorem configurationFunctions : Obligations.ConfigurationFunctions := by
  refine ⟨SIN_zero, fun x hx => ⟨?_, SIN_inRange hx⟩, fun x hx => isNaN_SIN hx, TAN_zero, fun x h0 h1 => TAN_pos h0 h1,
    fun x hx => TANH_of_isZero hx, fun x hx => ⟨TANH_inRange (isNaN_of_isFinite hx), TANH_odd hx⟩,
    TANH_pack_inf false, TANH_pack_inf true, fun x hx => ?_, RES_COMP_finite, fun _ _ => RES_COMP_ge_one, RES_COMP_zero⟩
  · exact Machine.finite_of_inRange (by decide) (by decide) (SIN_inRange hx)
  · simp [TANH, hx, isNaN_qNaN]

end Sys2Proof

/-! ### The filter's output is bounded (R364) -/

namespace Sys2Proof
open Fp

namespace Fp

/-- Adding a finite number to a number gives a number. -/
theorem isNaN_add_of_finite {x y : F64} (hx : isNaN x = false) (hy : isFinite y = true) : isNaN (add x y) = false := by
  cases hi : isInf x
  · exact isNaN_add_finite (by simp [isFinite_eq, hx, hi]) hy
  · simp [add, hx, hi, isNaN_of_isFinite hy, isInf_of_isFinite hy]

theorem isNaN_sub_of_finite {x y : F64} (hx : isNaN x = false) (hy : isFinite y = true) : isNaN (sub x y) = false :=
  isNaN_add_of_finite hx (by simpa using hy)

/-- A number times a finite number other than zero is a number. -/
theorem isNaN_mul_of_finite {x y : F64} (hx : isNaN x = false) (hy : isFinite y = true) (h0 : isZero y = false) :
    isNaN (mul x y) = false := by
  cases hi : isInf x
  · rw [mul_finite (by simp [isFinite_eq, hx, hi]) hy]
    exact isNaN_round _ _ _
  · have hz : isZero x = false := by
      have hm : mag x = infMag := by simpa [isInf] using hi
      exact Machine.isZero_of_pos (hm ▸ by decide +kernel)
    simp [mul, hx, hi, hz, h0, isNaN_of_isFinite hy, isNaN_pack_inf]

end Fp

namespace Machine

/-- A cutoff over a sample rate is positive: the rate, below 2^1024, does not
take the quotient under the least subnormal. -/
theorem div_cutoff_pos {cutoff sr : F64} (hc : inRange CUTOFF_MIN CUTOFF_MAX cutoff = true)
    (hs : isSampleRate sr = true) : lt F.ZERO (div cutoff sr) = true := by
  obtain ⟨hsf, hsn, hs1⟩ := sampleRate_facts hs
  have hcn := nonneg_of_inRange (by decide +kernel) hc
  have hcf := finite_of_inRange (by decide +kernel) (by decide +kernel) hc
  have hz : isZero sr = false := by
    cases h : isZero sr
    · rfl
    · rw [show mag sr = 0 by simpa [isZero] using h, magValue_zero] at hs1
      exact absurd hs1 one64_pos.not_ge
  have hn := nonneg_div hcn hsn hcf hz
  have hpos : 0 < mag (div cutoff sr) := by
    obtain ⟨hcN, hcs⟩ := nonneg_iff.1 hcn
    obtain ⟨hsN, hss⟩ := nonneg_iff.1 hsn
    have hexact : magValue 52 1 * magValue 52 (mag sr) ≤ magValue 52 (mag cutoff) * one64 := by
      calc magValue 52 1 * magValue 52 (mag sr) ≤ magValue 52 1 * magValue 52 infMag :=
            Nat.mul_le_mul_left _ (magValue_le_iff.2 (of_decide_eq_true hsf).le)
        _ ≤ magValue 52 (mag CUTOFF_MIN) * one64 := by decide +kernel
        _ ≤ magValue 52 (mag cutoff) * one64 :=
            Nat.mul_le_mul_right _ (magValue_le_iff.2 (mag_le_of_inRange (by decide +kernel) hc).1)
    have hden : 0 < magValue 52 (mag sr) := one64_pos.trans_le hs1
    simp only [div, hcN, hsN, isInf_of_isFinite hcf, isInf_of_isFinite hsf, hz, Bool.or_self, Bool.false_eq_true,
      if_false]
    rw [mag_round]
    exact Nat.lt_min.2 ⟨le_roundMag hden hexact, by decide⟩
  have h0 : ordKey F.ZERO = 0 := by decide +kernel
  rw [lt_iff, ordKey_of_nonneg hn, h0]
  exact ⟨by decide +kernel, (nonneg_iff.1 hn).1, Int.natCast_pos.2 hpos⟩

/-- The ratio of R353 and R362 lies in (0, 0.45]. -/
theorem filtRatio_range {cutoff sr : F64} (hc : inRange CUTOFF_MIN CUTOFF_MAX cutoff = true)
    (hs : isSampleRate sr = true) :
    lt F.ZERO (filtRatio cutoff sr) = true ∧ le (filtRatio cutoff sr) FC_MAX_RATIO = true := by
  have hpos := div_cutoff_pos hc hs
  obtain ⟨-, hN, hk⟩ := lt_iff.1 hpos
  refine ⟨?_, (inRange_iff.1 (clamp_inRange hN (by decide +kernel))).2⟩
  unfold filtRatio clamp
  split_ifs with hlow
  · exact absurd (lt_iff.1 hlow).2.2 hk.asymm
  · decide +kernel
  · exact hpos

/-- On legal registers the compensation is a finite number of at least 1 (R362). -/
theorem gain_facts {r : FiltRegs} {sr : F64} (h : r.legal = true) (hs : isSampleRate sr = true) :
    isFinite (RES_COMP r.res (filtRatio r.cutoff sr)) = true ∧
      isZero (RES_COMP r.res (filtRatio r.cutoff sr)) = false := by
  obtain ⟨hc, hr, -⟩ := FiltRegs.legal_iff.1 h
  obtain ⟨hpos, hle⟩ := filtRatio_range hc hs
  have hone := RES_COMP_ge_one hr hpos hle
  have hlt : lt F.ZERO (RES_COMP r.res (filtRatio r.cutoff sr)) = true := by
    obtain ⟨-, hN, hk⟩ := le_iff.1 hone
    have h01 : ordKey F.ZERO < ordKey F.ONE := by decide +kernel
    exact lt_iff.2 ⟨by decide +kernel, hN, h01.trans_le hk⟩
  exact ⟨RES_COMP_finite _ _, (nonneg_nonzero_of_pos hlt).2⟩

/-- A cascade of finite stages was driven by a number: a NaN runs through all four (R357, R358). -/
theorem isNaN_of_cascade_finite {s : Stages} {g v : F64} (h : (s.cascade g (TANH v)).isFinite = true) :
    isNaN v = false := by
  by_contra hv
  have hu : TANH v = qNaN := by simp [TANH, hv]
  simp [hu, Stages.cascade, stageStep, Stages.isFinite] at h

theorem stage_finite {v : F64} (h : stageLegal v = true) : isFinite v = true := by
  simp only [stageLegal, Bool.and_eq_true] at h
  exact h.1

/-- What the mode selects from finite stages and a drive that is a number is a number (R361). -/
theorem isNaN_filtSelect {s : Stages} {v : F64} (hs : s.isFinite = true) (hv : isNaN v = false) (bp : BpVariant)
    (hp : HpSrc) (mode : FiltMode) : isNaN (filtSelect bp hp mode s v (TANH v)) = false := by
  simp only [Stages.isFinite, Bool.and_eq_true] at hs
  obtain ⟨⟨⟨h0, h1⟩, -⟩, h3⟩ := hs
  cases mode with
  | lowPass => exact isNaN_of_isFinite h3
  | bandPass =>
    cases bp with
    | s1MinusS4 => exact isNaN_sub_of_finite (isNaN_of_isFinite h0) h3
    | s2 => exact isNaN_of_isFinite h1
  | highPass =>
    cases hp with
    | v => exact isNaN_sub_of_finite hv h3
    | u => exact isNaN_sub_of_finite (isNaN_of_inRange (TANH_inRange hv)) h3

theorem Stages.isFinite_clampTo {t : Stages} (h : t.isFinite = true) : (t.clampTo CLAMP_BOUND).isFinite = true := by
  simp only [Stages.isFinite, Bool.and_eq_true] at h ⊢
  obtain ⟨⟨⟨h0, h1⟩, h2⟩, h3⟩ := h
  have clamped {v : F64} (hv : Fp.isFinite v = true) : Fp.isFinite (Machine.clampTo CLAMP_BOUND v) = true :=
    stage_finite (stageLegal_clampTo (isNaN_of_isFinite hv))
  exact ⟨⟨⟨clamped h0, clamped h1⟩, clamped h2⟩, clamped h3⟩

/-- The output of a sample is within the bound once it is rounded to binary32: it is +0, or a number times a gain that
is no zero, clamped (R359, R362). -/
theorem FiltRegs.output_returned {r : FiltRegs} {sr : F64} (h : r.legal = true) (hs : isSampleRate sr = true)
    (x : F64) : stageLegal (fromBinary32 (toBinary32 (r.sample sr x).2)) = true := by
  unfold FiltRegs.sample
  dsimp only
  split
  case isTrue hfin =>
    obtain ⟨hgf, hg0⟩ := gain_facts h hs
    have hsel := isNaN_filtSelect (Stages.isFinite_clampTo hfin) (isNaN_of_cascade_finite hfin) Config.bpVariant
      Config.hpSrc r.mode
    exact stageLegal_returned (isNaN_mul_of_finite hsel hgf hg0)
  case isFalse =>
    have hzero : fromBinary32 (toBinary32 F.ZERO) = F.ZERO := by decide +kernel
    rw [hzero]
    exact stageLegal_zero

/-- A configured `FILT.TICK` stores and returns one sample of the refreshed registers (R355). -/
theorem exec_filtTick_sample {s : State} (i : Fin 1) (x : F32) (hs : s.srValid = true) :
    exec (.filtTick (instIdx i) x) s =
      let out := ((s.filtAt i).refresh s.sr).sample s.sr (fromBinary32 x)
      .next ((s.setFilt i out.1).returnsSample out.2) := by
  rw [exec, execFiltTick, onInstance_instIdx (by decide), requireSr_configured hs]

/-- Settles O59: the refreshed registers are legal, so a sample keeps its stages and its output in the bound. -/
theorem filtOutputBounded : Obligations.FiltOutputBounded := by
  intro i x s hi hs
  have hlegal := FiltRegs.legal_refresh (hi.filt i) s.sr
  obtain ⟨-, -, h0, h1, h2, h3⟩ := FiltRegs.legal_iff.1 (FiltRegs.legal_sample hlegal s.sr (fromBinary32 x))
  have hout := FiltRegs.output_returned hlegal (hi.sr hs) (fromBinary32 x)
  refine ⟨_, exec_filtTick_sample i x hs, rfl, ?_⟩
  simp only [State.returnsSample_filtAt, State.setFilt_filtAt, State.returnsSample_res,
    BitVec.setWidth_setWidth_of_le _ (show 32 ≤ 64 by decide), BitVec.setWidth_eq]
  simp only [stageLegal, Bool.and_eq_true] at hout
  exact ⟨h0, h1, h2, h3, hout⟩

end Machine
end Sys2Proof

/-! ### Commands issued twice, and reads (R107, R452) -/

namespace Sys2Proof.Machine

section
variable {s t : State} {i : Instr} {P : State → Prop}

/-! A second write to the same register takes the place of the first. -/

@[simp] theorem State.noResult_noResult : s.noResult.noResult = s.noResult := rfl

@[simp] theorem State.noResult_setOsc (j : Fin 3) (r : OscRegs) :
    s.noResult.setOsc j r = (s.setOsc j r).noResult := rfl

@[simp] theorem State.noResult_setEnv (j : Fin 1) (r : EnvRegs) :
    s.noResult.setEnv j r = (s.setEnv j r).noResult := rfl

@[simp] theorem State.noResult_setLfo (j : Fin 2) (r : LfoRegs) :
    s.noResult.setLfo j r = (s.setLfo j r).noResult := rfl

@[simp] theorem State.noResult_setFilt (j : Fin 1) (r : FiltRegs) :
    s.noResult.setFilt j r = (s.setFilt j r).noResult := rfl

@[simp] theorem State.noResult_setSr (v : F64) : s.noResult.setSr v = (s.setSr v).noResult := rfl

@[simp] theorem State.setOsc_setOsc (j : Fin 3) (r r' : OscRegs) : (s.setOsc j r).setOsc j r' = s.setOsc j r' := by
  simp [State.setOsc]

@[simp] theorem State.setEnv_setEnv (j : Fin 1) (r r' : EnvRegs) : (s.setEnv j r).setEnv j r' = s.setEnv j r' := by
  simp [State.setEnv]

@[simp] theorem State.setLfo_setLfo (j : Fin 2) (r r' : LfoRegs) : (s.setLfo j r).setLfo j r' = s.setLfo j r' := by
  simp [State.setLfo]

@[simp] theorem State.setFilt_setFilt (j : Fin 1) (r r' : FiltRegs) :
    (s.setFilt j r).setFilt j r' = s.setFilt j r' := by
  simp [State.setFilt]

@[simp] theorem State.setSr_setSr (v : F64) : (s.setSr v).setSr v = s.setSr v := by
  simp [State.setSr, statusSetSrValid, BitVec.or_assoc]

/-- From `s` the command ends in a next state, and leaves that state as it is where it satisfies `P`. -/
def RepeatsIf (P : State → Prop) (run : State → Result) (s : State) : Prop :=
  ∃ t, run s = .next t ∧ (P t → run t = .next t)

/-- From `s` the command ends in a next state and, unless the block is stuck there, leaves it as it is. -/
def Repeats (run : State → Result) (s : State) : Prop := RepeatsIf (fun t => t.faulted = false) run s

/-! One rule per check of R137, and one per register file that is written. -/

theorem repeats_onInstance {n : Nat} {idx : BitVec 4} {rest : State → Fin n → Result}
    (h : ∀ j, RepeatsIf P (fun s => rest s j) s) : RepeatsIf P (fun s => onInstance n idx s (rest s)) s := by
  by_cases hn : idx.toNat < n
  · obtain ⟨t, ht, ht'⟩ := h ⟨idx.toNat, hn⟩
    exact ⟨t, (onInstance_present hn _).trans ht, fun hf => (onInstance_present hn _).trans (ht' hf)⟩
  · have hn := Nat.not_lt.1 hn
    exact ⟨s.noResult, onInstance_missing hn _, fun _ => onInstance_missing hn _⟩

theorem repeats_raise (code : FaultCode) (cmd : CmdWord) {run : State → Result}
    (h : run s = .next (s.raise code cmd)) : Repeats run s :=
  ⟨_, h, fun hf => absurd ((s.raise_faulted code cmd).symm.trans hf) (by decide)⟩

theorem repeats_numberOperand {cmd : CmdWord} {v : F64} {rest : State → Result} (h : Repeats rest s) :
    Repeats (fun s => numberOperand cmd v s (rest s)) s := by
  cases hv : Fp.isNaN v
  · simpa only [numberOperand_number hv] using h
  · exact repeats_raise _ _ (numberOperand_nan hv _ _)

theorem repeats_selOperand {α : Type} {cmd : CmdWord} {meaning : Option α} {rest : State → α → Result}
    (h : ∀ a, Repeats (fun s => rest s a) s) : Repeats (fun s => selOperand cmd meaning s (rest s)) s := by
  cases meaning with
  | none => exact repeats_raise _ _ rfl
  | some a => exact h a

theorem repeats_setOsc {j : Fin 3} (f : OscRegs → OscRegs) (hf : ∀ r, f (f r) = f r) :
    RepeatsIf P (fun s => .next (s.setOsc j (f (s.oscAt j))).noResult) s :=
  ⟨_, rfl, fun _ => by simp [hf]⟩

theorem repeats_setEnv {j : Fin 1} (f : EnvRegs → EnvRegs) (hf : ∀ r, f (f r) = f r) :
    RepeatsIf P (fun s => .next (s.setEnv j (f (s.envAt j))).noResult) s :=
  ⟨_, rfl, fun _ => by simp [hf]⟩

theorem repeats_setLfo {j : Fin 2} (f : LfoRegs → LfoRegs) (hf : ∀ r, f (f r) = f r) :
    RepeatsIf P (fun s => .next (s.setLfo j (f (s.lfoAt j))).noResult) s :=
  ⟨_, rfl, fun _ => by simp [hf]⟩

theorem repeats_setFilt {j : Fin 1} (f : FiltRegs → FiltRegs) (hf : ∀ r, f (f r) = f r) :
    RepeatsIf P (fun s => .next (s.setFilt j (f (s.filtAt j))).noResult) s :=
  ⟨_, rfl, fun _ => by simp [hf]⟩

theorem repeats_setSr {cmd : CmdWord} (v : F64) :
    Repeats (fun s => if isSampleRate v then .next (s.setSr v).noResult else raiseFault .badOperand cmd s) s := by
  cases hv : isSampleRate v
  · exact repeats_raise _ _ rfl
  · exact ⟨_, rfl, fun _ => by simp⟩

/-- The reset of a unit that draws nothing stores what it stores in every state. -/
theorem repeats_of_isReset {idx : BitVec 4} (hi : i = .oscReset idx ∨ i = .envReset idx ∨ i = .filtReset idx) :
    RepeatsIf (fun _ => True) (exec i) s := by
  unfold exec
  rcases hi with rfl | rfl | rfl
  · exact repeats_onInstance fun _ => repeats_setOsc (fun r => { r with phase := _ }) fun _ => rfl
  · exact repeats_onInstance fun _ => repeats_setEnv (fun r => { r with state := _, level := _ }) fun _ => rfl
  · exact repeats_onInstance fun _ => repeats_setFilt (fun r => { r with s := _ }) fun _ => rfl

/-- A setter stores values that do not depend on the state, so that it finds them stored. -/
theorem repeats_of_isSetter (hi : i.isSetter = true) : Repeats (exec i) s := by
  change Repeats (fun s => exec i s) s
  cases i <;> dsimp only [exec]
  case sysSetSr => exact repeats_onInstance fun _ => repeats_setSr _
  case oscSetFreq =>
    exact repeats_onInstance fun _ => repeats_numberOperand <|
      repeats_setOsc (fun r => { r with freq := _ }) fun _ => rfl
  case oscSetWave =>
    exact repeats_selOperand fun _ => repeats_onInstance fun _ =>
      repeats_setOsc (fun r => { r with wave := _ }) fun _ => rfl
  case oscSetPw =>
    exact repeats_onInstance fun _ => repeats_numberOperand <|
      repeats_setOsc (fun r => { r with pw := _ }) fun _ => rfl
  case envSetAttack =>
    exact repeats_onInstance fun _ => repeats_numberOperand <|
      repeats_setEnv (fun r => { r with attack := _ }) fun _ => rfl
  case envSetDecay =>
    exact repeats_onInstance fun _ => repeats_numberOperand <|
      repeats_setEnv (fun r => { r with decay := _ }) fun _ => rfl
  case envSetSustain =>
    exact repeats_onInstance fun _ => repeats_numberOperand <|
      repeats_setEnv (fun r => { r with sustain := _ }) fun _ => rfl
  case envSetRelease =>
    exact repeats_onInstance fun _ => repeats_numberOperand <|
      repeats_setEnv (fun r => { r with release := _ }) fun _ => rfl
  case lfoSetWave =>
    exact repeats_selOperand fun _ => repeats_onInstance fun _ =>
      repeats_setLfo (fun r => { r with wave := _ }) fun _ => rfl
  case lfoSetRate =>
    exact repeats_onInstance fun _ => repeats_numberOperand <|
      repeats_setLfo (fun r => { r with rate := _ }) fun _ => rfl
  case lfoSetRateMode =>
    exact repeats_selOperand fun _ => repeats_onInstance fun _ =>
      repeats_setLfo (fun r => { r with rateMode := _ }) fun _ => rfl
  case lfoSetSyncDiv =>
    exact repeats_selOperand fun _ => repeats_onInstance fun _ =>
      repeats_setLfo (fun r => { r with syncDiv := _ }) fun _ => rfl
  case lfoSetBpm =>
    exact repeats_onInstance fun _ => repeats_numberOperand <|
      repeats_setLfo (fun r => { r with bpm := _ }) fun _ => rfl
  case lfoSetDepth =>
    exact repeats_onInstance fun _ => repeats_numberOperand <|
      repeats_setLfo (fun r => { r with depth := _ }) fun _ => rfl
  case filtSetMode =>
    exact repeats_selOperand fun _ => repeats_onInstance fun _ =>
      repeats_setFilt (fun r => { r with mode := _ }) fun _ => rfl
  case filtSetCutoff =>
    exact repeats_onInstance fun _ => repeats_numberOperand <|
      repeats_setFilt (fun r => { r with cutoff := _, dirty := true }) fun _ => rfl
  case filtSetRes =>
    exact repeats_onInstance fun _ => repeats_numberOperand <|
      repeats_setFilt (fun r => { r with res := _, dirty := true }) fun _ => rfl
  all_goals exact absurd hi Bool.false_ne_true

/-- `t` is `s` but for the result port. -/
def State.sameButResult (s t : State) : Prop := t = { s with res := t.res, resValid := t.resValid }

theorem ends_returns {n : Nat} {idx : BitVec 4} (v : Fin n → BitVec 64) :
    Ends (onInstance n idx s fun j => .next (s.returns (v j))) s.sameButResult :=
  ends_onInstance (fun _ => rfl) fun _ _ => ends_next rfl

/-- A read writes the result port alone. -/
theorem exec_read (hi : i.returnsWord = true ∨ ∃ idx, i = .lfoPeek idx) : Ends (exec i s) s.sameButResult := by
  rcases hi with hi | ⟨idx, rfl⟩
  · cases i
    case oscGetPhase | envGetState | envIsActive | envGetLevel => dsimp only [exec]; exact ends_returns _
    all_goals exact absurd hi Bool.false_ne_true
  · dsimp only [exec]; exact ends_returns _

end

/-- Settles O23: a setter and a reset find stored what they store, or the block stuck on the fault they recorded; the
second `LFO.RESET` is its effect on the state of the first. -/
theorem idempotence : Obligations.Idempotence := by
  refine ⟨fun c i s hd hset => ?setter, fun i idx s hi => ?reset, fun i s => ?lfoReset, fun i s t hi h => ?read⟩
  case setter =>
    cases hf : s.faulted
    · obtain ⟨t, ht, hagain⟩ := repeats_of_isSetter (s := s) hset
      refine ⟨t, (perform_legal hf hd).trans ht, ?_⟩
      cases htf : t.faulted
      · exact (perform_legal htf hd).trans (hagain htf)
      · exact perform_stuck htf c
    · exact ⟨s, perform_stuck hf c, perform_stuck hf c⟩
  case reset =>
    obtain ⟨t, ht, hagain⟩ := repeats_of_isReset (s := s) hi
    exact ⟨t, ht, hagain trivial⟩
  case lfoReset =>
    refine ⟨_, _, exec_lfoReset i, exec_lfoReset i, ?_⟩
    simp [State.setLfo, State.lfoAt, State.drawn, State.noResult, State.nextHeldDraw]
  case read =>
    obtain ⟨t', ht', hread⟩ := exec_read hi
    obtain rfl := next_inj (ht'.symm.trans h)
    exact hread

end Sys2Proof.Machine

/-! ### BLOCK.RESET (R146, R451) -/

namespace Sys2Proof.Machine

section
variable {s t : State} {i : Instr}

theorem perform_encode (hf : s.faulted = false) (hw : i.WellFormed = true) : perform (encode i) s = exec i s :=
  perform_legal hf (decodeOfEncode i hw)

/-- A command without a result leaves the rest of the list to its next state, and adds no result. -/
theorem runCommands_encode_noResult (hf : s.faulted = false) (hw : i.WellFormed = true)
    (h : exec i s = .next t.noResult) (is : List Instr) :
    runCommands ((i :: is).map encode) s = runCommands (is.map encode) t.noResult := by
  rw [List.map_cons, runCommands_cons ((perform_encode hf hw).trans h)]
  rfl

end

/-- Rewriting every place of a vector in turn maps it. -/
theorem set_set_set_eq_map {α : Type} (v : Vector α 3) (f : α → α) :
    ((v.set 0 (f v[0])).set 1 (f v[1])).set 2 (f v[2]) = v.map f := by
  ext k hk
  interval_cases k <;> simp

theorem set_eq_map {α : Type} (v : Vector α 1) (f : α → α) : v.set 0 (f v[0]) = v.map f := by
  ext k hk
  interval_cases k
  simp

theorem set_set_eq {α : Type} (v : Vector α 2) (a b : α) : (v.set 0 a).set 1 b = #v[a, b] := by
  ext k hk
  interval_cases k <;> simp

/-- Settles O28: the seven resets run one after another, each on the registers that those before it left. -/
theorem blockReset : Obligations.BlockReset := by
  intro s hf
  change runCommands (([.oscReset (instIdx (0 : Fin 3)), .oscReset (instIdx (1 : Fin 3)),
    .oscReset (instIdx (2 : Fin 3)), .envReset (instIdx (0 : Fin 1)), .lfoReset (instIdx (0 : Fin 2)),
    .lfoReset (instIdx (1 : Fin 2)), .filtReset (instIdx (0 : Fin 1))] : List Instr).map encode) s = _
  rw [runCommands_encode_noResult hf rfl (exec_oscReset 0),
    runCommands_encode_noResult (by simpa using hf) rfl (exec_oscReset 1),
    runCommands_encode_noResult (by simpa using hf) rfl (exec_oscReset 2),
    runCommands_encode_noResult (by simpa using hf) rfl (exec_envReset 0),
    runCommands_encode_noResult (by simpa using hf) rfl (exec_lfoReset 0),
    runCommands_encode_noResult (by simpa using hf) rfl (exec_lfoReset 1),
    runCommands_encode_noResult (by simpa using hf) rfl (exec_filtReset 0)]
  refine congrArg (Prod.mk []) ?_
  rw [← set_set_set_eq_map, ← set_eq_map, ← set_eq_map, ← set_set_eq s.lfo]
  simp [State.setOsc, State.setEnv, State.setLfo, State.setFilt, State.drawn, State.noResult, State.oscAt, State.envAt,
    State.lfoAt, State.filtAt, State.nextHeldDraw, Stages.zero]

end Sys2Proof.Machine

/-! ### Rounding gives the nearest number (R16)

A rounded magnitude is one of the two codes around the exact ratio, the nearer one, or the even one of two equally near.
All that is farther out is no nearer, since the codes are ordered as their values are. -/

namespace Sys2Proof.Fp

/-- The codes of a binade and of the next one's first number, by the fraction with its leading bit. -/
theorem magValue_of_fraction {fb e q : Nat} (hlo : e = 0 ∨ 2 ^ fb ≤ q) (hhi : q ≤ 2 ^ (fb + 1)) :
    magValue fb (e * 2 ^ fb + q) = q * 2 ^ e := by
  have hp : 0 < 2 ^ fb := Nat.two_pow_pos fb
  rw [pow_succ] at hhi
  rcases Nat.lt_or_ge q (2 ^ fb) with hq | hq
  · obtain rfl : e = 0 := hlo.resolve_right hq.not_ge
    simp [magValue_of_field_zero hq]
  · obtain ⟨f, rfl⟩ := Nat.exists_eq_add_of_le hq
    rcases Nat.lt_or_ge f (2 ^ fb) with hf | hf
    · rw [← magValue_of_field hf, Nat.succ_mul, Nat.add_assoc]
    · rw [Nat.mul_two] at hhi
      obtain rfl : f = 2 ^ fb := Nat.le_antisymm (Nat.le_of_add_le_add_left hhi) hf
      have := magValue_of_field (fb := fb) (e := e + 1) hp
      rw [Nat.add_zero, Nat.add_zero, Nat.succ_mul, Nat.succ_mul, Nat.add_assoc] at this
      rw [this, Nat.add_zero, pow_succ', ← Nat.mul_assoc, Nat.mul_two]

/-- How far a code's value is from `n / d`, times `d`. -/
def gap (fb n d m : Nat) : Nat := (((magValue fb m * d : Nat) : Int) - n).natAbs

/-- `m` is the code nearest to `n / d`, of two equally near the even one. -/
def IsNearest (fb n d m : Nat) : Prop :=
  ∀ k, gap fb n d m ≤ gap fb n d k ∧ (gap fb n d m = gap fb n d k → k = m ∨ m % 2 = 0)

/-- What is not above the ratio misses it from below. -/
theorem gap_of_le {fb n d m : Nat} (h : magValue fb m * d ≤ n) : gap fb n d m + magValue fb m * d = n := by
  rw [gap, Int.natAbs_natCast_sub_natCast_of_le h, Nat.sub_add_cancel h]

/-- What is not below the ratio misses it from above. -/
theorem gap_of_ge {fb n d m : Nat} (h : n ≤ magValue fb m * d) : gap fb n d m + n = magValue fb m * d := by
  rw [gap, Int.natAbs_natCast_sub_natCast_of_ge h, Nat.sub_add_cancel h]

theorem gap_zero (fb n d : Nat) : gap fb n d 0 = n := by
  simpa using gap_of_le (fb := fb) (n := n) (d := d) (m := 0) (by simp)

theorem magValue_mul_lt {fb d k m : Nat} (hd : 0 < d) (h : k < m) : magValue fb k * d < magValue fb m * d :=
  Nat.mul_lt_mul_of_pos_right (magValue_lt_iff.2 h) hd

/-- Below the ratio a lesser code is farther. -/
theorem gap_lt_of_lt_of_le {fb n d k m : Nat} (hd : 0 < d) (hk : k < m) (hm : magValue fb m * d ≤ n) :
    gap fb n d m < gap fb n d k := by
  have hlt := magValue_mul_lt (fb := fb) hd hk
  have hm' := gap_of_le hm
  have hk' := gap_of_le (hlt.le.trans hm)
  refine Nat.lt_of_add_lt_add_right (n := magValue fb k * d) ?_
  exact (Nat.add_lt_add_left hlt _).trans_eq (hm'.trans hk'.symm)

/-- Above the ratio a greater code is farther. -/
theorem gap_lt_of_gt_of_ge {fb n d k m : Nat} (hd : 0 < d) (hk : m < k) (hm : n ≤ magValue fb m * d) :
    gap fb n d m < gap fb n d k := by
  have hlt := magValue_mul_lt (fb := fb) hd hk
  have hm' := gap_of_ge hm
  have hk' := gap_of_ge (hm.trans hlt.le)
  exact Nat.lt_of_add_lt_add_right (hm'.trans_lt (hlt.trans_eq hk'.symm))

theorem le_and_of_lt {a b : Nat} {tie : Prop} (h : a < b) : a ≤ b ∧ (a = b → tie) :=
  ⟨h.le, fun h' => absurd h' h.ne⟩

/-- Of the two codes `f` and `f + 1` around a ratio, the nearer one, or the even one of two equally near, is the nearest of
all codes. -/
theorem isNearest_of_bracket {fb n d f m : Nat} (hd : 0 < d) (hlo : magValue fb f * d ≤ n)
    (hhi : n ≤ magValue fb (f + 1) * d)
    (hm : m = f ∧ (gap fb n d f < gap fb n d (f + 1) ∨ (gap fb n d f = gap fb n d (f + 1) ∧ f % 2 = 0)) ∨
      m = f + 1 ∧ (gap fb n d (f + 1) < gap fb n d f ∨ (gap fb n d f = gap fb n d (f + 1) ∧ f % 2 = 1))) :
    IsNearest fb n d m := by
  intro k
  have below (h : k < f) := gap_lt_of_lt_of_le hd h hlo
  have above (h : f + 1 < k) := gap_lt_of_gt_of_ge hd h hhi
  rcases hm with ⟨rfl, hm⟩ | ⟨rfl, hm⟩
  · have hle : gap fb n d m ≤ gap fb n d (m + 1) := hm.elim le_of_lt fun h => h.1.le
    rcases Nat.lt_trichotomy k m with hk | rfl | hk
    · exact le_and_of_lt (below hk)
    · exact ⟨le_rfl, fun _ => .inl rfl⟩
    · rcases Nat.eq_or_lt_of_le hk with rfl | hk
      · exact hm.elim le_and_of_lt fun h => ⟨hle, fun _ => .inr h.2⟩
      · exact le_and_of_lt (hle.trans_lt (above hk))
  · have hle : gap fb n d (f + 1) ≤ gap fb n d f := hm.elim le_of_lt fun h => h.1.ge
    rcases Nat.lt_trichotomy k f with hk | rfl | hk
    · exact le_and_of_lt (hle.trans_lt (below hk))
    · exact hm.elim le_and_of_lt fun h => ⟨hle, fun _ => .inr (Nat.succ_mod_two_eq_zero_iff.2 h.2)⟩
    · rcases Nat.eq_or_lt_of_le hk with rfl | hk
      · exact ⟨le_rfl, fun _ => .inl rfl⟩
      · exact le_and_of_lt (above hk)

/-- The scaled ratio `n / (d * 2 ^ e)` that is rounded to an integer has the leading bit of a fraction, or is below the
first binade. -/
theorem fraction_range (fb q : Nat) :
    (Nat.log2 q - fb = 0 ∨ 2 ^ fb ≤ q / 2 ^ (Nat.log2 q - fb)) ∧ q / 2 ^ (Nat.log2 q - fb) < 2 ^ (fb + 1) := by
  rw [Nat.le_div_iff_mul_le (Nat.two_pow_pos _), Nat.div_lt_iff_lt_mul (Nat.two_pow_pos _), ← pow_add, ← pow_add]
  constructor
  · rcases Nat.le_total (Nat.log2 q) fb with h | h
    · exact .inl (Nat.sub_eq_zero_of_le h)
    · by_cases h0 : q = 0
      · simp [h0]
      · rw [Nat.add_sub_cancel' h]
        exact .inr (Nat.log2_self_le h0)
  · refine (Nat.lt_log2_self (n := q)).trans_le (Nat.pow_le_pow_right Nat.two_pos ?_)
    rw [Nat.add_right_comm]
    exact Nat.succ_le_succ (Nat.sub_le_iff_le_add'.1 le_rfl)

/-- Rounding to an integer takes the one below up to the midpoint, and at it where that is even. -/
theorem roundHalfEven_cases (n d : Nat) :
    roundHalfEven n d = n / d ∧ (2 * (n % d) < d ∨ (2 * (n % d) = d ∧ n / d % 2 = 0)) ∨
      roundHalfEven n d = n / d + 1 ∧ (d < 2 * (n % d) ∨ (2 * (n % d) = d ∧ n / d % 2 = 1)) := by
  unfold roundHalfEven
  split_ifs with h
  · exact .inl ⟨rfl, h⟩
  · obtain ⟨hlt, htie⟩ := not_or.1 h
    refine .inr ⟨rfl, (Nat.lt_or_eq_of_le (Nat.not_lt.1 hlt)).imp_right fun heq => ⟨heq.symm, ?_⟩⟩
    exact Nat.mod_two_ne_zero.1 fun h0 => htie ⟨heq.symm, h0⟩

/-- A part is less or more than its rest as its double is less or more than the whole. -/
theorem part_lt_rest {r g w : Nat} (h : g + r = w) :
    (2 * r < w ↔ r < g) ∧ (2 * r = w ↔ r = g) ∧ (w < 2 * r ↔ g < r) := by
  rw [← h, Nat.two_mul]
  exact ⟨Nat.add_lt_add_iff_right, Nat.add_right_cancel_iff, Nat.add_lt_add_iff_right⟩

theorem even_mul_two_pow_add {fb : Nat} (hfb : 0 < fb) (e q : Nat) : (e * 2 ^ fb + q) % 2 = q % 2 := by
  obtain ⟨b, rfl⟩ := Nat.exists_eq_add_of_le' hfb
  rw [pow_succ, ← Nat.mul_assoc, Nat.add_comm, Nat.add_mul_mod_self_right]

/-- Rounding to a format with fraction bits gives the nearest code. -/
theorem roundMag_isNearest {fb : Nat} (hfb : 0 < fb) (n : Nat) {d : Nat} (hd : 0 < d) :
    IsNearest fb n d (roundMag fb n d) := by
  obtain ⟨hqlo, hqhi⟩ := fraction_range fb (n / d)
  have hm : roundMag fb n d =
      (Nat.log2 (n / d) - fb) * 2 ^ fb + roundHalfEven n (d * 2 ^ (Nat.log2 (n / d) - fb)) := rfl
  rw [← div_mul_pow] at hqlo hqhi
  generalize Nat.log2 (n / d) - fb = e at hqlo hqhi hm
  have hround := roundHalfEven_cases n (d * 2 ^ e)
  have hn : d * 2 ^ e * (n / (d * 2 ^ e)) + n % (d * 2 ^ e) = n := Nat.div_add_mod n _
  have hr : n % (d * 2 ^ e) < d * 2 ^ e := Nat.mod_lt _ (Nat.mul_pos hd (Nat.two_pow_pos e))
  generalize n / (d * 2 ^ e) = q at hqlo hqhi hround hn
  generalize n % (d * 2 ^ e) = r at hround hn hr
  have hf : magValue fb (e * 2 ^ fb + q) * d = d * 2 ^ e * q := by
    rw [magValue_of_fraction hqlo hqhi.le, Nat.mul_comm _ d, Nat.mul_comm q, Nat.mul_assoc]
  have hf' : magValue fb (e * 2 ^ fb + q + 1) * d = d * 2 ^ e * q + d * 2 ^ e := by
    rw [Nat.add_assoc, magValue_of_fraction (q := q + 1) (hqlo.imp_right Nat.le_succ_of_le) hqhi, Nat.mul_comm _ d,
      Nat.mul_comm (q + 1), ← Nat.mul_assoc, Nat.mul_succ]
  have hlo : magValue fb (e * 2 ^ fb + q) * d ≤ n := hf.trans_le (hn ▸ Nat.le_add_right _ _)
  have hhi : n ≤ magValue fb (e * 2 ^ fb + q + 1) * d := hf' ▸ hn ▸ Nat.add_le_add_left hr.le _
  have hgap : gap fb n d (e * 2 ^ fb + q) = r :=
    Nat.add_right_cancel ((gap_of_le hlo).trans (hn.symm.trans (hf ▸ Nat.add_comm _ _)))
  have hgap' : gap fb n d (e * 2 ^ fb + q + 1) + r = d * 2 ^ e := by
    have := gap_of_ge hhi
    rw [hf', ← hn, Nat.add_left_comm] at this
    exact hn ▸ Nat.add_left_cancel this
  obtain ⟨hbelow, htie, habove⟩ := part_lt_rest hgap'
  refine isNearest_of_bracket (f := e * 2 ^ fb + q) hd hlo hhi ?_
  rw [hgap, even_mul_two_pow_add hfb, ← hbelow, ← htie, ← habove, hm]
  exact hround.imp (And.imp_left fun h => by rw [h]) (And.imp_left fun h => by rw [h, Nat.add_assoc])

theorem le_of_two_mul_lt {a n b : Nat} (hab : a ≤ b) (h : 2 * n < a + b) : n ≤ b := by
  by_contra hn
  have hn := (Nat.lt_of_not_le hn).le
  exact h.not_ge (Nat.two_mul n ▸ Nat.add_le_add (hab.trans hn) hn)

/-- Below the midpoint of `a` and `b` a number is nearer to `a`. -/
theorem lt_of_midpoint {a n b g g' : Nat} (ha : g + a = n) (hb : g' + n = b) (h : 2 * n < a + b) : g < g' := by
  rw [← hb, Nat.two_mul, ← Nat.add_assoc, Nat.add_lt_add_iff_right, ← ha, Nat.add_comm, Nat.add_lt_add_iff_left] at h
  exact h

/-- The overflow limit is half way between the greatest finite value and the next code's. -/
theorem overflow_eq : magValue 52 (infMag - 1) + magValue 52 infMag = 2 * overflow := by decide +kernel

theorem roundMag_overflow : roundMag 52 overflow 1 = infMag := by decide +kernel

/-- Rounding stays below the code of infinity exactly below the overflow limit, where infinity's code, the even one, is
taken. -/
theorem roundMag_lt_infMag {n d : Nat} (hd : 0 < d) : roundMag 52 n d < infMag ↔ n < overflow * d := by
  constructor
  · intro hm
    by_contra hn
    have hover : overflow * d ≤ n * 1 := by simpa using hn
    have hle := roundMag_mono (fb := 52) one_pos hd hover
    rw [roundMag_overflow] at hle
    exact hle.not_gt hm
  · intro hn
    by_contra hm
    have hm := Nat.not_lt.1 hm
    have hlt := magValue_mul_lt (fb := 52) (k := infMag - 1) (m := infMag) hd (by decide)
    have hlimit : magValue 52 (infMag - 1) * d + magValue 52 infMag * d = 2 * (overflow * d) := by
      rw [← Nat.add_mul, overflow_eq, Nat.mul_assoc]
    have hbelow : 2 * n < magValue 52 (infMag - 1) * d + magValue 52 infMag * d :=
      (Nat.mul_lt_mul_of_pos_left hn Nat.two_pos).trans_eq hlimit.symm
    have hinf : n ≤ magValue 52 infMag * d := le_of_two_mul_lt hlt.le hbelow
    -- the last finite code is nearer than infinity's, and so than any code above
    have hnear : gap 52 n d (infMag - 1) < gap 52 n d infMag := by
      rcases Nat.le_total (magValue 52 (infMag - 1) * d) n with hlo | hlo
      · exact lt_of_midpoint (gap_of_le hlo) (gap_of_ge hinf) hbelow
      · exact gap_lt_of_gt_of_ge hd (by decide) hlo
    have hfar : gap 52 n d infMag ≤ gap 52 n d (roundMag 52 n d) := by
      rcases Nat.eq_or_lt_of_le hm with h | h
      · rw [← h]
      · exact (gap_lt_of_gt_of_ge hd h hinf).le
    obtain ⟨hle, -⟩ := roundMag_isNearest (fb := 52) (by decide) n hd (infMag - 1)
    exact (hfar.trans hle).not_gt hnear

/-! ### The sign of a rounded result -/

/-- Changing the sign of the ratio changes the sign of its rounding. -/
theorem RoundsTo.negate {num den : Int} {r : F64} (h : RoundsTo num den r) : RoundsTo (-num) den (negate r) := by
  obtain ⟨hN, hfin, hnear⟩ := h
  refine ⟨(isNaN_negate r).trans hN, by rw [isFinite_negate, Int.natAbs_neg]; exact hfin, fun hr z hz => ?_⟩
  obtain ⟨hle, heq⟩ := hnear ((isFinite_negate r).symm.trans hr) (Fp.negate z) ((isFinite_negate z).trans hz)
  have flip (v : Int) : (-v * den - -num).natAbs = (v * den - num).natAbs := by
    rw [Int.neg_mul, neg_sub_neg, ← Int.natAbs_neg, neg_sub]
  have hz' : (value (Fp.negate z) * den - num).natAbs = (value z * den - -num).natAbs := by
    rw [← flip, value_negate, neg_neg]
  rw [hz'] at hle heq
  rw [value_negate, flip, mag_negate]
  refine ⟨hle, fun h => (heq h).imp_left fun hv => ?_⟩
  rw [← hv, value_negate, neg_neg]

/-- A ratio is the same with both signs changed. -/
theorem RoundsTo.neg_neg {num den : Int} {r : F64} (h : RoundsTo num den r) : RoundsTo (-num) (-den) r := by
  obtain ⟨hN, hfin, hnear⟩ := h
  have flip (v : Int) : (v * -den - -num).natAbs = (v * den - num).natAbs := by
    rw [Int.mul_neg, neg_sub_neg, ← Int.natAbs_neg, neg_sub]
  refine ⟨hN, by simpa using hfin, fun hr z hz => ?_⟩
  rw [flip, flip]
  exact hnear hr z hz

theorem value_eq_or (x : F64) : value x = magValue 52 (mag x) ∨ value x = -(magValue 52 (mag x) : Int) := by
  unfold value; split
  · exact .inr rfl
  · exact .inl rfl

theorem natAbs_neg_mul_sub (v d n : Nat) : (-(v : Int) * d - n).natAbs = v * d + n := by
  rw [Int.neg_mul, ← Int.natAbs_neg, neg_sub, sub_neg_eq_add, Int.add_comm]
  norm_cast

theorem natAbs_mul_sub (fb n d m : Nat) : ((magValue fb m : Int) * d - n).natAbs = gap fb n d m := by
  rw [gap, Nat.cast_mul]

/-- A negative number is no nearer than zero, and as near only where it is zero. -/
theorem IsNearest.le_of_neg {fb n d m : Nat} (hd : 0 < d) (h : IsNearest fb n d m) (v : Nat) :
    gap fb n d m ≤ v * d + n ∧ (gap fb n d m = v * d + n → v = 0 ∧ (0 = m ∨ m % 2 = 0)) := by
  obtain ⟨hle, heq⟩ := h 0
  rw [gap_zero] at hle heq
  refine ⟨Nat.le_add_left_of_le hle, fun h => ?_⟩
  have h0 : v * d = 0 := Nat.le_zero.1 (Nat.le_of_add_le_add_right ((h ▸ hle).trans_eq (Nat.zero_add n).symm))
  rw [h0, Nat.zero_add] at h
  exact ⟨(Nat.mul_eq_zero.1 h0).resolve_right hd.ne', heq h⟩

theorem mag_round_false {n d : Nat} (h : isFinite (round false n d) = true) :
    mag (round false n d) = roundMag 52 n d := by
  have hlt := of_decide_eq_true h
  rw [mag_round] at hlt ⊢
  exact min_eq_left ((min_lt_iff.1 hlt).resolve_right (lt_irrefl _)).le

/-- The rounding of a non-negative ratio: its code is the nearest, and no number of the other sign is nearer. -/
theorem roundsTo_round_false (n : Nat) {d : Nat} (hd : 0 < d) : RoundsTo n d (round false n d) := by
  refine ⟨isNaN_round _ _ _, ?_, fun hr z _ => ?_⟩
  · rw [Int.natAbs_natCast, Int.natAbs_natCast, ← roundMag_lt_infMag hd]
    simp [isFinite, mag_round]
  · have hm := mag_round_false hr
    have hv : value (round false n d) = magValue 52 (roundMag 52 n d) := by
      simp [value, neg?_round, hm]
    have hnear := roundMag_isNearest (fb := 52) (by decide) n hd
    rw [hv, hm, natAbs_mul_sub]
    rcases value_eq_or z with hz | hz <;> rw [hz]
    · rw [natAbs_mul_sub]
      obtain ⟨hle, heq⟩ := hnear (mag z)
      exact ⟨hle, fun h => (heq h).imp_left fun hk => by rw [hk]⟩
    · rw [natAbs_neg_mul_sub]
      obtain ⟨hle, heq⟩ := hnear.le_of_neg hd (magValue 52 (mag z))
      refine ⟨hle, fun h => ?_⟩
      obtain ⟨h0, htie⟩ := heq h
      exact htie.imp_left fun hk => by rw [h0, ← hk, magValue_zero]; rfl

/-- A magnitude with a sign. -/
def signed (b : Bool) (n : Nat) : Int := if b then -n else n

theorem value_eq_signed (x : F64) : value x = signed (neg? x) (magValue 52 (mag x)) := rfl

theorem signed_mul (a b : Bool) (m n : Nat) : signed a m * signed b n = signed (a != b) (m * n) := by
  cases a <;> cases b <;> simp [signed]

theorem signed_natAbs {b : Bool} {v : Int} (h : v ≠ 0 → b = decide (v < 0)) : signed b v.natAbs = v := by
  unfold signed
  rcases lt_trichotomy v 0 with hv | rfl | hv
  · rw [h hv.ne, if_pos (decide_eq_true hv), Int.ofNat_natAbs_of_nonpos hv.le, Int.neg_neg]
  · simp
  · rw [h hv.ne', if_neg (by simpa using hv.le), Int.natAbs_of_nonneg hv.le]

theorem negate_round (b : Bool) (n d : Nat) : negate (round b n d) = round (!b) n d := by
  rw [Fp.negate, neg?_round, mag_round]
  rfl

/-- Every rounding of the model is to the nearest, with the sign it is given. -/
theorem roundsTo_round (b : Bool) (n : Nat) {d : Nat} (hd : 0 < d) : RoundsTo (signed b n) d (round b n d) := by
  cases b
  · exact roundsTo_round_false n hd
  · have h := (roundsTo_round_false n hd).negate
    rwa [negate_round] at h

/-- The divisor's sign may be taken into the quotient's. -/
theorem roundsTo_round_signed (a b : Bool) (n : Nat) {d : Nat} (hd : 0 < d) :
    RoundsTo (signed a n) (signed b d) (round (a != b) n d) := by
  cases b
  · simpa [signed] using roundsTo_round a n hd
  · have h := (roundsTo_round (!a) n hd).neg_neg
    have hn : -signed (!a) n = signed a n := by cases a <;> simp [signed]
    rw [hn] at h
    simpa [signed] using h

/-! ### The four operations -/

/-- A sum is rounded once; an exact sum of zero is the zero whose sign is that of both operands (R16). -/
theorem add_eq_round {x y : F64} (hx : isFinite x = true) (hy : isFinite y = true) :
    add x y = round (if value x + value y = 0 then neg? x && neg? y else decide (value x + value y < 0))
      (value x + value y).natAbs 1 := by
  rw [add_finite hx hy]
  split_ifs with h
  · rw [h, round, Int.natAbs_zero, roundMag_zero 52 one_pos, Nat.zero_min]
  · rfl

theorem roundsTo_add {x y : F64} (hx : isFinite x = true) (hy : isFinite y = true) :
    RoundsTo (value x + value y) 1 (add x y) := by
  have h := roundsTo_round (if value x + value y = 0 then neg? x && neg? y else decide (value x + value y < 0))
    (value x + value y).natAbs one_pos
  rwa [← add_eq_round hx hy, signed_natAbs fun h0 => if_neg h0] at h

/-- A quotient by a finite number other than zero is rounded once. -/
theorem div_finite {x y : F64} (hx : isFinite x = true) (hy : isFinite y = true) (h0 : isZero y = false) :
    div x y = round (neg? x != neg? y) (magValue 52 (mag x) * one64) (magValue 52 (mag y)) := by
  simp [div, isNaN_of_isFinite, isInf_of_isFinite, hx, hy, h0]

theorem magValue_pos {m : Nat} (h : 0 < m) : 0 < magValue 52 m := by
  simpa using magValue_lt_iff (fb := 52).2 h

theorem roundsTo_mul {x y : F64} (hx : isFinite x = true) (hy : isFinite y = true) :
    RoundsTo (value x * value y) one64 (mul x y) := by
  rw [mul_finite hx hy, value_eq_signed, value_eq_signed, signed_mul]
  exact roundsTo_round _ _ one64_pos

theorem roundsTo_div {x y : F64} (hx : isFinite x = true) (hy : isFinite y = true) (h0 : isZero y = false) :
    RoundsTo (value x * one64) (value y) (div x y) := by
  have hd : 0 < magValue 52 (mag y) := magValue_pos (Nat.pos_of_ne_zero (of_decide_eq_false h0))
  have hnum : value x * one64 = signed (neg? x) (magValue 52 (mag x) * one64) := by
    calc value x * one64 = signed (neg? x) (magValue 52 (mag x)) * signed false one64 := rfl
      _ = signed (neg? x) (magValue 52 (mag x) * one64) := by rw [signed_mul, Bool.bne_false]
  rw [div_finite hx hy h0, hnum, value_eq_signed y]
  exact roundsTo_round_signed _ _ _ hd

end Sys2Proof.Fp

namespace Sys2Proof
open Fp

/-- Settles O52: each of the four is one rounding of the exact result, so it is the nearest number and has the sign the
rounding is given. -/
theorem operationsRoundToNearest : Obligations.OperationsRoundToNearest := by
  intro x y hx hy
  have hy' : isFinite (negate y) = true := by simpa using hy
  have hsub : value x + value (negate y) = value x - value y := by rw [value_negate]; rfl
  refine ⟨roundsTo_add hx hy, hsub ▸ roundsTo_add hx hy', fun h => ?_, fun h => ?_, fun h => ?_, fun h => ?_,
    roundsTo_mul hx hy, ?_, fun h0 => ⟨roundsTo_div hx hy h0, ?_⟩⟩
  · rw [add_eq_round hx hy, neg?_round, if_pos h]
  · rw [add_eq_round hx hy, neg?_round, if_neg h]
  · rw [sub, add_eq_round hx hy', neg?_round, if_pos (hsub.trans h), neg?_negate]
  · rw [sub, add_eq_round hx hy', neg?_round, hsub, if_neg h]
  · rw [mul_finite hx hy, neg?_round]
  · rw [div_finite hx hy h0, neg?_round]

end Sys2Proof
